-- ==== Sys2Proof/Word.lean ====
section
/-! DEFINITION. The two widths of AMCFE (spec/00_scope.md R6, R7): 16-bit registers and table entries, and bytes. Nothing in this hardware is signed. -/

namespace Sys2Proof

/-- `u16` of spec/00_scope.md R7: a register, a table entry, a checksum, a command word. -/
abbrev Word := BitVec 16

/-- `u8` of spec/00_scope.md R7: one element of `PAY`, `TX` or `RX`, one byte of a frame. -/
abbrev Byte := BitVec 8

end Sys2Proof
end

