-- ==== Sys2Proof/Config.lean ====
section
/-! DEFINITION. The parameters of the block (spec/00_scope.md R6), fixed before reset and never changed (spec/10_state.md R10), and the free values: what the spec leaves open. An `opaque` constant without a body is a value nothing in Lean can learn, so what is proved holds for every value of it. -/

namespace Sys2Proof

/-- Where the fields of the control byte lie (spec/30_encoding.md R64, `CTRL_LAYOUT`). -/
inductive CtrlLayout where
  /-- accessType 1:0, sequence 5:2, reserved 7:6: the layout R64 decides. -/
  | accessLow
  /-- The mirror: accessType 7:6, sequence 5:2, reserved 1:0. -/
  | accessHigh
deriving DecidableEq, Repr

/-- The control byte layout of this block: R64's decision (log 6). -/
def Config.ctrlLayout : CtrlLayout := .accessLow

/-- `START_MARKER`, an OPEN 8-bit parameter (spec/00_scope.md R6, decision D9; log 5). -/
opaque Config.startMarker : Byte

/-- Registers 0 to 19 exist (spec/00_scope.md R6, spec/20_memory.md R40). -/
def Config.registerCount : Nat := 20

/-- Elements of `TBL` (spec/00_scope.md R6). -/
def Config.tblSize : Nat := 256

/-- Bytes of `PAY` (spec/00_scope.md R6). -/
def Config.paySize : Nat := 512

/-- Bytes of `TX`: 8 + 511 + 2 (spec/00_scope.md R6). -/
def Config.txSize : Nat := 521

/-- Bytes of `RX` (spec/00_scope.md R6). -/
def Config.rxSize : Nat := 8

/-- What element `i` of `TBL` holds after the hard reset number `resets` until something writes it: unspecified (spec/10_state.md R33, R39; log 3). -/
opaque Config.unwrittenTbl (resets i : Nat) : Word

/-- What byte `i` of `PAY` holds after the hard reset number `resets` until something writes it: unspecified (spec/10_state.md R34, R39; log 3). -/
opaque Config.unwrittenPay (resets i : Nat) : Byte

/-- What byte `i` of `TX` holds after the hard reset number `resets` until something writes it: unspecified (spec/10_state.md R35, R39; log 3). -/
opaque Config.unwrittenTx (resets i : Nat) : Byte

/-- What byte `i` of `RX` holds after the hard reset number `resets` until something writes it: unspecified (spec/10_state.md R36, R39; log 3). -/
opaque Config.unwrittenRx (resets i : Nat) : Byte

end Sys2Proof
end

