-- ==== Sys2Proof/Syntax.lean ====
section
/-! DEFINITION. What can be said to the block: the six operations (spec/30_encoding.md R70, one constructor per row of spec/opcode_table.json), the names of the twenty registers and of the byte buffers, and the accesses the host makes (spec/20_memory.md R41 to R44). -/

namespace Sys2Proof

/-- The access type of an exchange (spec/30_encoding.md R65), the operand of BUILD. -/
inductive AccessType where
  | unused
  | read
  | write
  | readWrite
deriving DecidableEq, Repr

/-- The six operations (spec/30_encoding.md R70). -/
inductive Instr where
  /-- Create a session (spec/40_checksum.md R96). -/
  | init
  /-- Clear `ACC` (spec/40_checksum.md R97). -/
  | crcclr
  /-- Fold the byte `IMM8` into `ACC` (spec/40_checksum.md R98). -/
  | crcfold (b : Byte)
  /-- Build one command frame (spec/41_framer.md R112). -/
  | build (ty : AccessType)
  /-- Parse the response header in `RX` (spec/42_parser.md R126). -/
  | parse
  /-- Check the payload checksum (spec/42_parser.md R131). -/
  | pchk
deriving DecidableEq, Repr

/-- The twenty registers by name, in the order of their numbers (spec/10_state.md R10). -/
inductive Reg where
  | cmd | status | poly | addr | dest | seq | acc | index | offset | rlen
  | plen | trailer | txlen | hcsum | pcsum | rhdrA | rhdrC | rhdrS | rhdrL | rhdrK
deriving DecidableEq, Repr

/-- The buffers whose elements are bytes (spec/20_memory.md R40). -/
inductive ByteSpace where
  | pay
  | tx
  | rx
deriving DecidableEq, Repr

/-- How many bytes a byte buffer has (spec/20_memory.md R40). -/
def ByteSpace.size : ByteSpace → Nat
  | .pay => Config.paySize
  | .tx => Config.txSize
  | .rx => Config.rxSize

/-- What can reach the block from outside: the host's accesses (spec/20_memory.md R41 to R44) and the hard reset (spec/70_reset_and_hazards.md R195). An access names its element by a plain number, so that one which does not exist can be said and is then refused (spec/20_memory.md R45). The value of a write has the width of the element (log 15). -/
inductive HostEvent where
  /-- `RegRead(n)`. -/
  | regRead (n : Nat)
  /-- `RegWrite(n, v)`; with `n` = 0 it runs the operation `v` encodes. -/
  | regWrite (n : Nat) (v : Word)
  /-- `BufRead(TBL, i)`. -/
  | tblRead (i : Nat)
  /-- `BufWrite(TBL, i, v)`. -/
  | tblWrite (i : Nat) (v : Word)
  /-- `BufRead(PAY or TX or RX, i)`. -/
  | byteRead (sp : ByteSpace) (i : Nat)
  /-- `BufWrite(PAY or TX or RX, i, v)`. -/
  | byteWrite (sp : ByteSpace) (i : Nat) (v : Byte)
  /-- The hard reset (log 8). -/
  | hardReset
deriving DecidableEq, Repr

end Sys2Proof
end

