-- ==== Sys2Proof/WellFormed.lean ====
section
/-! DEFINITION. Which terms the hardware can be given. -/

namespace Sys2Proof

/-- Every operation with every operand its field admits is legal (spec/30_encoding.md R61): the operands' types hold exactly the values of `IMM8` and `AT`, so nothing is left to check. Access type 0 is a legal operand of BUILD (R71). -/
def Instr.wf : Instr → Bool
  | .init => true
  | .crcclr => true
  | .crcfold _ => true
  | .build _ => true
  | .parse => true
  | .pchk => true

/-- The access names a register or an element that exists (spec/20_memory.md R40, R45; the host of spec/43_firmware_contract.md R163 makes no other). -/
def HostEvent.wf : HostEvent → Bool
  | .regRead n => decide (n < Config.registerCount)
  | .regWrite n _ => decide (n < Config.registerCount)
  | .tblRead i => decide (i < Config.tblSize)
  | .tblWrite i _ => decide (i < Config.tblSize)
  | .byteRead sp i => decide (i < sp.size)
  | .byteWrite sp i _ => decide (i < sp.size)
  | .hardReset => true

end Sys2Proof
end

