-- ==== Sys2Proof/Decode.lean ====
section
/-! DEFINITION. The command word (spec/30_encoding.md R60, R61, R70, R71): its fields, the decoder, total on all 65536 words, and the encoder. -/

namespace Sys2Proof

/-- Why a command word is Illegal. The block reports one code, 12, for all of them (spec/60_exceptions.md R172; log 13). -/
inductive IllegalReason where
  /-- `MBZ` is not zero. -/
  | mbzNotZero
  /-- `OPC` is 0 or 7 to 15. -/
  | reservedOpcode
  /-- `OPC` is that of an operation, and `AT` or `IMM8` is not zero where its format requires zero. -/
  | fieldNotZero
deriving DecidableEq, Repr

/-- The result of decoding one command word. -/
inductive Decoded where
  | op (i : Instr)
  | illegal (r : IllegalReason)
deriving DecidableEq, Repr

/-- The codes of spec/30_encoding.md R65. -/
def AccessType.code : AccessType → BitVec 2
  | .unused => 0
  | .read => 1
  | .write => 2
  | .readWrite => 3

/-- The access type with a code; the `AT` field has two bits, so every value is one. -/
def AccessType.ofCode (c : BitVec 2) : AccessType :=
  if c = 0 then .unused else if c = 1 then .read else if c = 2 then .write else .readWrite

/-- `OPC`, bits 3:0 of a command word (spec/30_encoding.md R60). -/
def opcField (w : Word) : BitVec 4 := w.extractLsb' 0 4

/-- `AT`, bits 5:4 of a command word (spec/30_encoding.md R60). -/
def atField (w : Word) : BitVec 2 := w.extractLsb' 4 2

/-- `MBZ`, bits 7:6 of a command word (spec/30_encoding.md R60). -/
def mbzField (w : Word) : BitVec 2 := w.extractLsb' 6 2

/-- `IMM8`, bits 15:8 of a command word (spec/30_encoding.md R60). -/
def immField (w : Word) : Byte := w.extractLsb' 8 8

/-- The decoder, its cases in the order of spec/30_encoding.md R61. -/
def decode (w : Word) : Decoded :=
  if mbzField w ≠ 0 then .illegal .mbzNotZero
  else if opcField w = 1 ∧ atField w = 0 ∧ immField w = 0 then .op .init
  else if opcField w = 2 ∧ atField w = 0 ∧ immField w = 0 then .op .crcclr
  else if opcField w = 3 ∧ atField w = 0 then .op (.crcfold (immField w))
  else if opcField w = 4 ∧ immField w = 0 then .op (.build (.ofCode (atField w)))
  else if opcField w = 5 ∧ atField w = 0 ∧ immField w = 0 then .op .parse
  else if opcField w = 6 ∧ atField w = 0 ∧ immField w = 0 then .op .pchk
  else if opcField w = 0 ∨ 7 ≤ (opcField w).toNat then .illegal .reservedOpcode
  else .illegal .fieldNotZero

/-- The command word with the given `IMM8`, `AT` and `OPC`, and `MBZ` = 0 (spec/30_encoding.md R60). -/
def commandWord (imm : Byte) (ty : BitVec 2) (opc : BitVec 4) : Word :=
  imm ++ (0#2 ++ (ty ++ opc))

/-- The command word of an operation (spec/30_encoding.md R70, R75). -/
def encode : Instr → Word
  | .init => commandWord 0 0 1
  | .crcclr => commandWord 0 0 2
  | .crcfold b => commandWord b 0 3
  | .build ty => commandWord 0 ty.code 4
  | .parse => commandWord 0 0 5
  | .pchk => commandWord 0 0 6

/-- What the decoder reads from an instruction of the opcode table given as a number: a command word has 16 bits, and the bits above `nbits` are zero. -/
def decodeTableWord (nbits w : Nat) : Option Instr :=
  match decode (BitVec.ofNat 16 (w % 2 ^ nbits)) with
  | .op i => some i
  | .illegal _ => none

end Sys2Proof
end

