-- ==== Sys2Proof/Machine/State.lean ====
section
/-! DEFINITION. The state of the block, plain data: everything spec/10_state.md R10 lists, and three fields of the model's own (`pending`, `reply`, `resets`). Reset values: spec/10_state.md R39. -/

namespace Sys2Proof.Machine

/-- A buffer's written elements, as (index, value) pairs: indexes strictly rising, and no entry for an element nothing has written since reset. An unlisted element has no value here; what a read of it gives is a free value (log 3, log 12). `Memory 8` is a list of `Host.Cell`. -/
abbrev Memory (width : Nat) := List (Nat × BitVec width)

/-- What a host read returns: a register or table element, or a byte (spec/20_memory.md R41, R43). -/
inductive Reply where
  | word (v : Word)
  | byte (v : Byte)
deriving DecidableEq, Repr

/-- The machine has no fault, so this type has no value. Everything the spec calls an error is a result code in a next state (spec/60_exceptions.md R179(a)); a read of a never-written element is a free draw, not a fault (R179(c), log 3); the block is never stuck (R179(d)); see log 10. -/
inductive Fault where
deriving DecidableEq, Repr

/-- Why an access has no meaning. -/
inductive Refusal where
  /-- An operation of the opcode table without a meaning, by its mnemonic. No arm of `exec` raises it: every operation has its meaning. Safe. -/
  | notModelled (mnemonic : String)
  /-- Raised by a host access to register `n` ≥ 20 (spec/20_memory.md R45). Safe: the spec gives it no meaning. -/
  | noSuchRegister (n : Nat)
  /-- Raised by a host access to `TBL[i]` with `i` ≥ 256 (spec/20_memory.md R45). Safe: the spec gives it no meaning. -/
  | noSuchEntry (i : Nat)
  /-- Raised by a host access to a byte buffer at an index outside it (spec/20_memory.md R45). Safe: the spec gives it no meaning. -/
  | noSuchByte (sp : ByteSpace) (i : Nat)
deriving DecidableEq, Repr

/-- The whole state. -/
structure State where
  /-- CMD, register 0 (spec/10_state.md R13). -/
  cmd : Word
  /-- STATUS, register 1: ERR 3:0, SESSION 4 (R14). -/
  status : Word
  /-- POLY, register 2 (R15). -/
  poly : Word
  /-- ADDR, register 3: 7:0 (R16). -/
  addr : Word
  /-- DEST, register 4: 7:0 (R17). -/
  dest : Word
  /-- SEQ, register 5: 3:0 (R18). -/
  seq : Word
  /-- ACC, register 6 (R19). -/
  acc : Word
  /-- INDEX, register 7: 7:0 (R20). -/
  index : Word
  /-- OFFSET, register 8: 7:0 (R20). -/
  offset : Word
  /-- RLEN, register 9: 8:0 (R21). -/
  rlen : Word
  /-- PLEN, register 10: 8:0 (R22). -/
  plen : Word
  /-- TRAILER, register 11 (R23). -/
  trailer : Word
  /-- TXLEN, register 12: 9:0 (R24). -/
  txlen : Word
  /-- HCSUM, register 13 (R25). -/
  hcsum : Word
  /-- PCSUM, register 14 (R26). -/
  pcsum : Word
  /-- RHDR_A, register 15: START 15:8, RADDR 7:0 (R27). -/
  rhdrA : Word
  /-- RHDR_C, register 16: RRSV 15:14, RSEQ 13:10, RAT 9:8, RAW 7:0 (R28). -/
  rhdrC : Word
  /-- RHDR_S, register 17: STATUS1 15:8, STATUS2 7:0 (R29). -/
  rhdrS : Word
  /-- RHDR_L, register 18: WORDS 7:0 (R30). -/
  rhdrL : Word
  /-- RHDR_K, register 19 (R31). -/
  rhdrK : Word
  /-- `TBL`, 256 elements of 16 bits (R33). -/
  tbl : List (Nat × Word)
  /-- `PAY`, 512 bytes (R34). -/
  pay : List Host.Cell
  /-- `TX`, 521 bytes (R35). -/
  tx : List Host.Cell
  /-- `RX`, 8 bytes (R36). -/
  rx : List Host.Cell
  /-- The model's own: the host events still to come, oldest first (log 1). -/
  pending : List HostEvent
  /-- The model's own: what the most recent host access returned; a write and a reset return nothing (log 2). -/
  reply : Option Reply
  /-- The model's own: the number of hard resets so far, which the free values of unwritten elements depend on (log 4). -/
  resets : Nat
deriving DecidableEq, Repr

/-- The machine right after reset (spec/10_state.md R39): every register 0x0000 but POLY = 0x1021, nothing written in any buffer. -/
def State.reset : State where
  cmd := 0x0000
  status := 0x0000
  poly := 0x1021
  addr := 0x0000
  dest := 0x0000
  seq := 0x0000
  acc := 0x0000
  index := 0x0000
  offset := 0x0000
  rlen := 0x0000
  plen := 0x0000
  trailer := 0x0000
  txlen := 0x0000
  hcsum := 0x0000
  pcsum := 0x0000
  rhdrA := 0x0000
  rhdrC := 0x0000
  rhdrS := 0x0000
  rhdrL := 0x0000
  rhdrK := 0x0000
  tbl := []
  pay := []
  tx := []
  rx := []
  pending := []
  reply := none
  resets := 0

end Sys2Proof.Machine
end

