-- ==== Sys2Proof/Machine/Flags.lean ====
section
/-! DEFINITION. The only flags of the block: `STATUS.ERR` and `STATUS.SESSION` (spec/10_state.md R14, R38), and the result codes ERR holds (spec/60_exceptions.md R170). -/

namespace Sys2Proof.Machine

/-- The result codes of spec/60_exceptions.md R170. The block itself produces `ok`, `invalidAccessType`, `headerChecksumMismatch`, `payloadChecksumMismatch`, `illegalCommand` and `noSession`; the others belong to the firmware, which shares the numbering. -/
inductive ResultCode where
  | ok | invalidAccessType | writeShortfall | readTimeout | headerChecksumMismatch | payloadChecksumMismatch
  | responseIncomplete | responseInvalidCommand | responseNoAccess | responseFrameError | responseUnknownStatus
  | payloadBufferOverflow | illegalCommand | noSession
deriving DecidableEq, Repr

/-- The numbers of spec/60_exceptions.md R170. -/
def ResultCode.code : ResultCode → BitVec 4
  | .ok => 0
  | .invalidAccessType => 1
  | .writeShortfall => 2
  | .readTimeout => 3
  | .headerChecksumMismatch => 4
  | .payloadChecksumMismatch => 5
  | .responseIncomplete => 6
  | .responseInvalidCommand => 7
  | .responseNoAccess => 8
  | .responseFrameError => 9
  | .responseUnknownStatus => 10
  | .payloadBufferOverflow => 11
  | .illegalCommand => 12
  | .noSession => 13

/-- `STATUS.ERR`, bits 3:0. -/
def errField (status : Word) : BitVec 4 := status.extractLsb' 0 4

/-- `STATUS.SESSION`, bit 4. -/
def sessionBit (status : Word) : Bool := status.getLsbD 4

/-- STATUS with ERR replaced and every other bit as it was. -/
def setErr (status : Word) (code : BitVec 4) : Word :=
  (status &&& 0xFFF0#16) ||| code.zeroExtend 16

/-- STATUS with SESSION = 1 and every other bit as it was. -/
def setSession (status : Word) : Word := status ||| 0x0010#16

end Sys2Proof.Machine
end

