-- ==== Sys2Proof/Machine/Ops.lean ====
section
/-! DEFINITION. The shared operations: byte order, the register file, the buffers, the checksum engine, and the end of an operation (`finish`). -/

namespace Sys2Proof.Machine

/-! ### Byte order of a 16-bit value (spec/20_memory.md R46, spec/30_encoding.md R68) -/

/-- `v[15:8]`, the byte that comes first. -/
def hiByte (v : Word) : Byte := v.extractLsb' 8 8

/-- `v[7:0]`, the byte that comes second. -/
def loByte (v : Word) : Byte := v.extractLsb' 0 8

/-- The value whose first byte is `hi` and whose second is `lo`: hi × 256 + lo. -/
def joinBytes (hi lo : Byte) : Word := hi ++ lo

/-- A 16-bit checksum field as its two bytes, big-endian. -/
def bigEndian (v : Word) : List Byte := [hiByte v, loByte v]

/-! ### The register file (spec/10_state.md section 2) -/

/-- The host's rights on a register (spec/10_state.md R11). -/
inductive RegAccess where
  | rw
  | ro
  | wt
deriving DecidableEq, Repr

/-- The number of each register (table of spec/10_state.md section 2). -/
def regNumber : Reg → Nat
  | .cmd => 0 | .status => 1 | .poly => 2 | .addr => 3 | .dest => 4
  | .seq => 5 | .acc => 6 | .index => 7 | .offset => 8 | .rlen => 9
  | .plen => 10 | .trailer => 11 | .txlen => 12 | .hcsum => 13 | .pcsum => 14
  | .rhdrA => 15 | .rhdrC => 16 | .rhdrS => 17 | .rhdrL => 18 | .rhdrK => 19

/-- The register with a number; none from 20 on (spec/20_memory.md R45). -/
def regOfNumber : Nat → Option Reg
  | 0 => some .cmd | 1 => some .status | 2 => some .poly | 3 => some .addr | 4 => some .dest
  | 5 => some .seq | 6 => some .acc | 7 => some .index | 8 => some .offset | 9 => some .rlen
  | 10 => some .plen | 11 => some .trailer | 12 => some .txlen | 13 => some .hcsum | 14 => some .pcsum
  | 15 => some .rhdrA | 16 => some .rhdrC | 17 => some .rhdrS | 18 => some .rhdrL | 19 => some .rhdrK
  | _ => none

/-- Each register's defined bits; the others are hardwired to zero (spec/10_state.md R11 and the table of section 2). For an RW register it is the write mask. -/
def regMask : Reg → Word
  | .status => 0x001F
  | .addr | .dest | .index | .offset | .rhdrL => 0x00FF
  | .seq => 0x000F
  | .rlen | .plen => 0x01FF
  | .txlen => 0x03FF
  | .cmd | .poly | .acc | .trailer | .hcsum | .pcsum | .rhdrA | .rhdrC | .rhdrS | .rhdrK => 0xFFFF

/-- Each register's access right (table of spec/10_state.md section 2). -/
def regAccess : Reg → RegAccess
  | .cmd => .wt
  | .poly | .addr | .index | .offset | .rlen | .plen | .trailer => .rw
  | .status | .dest | .seq | .acc | .txlen | .hcsum | .pcsum | .rhdrA | .rhdrC | .rhdrS | .rhdrL | .rhdrK => .ro

/-- `REG.NAME`: the block's own read of a register (spec/00_scope.md R8). -/
def State.reg (s : State) : Reg → Word
  | .cmd => s.cmd | .status => s.status | .poly => s.poly | .addr => s.addr | .dest => s.dest
  | .seq => s.seq | .acc => s.acc | .index => s.index | .offset => s.offset | .rlen => s.rlen
  | .plen => s.plen | .trailer => s.trailer | .txlen => s.txlen | .hcsum => s.hcsum | .pcsum => s.pcsum
  | .rhdrA => s.rhdrA | .rhdrC => s.rhdrC | .rhdrS => s.rhdrS | .rhdrL => s.rhdrL | .rhdrK => s.rhdrK

/-- `REG.NAME <- v`: the block's own write of a register, which no access right limits (spec/00_scope.md R8). -/
def State.setReg (s : State) (r : Reg) (v : Word) : State :=
  match r with
  | .cmd => { s with cmd := v }
  | .status => { s with status := v }
  | .poly => { s with poly := v }
  | .addr => { s with addr := v }
  | .dest => { s with dest := v }
  | .seq => { s with seq := v }
  | .acc => { s with acc := v }
  | .index => { s with index := v }
  | .offset => { s with offset := v }
  | .rlen => { s with rlen := v }
  | .plen => { s with plen := v }
  | .trailer => { s with trailer := v }
  | .txlen => { s with txlen := v }
  | .hcsum => { s with hcsum := v }
  | .pcsum => { s with pcsum := v }
  | .rhdrA => { s with rhdrA := v }
  | .rhdrC => { s with rhdrC := v }
  | .rhdrS => { s with rhdrS := v }
  | .rhdrL => { s with rhdrL := v }
  | .rhdrK => { s with rhdrK := v }

/-- `TBL` replaced. -/
def State.setTbl (s : State) (m : Memory 16) : State := { s with tbl := m }

/-- The host events still to come replaced. -/
def State.setPending (s : State) (es : List HostEvent) : State := { s with pending := es }

/-- What the host port returned replaced. -/
def State.setReply (s : State) (x : Option Reply) : State := { s with reply := x }

/-- The value a host read of a register returns: hardwired-zero bits read 0 (spec/20_memory.md R41; log 7). -/
def State.hostReg (s : State) (r : Reg) : Word := s.reg r &&& regMask r

/-- What a host write of a register other than CMD does: an RW register stores the value under its write mask, an RO register ignores it (spec/20_memory.md R42). -/
def State.hostSetReg (s : State) (r : Reg) (v : Word) : State :=
  match regAccess r with
  | .rw => s.setReg r (v &&& regMask r)
  | .ro => s
  | .wt => s

/-! ### Buffers (spec/10_state.md section 3; log 12) -/

/-- The written value of an element, none where nothing has been written. -/
def Memory.read? {width : Nat} : Memory width → Nat → Option (BitVec width)
  | [], _ => none
  | (k, v) :: m, i => if k = i then some v else Memory.read? m i

/-- One element replaced, in the canonical form. -/
def Memory.write {width : Nat} : Memory width → Nat → BitVec width → Memory width
  | [], i, v => [(i, v)]
  | (k, x) :: m, i, v =>
    if i < k then (i, v) :: (k, x) :: m
    else if k = i then (i, v) :: m
    else (k, x) :: Memory.write m i v

/-- The elements from `i` on replaced by the given values, in order. -/
def Memory.writeList {width : Nat} : Memory width → Nat → List (BitVec width) → Memory width
  | m, _, [] => m
  | m, i, v :: vs => Memory.writeList (Memory.write m i v) (i + 1) vs

/-- Every index is at least `lo`, and they rise strictly. -/
def Memory.risingFrom {width : Nat} : Nat → Memory width → Bool
  | _, [] => true
  | lo, (k, _) :: m => decide (lo ≤ k) && Memory.risingFrom (k + 1) m

/-- The canonical form: indexes strictly rising. An unlisted element has no value, so no entry can equal what an unlisted element reads as. -/
def Memory.wf {width : Nat} (m : Memory width) : Bool := Memory.risingFrom 0 m

/-- Every listed index is below `size`. -/
def Memory.within {width : Nat} (size : Nat) (m : Memory width) : Bool :=
  m.all fun c => decide (c.1 < size)

/-- A byte buffer of the state. -/
def State.bytes (s : State) : ByteSpace → Memory 8
  | .pay => s.pay
  | .tx => s.tx
  | .rx => s.rx

/-- A byte buffer replaced. -/
def State.setBytes (s : State) (sp : ByteSpace) (m : Memory 8) : State :=
  match sp with
  | .pay => { s with pay := m }
  | .tx => { s with tx := m }
  | .rx => { s with rx := m }

/-- The free value of a byte nothing has written since the last reset (spec/10_state.md R39; log 3). -/
def unwrittenByte : ByteSpace → Nat → Nat → Byte
  | .pay => Config.unwrittenPay
  | .tx => Config.unwrittenTx
  | .rx => Config.unwrittenRx

/-- `PAY[i]`, `TX[i]`, `RX[i]`: the byte, or the free value where nothing has been written (spec/00_scope.md R8, spec/20_memory.md R43). -/
def State.byteAt (s : State) (sp : ByteSpace) (i : Nat) : Byte :=
  ((s.bytes sp).read? i).getD (unwrittenByte sp s.resets i)

/-- `TBL[i]`: the element, or the free value where nothing has been written (spec/10_state.md R33). -/
def State.tblAt (s : State) (i : Nat) : Word :=
  (Memory.read? s.tbl i).getD (Config.unwrittenTbl s.resets i)

/-- `X[first], …, X[first + count - 1]` (spec/00_scope.md R8). -/
def State.bytesFrom (s : State) (sp : ByteSpace) (first count : Nat) : List Byte :=
  (List.range count).map fun k => s.byteAt sp (first + k)

/-! ### The checksum engine (spec/40_checksum.md) -/

/-- One iteration of the shift register of spec/40_checksum.md R90, on (acc, data). -/
def shiftRound (p : Word) (x : Word × Word) : Word × Word :=
  (if (x.2 ^^^ x.1) &&& 0x8000#16 ≠ 0#16 then (x.1 <<< 1) ^^^ p else x.1 <<< 1, x.2 <<< 1)

/-- That many iterations of the shift register. -/
def shiftRounds (p : Word) : Nat → Word × Word → Word × Word
  | 0, x => x
  | n + 1, x => shiftRounds p n (shiftRound p x)

/-- The shift register run for one byte: 8 iterations from the accumulator `acc`, the byte in the top 8 bits of the data register (spec/40_checksum.md R90, R94). -/
def serialFold (p acc : Word) (b : Byte) : Word :=
  (shiftRounds p 8 (acc, b.zeroExtend 16 <<< 8)).1

/-- Entry `b` of the table: the shift register from a zero accumulator (spec/40_checksum.md R90). -/
def buildEntry (p : Word) (b : Byte) : Word := serialFold p 0 b

/-- `BuildTable(p)`, as the contents of `TBL` (spec/40_checksum.md R90). -/
def buildTable (p : Word) : Memory 16 :=
  (List.range Config.tblSize).map fun i => (i, buildEntry p (BitVec.ofNat 8 i))

/-- `FoldByte(acc, b, T)` (spec/40_checksum.md R92). -/
def foldByte (table : Byte → Word) (acc : Word) (b : Byte) : Word :=
  (acc <<< 8) ^^^ table (hiByte acc ^^^ b)

/-- `FoldBytes(acc, bytes, T)`, first byte first (spec/40_checksum.md R93). -/
def foldBytes (table : Byte → Word) : Word → List Byte → Word
  | acc, [] => acc
  | acc, b :: rest => foldBytes table (foldByte table acc b) rest

/-- The state's table, indexed by byte value (spec/10_state.md R33). -/
def State.table (s : State) (b : Byte) : Word := s.tblAt b.toNat

/-- The checksum of a byte sequence: a fresh zero accumulator (spec/40_checksum.md R93, spec/10_state.md R37). -/
def State.checksum (s : State) (bytes : List Byte) : Word := foldBytes s.table 0 bytes

/-! ### The end of an operation (spec/60_exceptions.md R171, R173) -/

/-- `finish(code)`: ERR is replaced and nothing else; there is nothing to save and nowhere to go, so this is the whole of taking an error, and there is no return from one (spec/60_exceptions.md R173, R175). -/
def finish (c : ResultCode) (s : State) : State :=
  s.setReg .status (setErr (s.reg .status) c.code)

/-- A session exists (spec/10_state.md R14). -/
def State.hasSession (s : State) : Bool := sessionBit (s.reg .status)

/-- The session check that begins every operation but INIT: without a session ERR becomes NoSession and nothing else happens (spec/60_exceptions.md R171). -/
def withSession (s : State) (op : State → State) : State :=
  if s.hasSession then op s else finish .noSession s

end Sys2Proof.Machine
end

