-- ==== Sys2Proof/Machine/Operands.lean ====
section
/-! DEFINITION. The operands of the operations and the fields of the frames: lengths, word counts, payload, header bytes, the control byte and the response header (spec/30_encoding.md section 2, spec/41_framer.md R110, spec/42_parser.md R126, R130). -/

namespace Sys2Proof.Machine

/-- `REG.PLEN`, a 9-bit length (spec/10_state.md R22). -/
def State.payloadLen (s : State) : Nat := ((s.reg .plen).extractLsb' 0 9).toNat

/-- `LEN[8:1]`: half a length, floored (spec/30_encoding.md R67). -/
def halfLen (len : Word) : Byte := len.extractLsb' 1 8

/-- `payloadLenWords` of a command: from RLEN for a read, from PLEN otherwise (spec/30_encoding.md R67). -/
def State.wordCount (s : State) (ty : AccessType) : Byte :=
  match ty with
  | .read => halfLen (s.reg .rlen)
  | .unused | .write | .readWrite => halfLen (s.reg .plen)

/-- `PAY[0..PLEN-1]` (spec/41_framer.md R110, spec/42_parser.md R130). -/
def State.payload (s : State) : List Byte := s.bytesFrom .pay 0 s.payloadLen

/-- `START_MARKER` as the block sends it (spec/30_encoding.md R62). -/
def startMarker : Byte := Config.startMarker

/-- `REG.SEQ`, 4 bits (spec/10_state.md R18). -/
def State.seqField (s : State) : BitVec 4 := (s.reg .seq).extractLsb' 0 4

/-- SEQ advanced: (SEQ + 1) mod 16 (spec/41_framer.md R111). -/
def State.advanceSeq (s : State) : State :=
  s.setReg .seq ((s.seqField + 1).zeroExtend 16)

/-! ### The control byte (spec/30_encoding.md R64; log 6) -/

/-- The control byte with reserved bits 0. -/
def controlByte (layout : CtrlLayout) (seq : BitVec 4) (ty : BitVec 2) : Byte :=
  match layout with
  | .accessLow => 0#2 ++ (seq ++ ty)
  | .accessHigh => ty ++ (seq ++ 0#2)

/-- accessType of a control byte. -/
def controlAccess (layout : CtrlLayout) (c : Byte) : BitVec 2 :=
  match layout with
  | .accessLow => c.extractLsb' 0 2
  | .accessHigh => c.extractLsb' 6 2

/-- sequence of a control byte. -/
def controlSeq (layout : CtrlLayout) (c : Byte) : BitVec 4 :=
  match layout with
  | .accessLow => c.extractLsb' 2 4
  | .accessHigh => c.extractLsb' 2 4

/-- reserved bits of a control byte. -/
def controlReserved (layout : CtrlLayout) (c : Byte) : BitVec 2 :=
  match layout with
  | .accessLow => c.extractLsb' 6 2
  | .accessHigh => c.extractLsb' 0 2

/-- `RHDR_C` of a received control byte: RRSV 15:14, RSEQ 13:10, RAT 9:8, RAW 7:0 (spec/10_state.md R28, spec/42_parser.md R126). -/
def splitControl (layout : CtrlLayout) (c : Byte) : Word :=
  controlReserved layout c ++ (controlSeq layout c ++ (controlAccess layout c ++ c))

/-! ### Headers -/

/-- Bytes 0 to 5 of a command header, the bytes its checksum covers (spec/30_encoding.md R62, R69). -/
def headerFields (marker : Byte) (layout : CtrlLayout) (dest : Byte) (seq : BitVec 4) (ty : BitVec 2) (index offset words : Byte) : List Byte :=
  [marker, dest, controlByte layout seq ty, index, offset, words]

/-- The header fields BUILD takes from the state, after SEQ has advanced (spec/41_framer.md R112). -/
def State.commandHeader (s : State) (ty : AccessType) : List Byte :=
  headerFields startMarker Config.ctrlLayout (loByte (s.reg .dest)) s.seqField ty.code
    (loByte (s.reg .index)) (loByte (s.reg .offset)) (s.wordCount ty)

/-- `RX[0..5]`, the bytes a response header's checksum covers (spec/42_parser.md R126). -/
def State.responseHeader (s : State) : List Byte := s.bytesFrom .rx 0 6

end Sys2Proof.Machine
end

