-- ==== Sys2Proof/Machine/Checksum.lean ====
section
/-! DEFINITION. The operations of the checksum engine: INIT, CRCCLR, CRCFOLD (spec/40_checksum.md section 2). -/

namespace Sys2Proof.Machine

/-- The session INIT creates (spec/40_checksum.md R96). -/
def createSession (s : State) : State :=
  let t := s.setTbl (buildTable (s.reg .poly))
  let t := t.setReg .dest ((loByte (s.reg .addr)).zeroExtend 16)
  let t := (t.setReg .seq 0).setReg .acc 0
  t.setReg .status (setSession (t.reg .status))

/-- INIT (spec/40_checksum.md R96). -/
def execInit (s : State) : Host.Outcome State Fault Refusal :=
  .next (finish .ok (createSession s))

/-- CRCCLR (spec/40_checksum.md R97). -/
def execCrcclr (s : State) : Host.Outcome State Fault Refusal :=
  .next (withSession s fun s => finish .ok (s.setReg .acc 0))

/-- CRCFOLD #b (spec/40_checksum.md R98). -/
def execCrcfold (b : Byte) (s : State) : Host.Outcome State Fault Refusal :=
  .next (withSession s fun s => finish .ok (s.setReg .acc (foldByte s.table (s.reg .acc) b)))

end Sys2Proof.Machine
end

