-- ==== Sys2Proof/Machine/Framer.lean ====
section
/-! DEFINITION. The packet framer: BUILD (spec/41_framer.md). -/

namespace Sys2Proof.Machine

/-- The header written to `TX[0..7]`, its checksum to HCSUM (spec/41_framer.md R112, spec/30_encoding.md R62, R69). -/
def buildHeader (ty : AccessType) (s : State) : State :=
  let h := s.commandHeader ty
  let c := s.checksum h
  (s.setBytes .tx (Memory.writeList (s.bytes .tx) 0 (h ++ bigEndian c))).setReg .hcsum c

/-- The payload part: with PLEN ≠ 0 the payload, its checksum, PCSUM and TXLEN = 10 + PLEN; with PLEN = 0 only TXLEN = 8 (spec/41_framer.md R112, R115). -/
def buildPayload (s : State) : State :=
  if s.payloadLen ≠ 0 then
    let p := s.checksum s.payload
    let t := s.setBytes .tx (Memory.writeList (s.bytes .tx) 8 (s.payload ++ bigEndian p))
    (t.setReg .pcsum p).setReg .txlen (BitVec.ofNat 16 (10 + s.payloadLen))
  else s.setReg .txlen 8

/-- BUILD at (spec/41_framer.md R111, R112, R113): SEQ advances first; access type 0 is then rejected. -/
def execBuild (ty : AccessType) (s : State) : Host.Outcome State Fault Refusal :=
  .next (withSession s fun s =>
    match ty with
    | .unused => finish .invalidAccessType s.advanceSeq
    | .read | .write | .readWrite => finish .ok (buildPayload (buildHeader ty s.advanceSeq)))

end Sys2Proof.Machine
end

