-- ==== Sys2Proof/Machine/Parser.lean ====
section
/-! DEFINITION. The response parser: PARSE and PCHK (spec/42_parser.md). -/

namespace Sys2Proof.Machine

/-- The fields of the header in `RX`, and the recomputed header checksum, in the result registers (spec/42_parser.md R126). -/
def extractHeader (s : State) : State :=
  let x := s.byteAt .rx
  let t := s.setReg .rhdrA (joinBytes (x 0) (x 1))
  let t := t.setReg .rhdrC (splitControl Config.ctrlLayout (x 2))
  let t := t.setReg .rhdrS (joinBytes (x 3) (x 4))
  let t := t.setReg .rhdrL ((x 5).zeroExtend 16)
  let t := t.setReg .rhdrK (joinBytes (x 6) (x 7))
  t.setReg .hcsum (s.checksum s.responseHeader)

/-- PARSE (spec/42_parser.md R126). -/
def execParse (s : State) : Host.Outcome State Fault Refusal :=
  .next (withSession s fun s =>
    let t := extractHeader s
    if t.reg .hcsum ≠ t.reg .rhdrK then finish .headerChecksumMismatch t else finish .ok t)

/-- PCHK (spec/42_parser.md R131). -/
def execPchk (s : State) : Host.Outcome State Fault Refusal :=
  .next (withSession s fun s =>
    let p := s.checksum s.payload
    let t := s.setReg .pcsum p
    if p ≠ s.reg .trailer then finish .payloadChecksumMismatch t else finish .ok t)

end Sys2Proof.Machine
end

