-- ==== Sys2Proof/Machine/Dispatch.lean ====
section
/-! DEFINITION. One arm per operation (spec/30_encoding.md R70). -/

namespace Sys2Proof.Machine

def exec (i : Instr) (s : State) : Host.Outcome State Fault Refusal :=
  match i with
  | .init => Sys2Proof.Machine.execInit s
  | .crcclr => Sys2Proof.Machine.execCrcclr s
  | .crcfold b => Sys2Proof.Machine.execCrcfold b s
  | .build ty => Sys2Proof.Machine.execBuild ty s
  | .parse => Sys2Proof.Machine.execParse s
  | .pchk => Sys2Proof.Machine.execPchk s

end Sys2Proof.Machine
end

