-- ==== Sys2Proof/Machine/HostPort.lean ====
section
/-! DEFINITION. The host port: what each host access and the hard reset do (spec/20_memory.md R41 to R45, spec/10_state.md R13, spec/70_reset_and_hazards.md R195). -/

namespace Sys2Proof.Machine

/-- A command word in CMD, then the operation it encodes, to its end (spec/10_state.md R13); an Illegal word changes ERR to 12 and nothing else (spec/60_exceptions.md R172; log 14). -/
def runCommand (w : Word) (s : State) : Host.Outcome State Fault Refusal :=
  match decode w with
  | .op i => exec i (s.setReg .cmd w)
  | .illegal _ => .next (finish .illegalCommand (s.setReg .cmd w))

/-- `RegRead(n)` (spec/20_memory.md R41, R45). -/
def hostRegRead (n : Nat) (s : State) : Host.Outcome State Fault Refusal :=
  match regOfNumber n with
  | some r => .next (s.setReply (some (.word (s.hostReg r))))
  | none => .refused (.noSuchRegister n)

/-- `RegWrite(n, v)` (spec/20_memory.md R42, R45). -/
def hostRegWrite (n : Nat) (v : Word) (s : State) : Host.Outcome State Fault Refusal :=
  match regOfNumber n with
  | some r => if r = .cmd then runCommand v s else .next (s.hostSetReg r v)
  | none => .refused (.noSuchRegister n)

/-- `BufRead(TBL, i)` (spec/20_memory.md R43, R45). -/
def hostTblRead (i : Nat) (s : State) : Host.Outcome State Fault Refusal :=
  if i < Config.tblSize then .next (s.setReply (some (.word (s.tblAt i))))
  else .refused (.noSuchEntry i)

/-- `BufWrite(TBL, i, v)`: read only to the host, so nothing happens (spec/20_memory.md R44, R45). -/
def hostTblWrite (i : Nat) (_v : Word) (s : State) : Host.Outcome State Fault Refusal :=
  if i < Config.tblSize then .next s else .refused (.noSuchEntry i)

/-- `BufRead` of a byte buffer (spec/20_memory.md R43, R45). -/
def hostByteRead (sp : ByteSpace) (i : Nat) (s : State) : Host.Outcome State Fault Refusal :=
  if i < sp.size then .next (s.setReply (some (.byte (s.byteAt sp i))))
  else .refused (.noSuchByte sp i)

/-- Whether the host may write a byte buffer (spec/20_memory.md R40). -/
def hostWritable : ByteSpace → Bool
  | .pay => true
  | .tx => false
  | .rx => true

/-- `BufWrite` of a byte buffer: PAY and RX store the byte, TX ignores it (spec/20_memory.md R44, R45). -/
def hostByteWrite (sp : ByteSpace) (i : Nat) (v : Byte) (s : State) : Host.Outcome State Fault Refusal :=
  if i < sp.size then
    .next (if hostWritable sp then s.setBytes sp (Memory.write (s.bytes sp) i v) else s)
  else .refused (.noSuchByte sp i)

/-- The hard reset: the state of spec/10_state.md R39, with unwritten elements drawn anew; the host's coming accesses are not the block's and stay (spec/70_reset_and_hazards.md R195, R196; log 8). -/
def hardReset (s : State) : State :=
  { State.reset with pending := s.pending, resets := s.resets + 1 }

/-- One host event. A write returns nothing, so `reply` is none after it (log 2). -/
def access (e : HostEvent) (s : State) : Host.Outcome State Fault Refusal :=
  match e with
  | .regRead n => hostRegRead n s
  | .regWrite n v => hostRegWrite n v (s.setReply none)
  | .tblRead i => hostTblRead i s
  | .tblWrite i v => hostTblWrite i v (s.setReply none)
  | .byteRead sp i => hostByteRead sp i s
  | .byteWrite sp i v => hostByteWrite sp i v (s.setReply none)
  | .hardReset => .next (hardReset s)

/-- An outcome carried on: what comes next happens only after a next state. -/
def andThen {α β : Type} (o : Host.Outcome α Fault Refusal) (k : α → Host.Outcome β Fault Refusal) : Host.Outcome β Fault Refusal :=
  match o with
  | .next a => k a
  | .fault r => .fault r
  | .refused r => .refused r

/-- A sequence of host events, one after the other, each wholly (spec/20_memory.md R53). -/
def runEvents : List HostEvent → State → Host.Outcome State Fault Refusal
  | [], s => .next s
  | e :: rest, s => andThen (access e s) (runEvents rest)

end Sys2Proof.Machine
end

