-- ==== Sys2Proof/Machine/Step.lean ====
section
/-! DEFINITION. One step: the oldest pending host event takes effect, wholly, in the order the host issued it (spec/20_memory.md R50, R53). There is no program counter and nothing is fetched (spec/10_state.md R12): the next instruction is the next CMD write (log 1). -/

namespace Sys2Proof.Machine

/-- One step. With no event pending the block does nothing: nothing executes until the host writes CMD (spec/70_reset_and_hazards.md R195, R212). -/
def step (s : State) : Host.Outcome State Fault Refusal :=
  match s.pending with
  | [] => .next s
  | e :: rest => access e (s.setPending rest)

/-- The state whose very next step is the CMD write of the given command word (its bits above `nbits` zero); everything else as it was. -/
def State.withFetchWord (s : State) (nbits w : Nat) : State :=
  s.setPending (.regWrite 0 (BitVec.ofNat 16 (w % 2 ^ nbits)) :: s.pending)

end Sys2Proof.Machine
end

