-- ==== Sys2Proof/Machine/Assembler.lean ====
section
/-! DEFINITION. The assembler notation of spec/30_encoding.md R75 and R76: each line is one host access, each pseudo-instruction a sequence of them. -/

namespace Sys2Proof.Machine

/-- An operation: one `RegWrite(0, word)`. -/
def asmOp (i : Instr) : HostEvent := .regWrite 0 (encode i)

/-- `.word v`: any 16-bit word, legal or not. -/
def asmWord (v : Word) : HostEvent := .regWrite 0 v

/-- `WR name, v`. -/
def asmWR (r : Reg) (v : Word) : HostEvent := .regWrite (regNumber r) v

/-- `RD name`. -/
def asmRD (r : Reg) : HostEvent := .regRead (regNumber r)

/-- `WB space[i], v` of a byte buffer. -/
def asmWBAt (sp : ByteSpace) (i : Nat) (v : Byte) : HostEvent := .byteWrite sp i v

/-- `WB TBL[i], v`, whose elements are 16-bit. -/
def asmWBTbl (i : Nat) (v : Word) : HostEvent := .tblWrite i v

/-- `WB space[i..], b0 b1 ...`: consecutive bytes from index i, so of a byte buffer. -/
def asmWB (sp : ByteSpace) : Nat → List Byte → List HostEvent
  | _, [] => []
  | i, b :: rest => asmWBAt sp i b :: asmWB sp (i + 1) rest

/-- `RB space[i]` of a byte buffer. -/
def asmRB (sp : ByteSpace) (i : Nat) : HostEvent := .byteRead sp i

/-- `RB TBL[i]`. -/
def asmRBTbl (i : Nat) : HostEvent := .tblRead i

/-- `CRCFOLDS b0, b1, ..., bk`. -/
def asmCrcfolds (bytes : List Byte) : List HostEvent :=
  bytes.map fun b => asmOp (.crcfold b)

/-- `CRCOF b0, ..., bk`. -/
def asmCrcof (bytes : List Byte) : List HostEvent :=
  asmOp .crcclr :: asmCrcfolds bytes

/-- `CMD.READ idx, off, n`. -/
def asmCmdRead (idx off : Byte) (n : Word) : List HostEvent :=
  [asmWR .index (idx.zeroExtend 16), asmWR .offset (off.zeroExtend 16), asmWR .rlen n, asmWR .plen 0, asmOp (.build .read)]

/-- `CMD.WRITE idx, off, b0 ... b(n-1)`. -/
def asmCmdWrite (idx off : Byte) (bytes : List Byte) : List HostEvent :=
  [asmWR .index (idx.zeroExtend 16), asmWR .offset (off.zeroExtend 16)] ++ asmWB .pay 0 bytes
    ++ [asmWR .plen (BitVec.ofNat 16 bytes.length), asmOp (.build .write)]

/-- `RXHDR b0 ... b7`. -/
def asmRxhdr (bytes : List Byte) : List HostEvent :=
  asmWB .rx 0 bytes ++ [asmOp .parse]

end Sys2Proof.Machine
end

