-- ==== Sys2Proof/Machine/HostRecord.lean ====
section
/-! DEFINITION. The host's contract (spec/43_firmware_contract.md R163): what the host may do, must do and must not do, as a record of what it has done so far and a check of its next move. The block knows none of it and no definition of the block uses this file. Where R163 leaves a point open, log 21 says what is taken. -/

namespace Sys2Proof.Machine

/-- `STATUS.ERR` as the host reads it. -/
def State.err (s : State) : BitVec 4 := errField (s.hostReg .status)

/-- `TX[0..TXLEN-1]`, the frame to send (spec/43_firmware_contract.md R142). -/
def State.frame (s : State) : List Byte := s.bytesFrom .tx 0 (s.hostReg .txlen).toNat

/-- A move of the host: an access to the block, or one of the steps of its contract that the block does not see. -/
inductive HostMove where
  /-- A host access (or the hard reset, which reaches the block from outside). -/
  | access (e : HostEvent)
  /-- One write of `bytes` to the transport, which takes `written` of them (spec/43_firmware_contract.md R142). -/
  | transmit (bytes : List Byte) (written : Nat)
  /-- The written count is compared with TXLEN; a shortfall is reported as a failure (R142). -/
  | compareCount
  /-- The host acts on a field of the RHDR registers. -/
  | useHeader
  /-- The response is fully consumed or the failure reported (R160), and the caller gives the block back. -/
  | endExchange
deriving DecidableEq, Repr

/-- How far the sending of a frame has come. `Idle` and `Sent` of spec/43_firmware_contract.md R160 are `idle` and `outstanding`; between them lie the duties R163 names after a BUILD. -/
inductive SendPhase where
  | idle
  /-- BUILD has been issued and its ERR not read. -/
  | built
  /-- The host has read ERR = 0: the frame may be transmitted. -/
  | ready
  /-- The transport took this many bytes, and the count has not been compared with TXLEN. -/
  | transmitted (written : Nat)
  /-- The whole frame is out and a response is outstanding. -/
  | outstanding
deriving DecidableEq, Repr

/-- What the host knows of its own doings since the last hard reset. -/
structure HostRecord where
  /-- INIT has been issued. -/
  created : Bool
  /-- The registers it has written. -/
  operands : List Reg
  /-- The indexes of RX it has written since the most recent BUILD. -/
  header : List Nat
  /-- The most recent operation. -/
  last : Option Instr
  /-- The host has read ERR = 0 after the most recent PARSE. -/
  headerChecked : Bool
  phase : SendPhase
  /-- The caller that has the block in use, if any (spec/20_memory.md R55). -/
  holder : Option Nat
deriving DecidableEq, Repr

/-- Nothing done yet. -/
def HostRecord.initial : HostRecord := ⟨false, [], [], none, false, .idle, none⟩

/-- No other caller has the block in use. -/
def HostRecord.freeFor (r : HostRecord) (caller : Nat) : Bool :=
  decide (r.holder = none ∨ r.holder = some caller)

/-- A transmitted frame's count is still to be compared with TXLEN. -/
def SendPhase.awaitsCompare : SendPhase → Bool
  | .idle => false
  | .built => false
  | .ready => false
  | .transmitted _ => true
  | .outstanding => false

/-- `PAY[0..PLEN-1]` has been written. -/
def State.payloadWritten (s : State) : Bool :=
  (List.range s.payloadLen).all fun i => (Memory.read? (s.bytes .pay) i).isSome

/-- An access that moves data out of the block and changes nothing of it. -/
def isHostRead : HostEvent → Bool
  | .regRead _ => true
  | .regWrite _ _ => false
  | .tblRead _ => true
  | .tblWrite _ _ => false
  | .byteRead _ _ => true
  | .byteWrite _ _ _ => false
  | .hardReset => false

/-- Whether the next operation may be `i`, by the must and must-not rows on operations. A frame whose count is not yet compared keeps its exchange from ending, so no BUILD (spec/43_firmware_contract.md R160), and its shortfall is settled before anything received is checked, so no PARSE and no PCHK (the order of the steps, R159). `evenLengths` says that the frames are to satisfy the data model, whose payloads are whole words. No row asks for a write of ADDR before INIT, and none is asked for here, though R198 of spec/70_reset_and_hazards.md names one (DESIGN CHOICE, log 21). -/
def operationAllowed (evenLengths : Bool) (r : HostRecord) (i : Instr) (s : State) : Bool :=
  match i with
  | .init => true
  | .crcclr => r.created
  | .crcfold _ => r.created
  | .build ty =>
    r.created && decide (r.phase ≠ .outstanding) && !r.phase.awaitsCompare
      && decide (Reg.index ∈ r.operands ∧ Reg.offset ∈ r.operands ∧ Reg.plen ∈ r.operands)
      && decide (ty = .read → Reg.rlen ∈ r.operands) && s.payloadWritten
      && (!evenLengths || decide (s.payloadLen % 2 = 0))
  | .parse => r.created && !r.phase.awaitsCompare && (List.range 8).all fun i => decide (i ∈ r.header)
  | .pchk => r.created && !r.phase.awaitsCompare && decide (Reg.plen ∈ r.operands ∧ Reg.trailer ∈ r.operands) && s.payloadWritten

/-- Whether a write of an existing register or element is one of the host's: an RW register, PAY, RX, or an operation in CMD. -/
def writeAllowed (evenLengths : Bool) (r : HostRecord) (e : HostEvent) (s : State) : Bool :=
  match e with
  | .regRead _ => false
  | .regWrite n v =>
    match regOfNumber n with
    | none => false
    | some q =>
      match regAccess q with
      | .rw => true
      | .ro => false
      | .wt =>
        match decode v with
        | .op i => decide (r.phase ≠ .built) && operationAllowed evenLengths r i s
        | .illegal _ => false
  | .tblRead _ => false
  | .tblWrite _ _ => false
  | .byteRead _ _ => false
  | .byteWrite sp i _ => hostWritable sp && decide (i < sp.size)
  | .hardReset => false

/-- Whether the contract lets `caller` make the move `m` next (spec/43_firmware_contract.md R163; log 21). -/
def moveAllowed (evenLengths : Bool) (r : HostRecord) (caller : Nat) (m : HostMove) (s : State) : Bool :=
  match m with
  | .access .hardReset => true
  | .access e =>
    if isHostRead e then e.wf
    else r.freeFor caller && writeAllowed evenLengths r e s
  | .transmit bytes _ => r.freeFor caller && decide (r.phase = .ready) && decide (bytes = s.frame)
  | .compareCount => r.freeFor caller && r.phase.awaitsCompare
  | .useHeader => r.freeFor caller && r.headerChecked
  | .endExchange => r.freeFor caller && !r.phase.awaitsCompare && decide (r.phase ≠ .built)

/-- The record after the host has read STATUS and found `err`. -/
def HostRecord.statusRead (r : HostRecord) (err : BitVec 4) : HostRecord :=
  { r with
    phase := if r.phase = .built then (if err = 0 then .ready else .idle) else r.phase
    headerChecked := r.headerChecked || (decide (r.last = some .parse) && decide (err = 0)) }

/-- The record after the operation `i` has been issued. -/
def HostRecord.issued (r : HostRecord) (i : Instr) : HostRecord :=
  match i with
  | .init => { r with created := true, last := some .init }
  | .crcclr => { r with last := some .crcclr }
  | .crcfold b => { r with last := some (.crcfold b) }
  | .build ty => { r with last := some (.build ty), phase := .built, header := [] }
  | .parse => { r with last := some .parse, headerChecked := false }
  | .pchk => { r with last := some .pchk }

/-- The record after an access, made on the state `s`. -/
def HostRecord.accessed (r : HostRecord) (caller : Nat) (e : HostEvent) (s : State) : HostRecord :=
  match e with
  | .regRead n => if regOfNumber n = some .status && r.freeFor caller then r.statusRead s.err else r
  | .regWrite n v =>
    match regOfNumber n with
    | none => r
    | some .cmd =>
      match decode v with
      | .op i => { r.issued i with holder := some caller }
      | .illegal _ => { r with last := none, holder := some caller }
    | some q => { r with operands := q :: r.operands, holder := some caller }
  | .tblRead _ => r
  | .tblWrite _ _ => r
  | .byteRead _ _ => r
  | .byteWrite sp i _ =>
    { r with header := if sp = .rx then i :: r.header else r.header, holder := some caller }
  | .hardReset => HostRecord.initial

/-- The record after a move, made on the state `s`. -/
def HostRecord.after (r : HostRecord) (caller : Nat) (m : HostMove) (s : State) : HostRecord :=
  match m with
  | .access e => r.accessed caller e s
  | .transmit _ written => { r with phase := .transmitted written }
  | .compareCount =>
    match r.phase with
    | .transmitted written =>
      { r with phase := if written = (s.hostReg .txlen).toNat then .outstanding else .idle }
    | .idle | .built | .ready | .outstanding => r
  | .useHeader => r
  | .endExchange => { r with phase := .idle, holder := none }

/-- What a move does to the block: only an access reaches it. -/
def hostMove (m : HostMove) (s : State) : Host.Outcome State Fault Refusal :=
  match m with
  | .access e => access e s
  | .transmit _ _ => .next s
  | .compareCount => .next s
  | .useHeader => .next s
  | .endExchange => .next s

/-- A sequence of moves, one after the other. -/
def runMoves : List HostMove → State → Host.Outcome State Fault Refusal
  | [], s => .next s
  | m :: rest, s => andThen (hostMove m s) (runMoves rest)

/-- The record after a sequence of moves, each with its caller, from the record `r` and the state `s` on; moves after one that does not go through count for nothing. -/
def recordAfter : HostRecord → List (Nat × HostMove) → State → HostRecord
  | r, [], _ => r
  | r, (caller, m) :: rest, s =>
    match hostMove m s with
    | .next t => recordAfter (r.after caller m s) rest t
    | .fault _ => r
    | .refused _ => r

/-- Whether a sequence of moves, each with its caller, keeps the contract from the record `r` on. -/
def keepsContract (evenLengths : Bool) : HostRecord → List (Nat × HostMove) → State → Bool
  | _, [], _ => true
  | r, (caller, m) :: rest, s =>
    moveAllowed evenLengths r caller m s &&
      match hostMove m s with
      | .next t => keepsContract evenLengths (r.after caller m s) rest t
      | .fault _ => false
      | .refused _ => false

end Sys2Proof.Machine
end

