-- ==== Sys2Proof/Machine/Firmware.lean ====
section
/-! DEFINITION. The firmware side (spec/43_firmware_contract.md): what the host does around the block in one exchange. The block executes none of it (spec/00_scope.md R4) and no definition of the block uses this file. The firmware drives the block through its host accesses alone; the transport and the drive are a script of line events (log 16). -/

namespace Sys2Proof.Machine

/-- The OPEN parameters of the firmware (spec/00_scope.md R6; decisions D10, D26), taken as an argument (log 17). -/
structure FirmwareParams where
  /-- `ST_COMPLETE`. -/
  complete : Byte
  /-- `ST_INCOMPLETE`. -/
  incomplete : Byte
  /-- `ST_INVALID`. -/
  invalid : Byte
  /-- `ST_NOACCESS`. -/
  noAccess : Byte
  /-- `ST_FRAMEERR`. -/
  frameErr : Byte
  /-- `DATA_BEARING`, on the response's two access-type bits. -/
  dataBearing : BitVec 2 → Bool

/-- The five status codes are pairwise distinct (spec/00_scope.md R6). -/
def FirmwareParams.wf (p : FirmwareParams) : Bool :=
  decide [p.complete, p.incomplete, p.invalid, p.noAccess, p.frameErr].Nodup

/-- What happens on the line, one event at a time, as the firmware waits and reads (spec/43_firmware_contract.md R140, R150). -/
inductive LineEvent where
  /-- The line is readable and the next byte read is `b`. -/
  | byte (b : Byte)
  /-- A wait is interrupted by a transient signal. -/
  | interrupted
  /-- A wait exhausts the timeout. -/
  | timeout
deriving DecidableEq, Repr

/-- One request of a caller: the inputs of the source's send path (spec/41_framer.md R110). -/
structure Request where
  ty : AccessType
  index : Byte
  offset : Byte
  /-- `responseLenBytes`, in the 9 bits of RLEN. -/
  responseLen : BitVec 9
  payload : List Byte
deriving DecidableEq, Repr

/-- The payload fits the 9 bits of PLEN. -/
def Request.wf (q : Request) : Bool := decide (q.payload.length ≤ 511)

/-- How an exchange ends: the number of bytes read (spec/43_firmware_contract.md R157), or the code of the first failure (R159, spec/60_exceptions.md R170). -/
inductive Verdict where
  | total (bytesRead : Nat)
  | failed (code : BitVec 4)
deriving DecidableEq, Repr

/-- What one exchange leaves. -/
structure ExchangeEnd where
  /-- The block's state. -/
  block : State
  /-- The bytes the transport took in the one logical write (spec/43_firmware_contract.md R142). -/
  sent : List Byte
  /-- What of the line has not been read. -/
  line : List LineEvent
  /-- The payload bytes stored in the caller's buffer. -/
  buffer : List Byte
  verdict : Verdict
  /-- The moves the firmware has made, in order (spec/43_firmware_contract.md R163). -/
  moves : List HostMove
deriving DecidableEq, Repr

/-- Exactly `n` bytes, an interrupted wait retried, a timeout ending the read (spec/43_firmware_contract.md R150, R151, R158). A line on which nothing more happens is one whose wait exhausts the timeout. -/
def readExactly : Nat → List LineEvent → Option (List Byte) × List LineEvent
  | 0, line => (some [], line)
  | _ + 1, [] => (none, [])
  | _ + 1, .timeout :: line => (none, line)
  | n + 1, .interrupted :: line => readExactly (n + 1) line
  | n + 1, .byte b :: line => ((readExactly n line).1.map (b :: ·), (readExactly n line).2)

/-- What reading a payload gives: the bytes stored for the caller, the failure if there is one, the unread line. -/
structure PayloadRead where
  stored : List Byte
  failure : Option ResultCode
  line : List LineEvent
deriving DecidableEq, Repr

/-- `n` payload bytes into a buffer with room for `capacity`: a byte that does not fit is not stored and ends the read (spec/43_firmware_contract.md R155; log 18). -/
def readPayload : (n capacity : Nat) → List LineEvent → PayloadRead
  | 0, _, line => ⟨[], none, line⟩
  | _ + 1, _, [] => ⟨[], some .readTimeout, []⟩
  | _ + 1, _, .timeout :: line => ⟨[], some .readTimeout, line⟩
  | n + 1, capacity, .interrupted :: line => readPayload (n + 1) capacity line
  | _ + 1, 0, .byte _ :: line => ⟨[], some .payloadBufferOverflow, line⟩
  | n + 1, capacity + 1, .byte b :: line =>
    let r := readPayload n capacity line
    ⟨b :: r.stored, r.failure, r.line⟩

/-- Step 4: `status1` complete is success (none), every other value a named failure (spec/43_firmware_contract.md R153). -/
def interpretStatus (p : FirmwareParams) (status1 : Byte) : Option ResultCode :=
  if status1 = p.complete then none
  else if status1 = p.incomplete then some .responseIncomplete
  else if status1 = p.invalid then some .responseInvalidCommand
  else if status1 = p.noAccess then some .responseNoAccess
  else if status1 = p.frameErr then some .responseFrameError
  else some .responseUnknownStatus

/-- Operands, payload, BUILD (spec/43_firmware_contract.md R141). -/
def Request.sendEvents (q : Request) : List HostEvent :=
  [asmWR .index (q.index.zeroExtend 16), asmWR .offset (q.offset.zeroExtend 16),
   asmWR .rlen (q.responseLen.zeroExtend 16), asmWR .plen (BitVec.ofNat 16 q.payload.length)]
    ++ asmWB .pay 0 q.payload ++ [asmOp (.build q.ty)]

/-- Accesses as moves. -/
def accessMoves (es : List HostEvent) : List HostMove := es.map .access

/-- What has been done before, set in front of the moves of what came after. -/
def ExchangeEnd.afterMoves (ms : List HostMove) (e : ExchangeEnd) : ExchangeEnd := { e with moves := ms ++ e.moves }

/-- Steps 6 and 7 for a data-bearing response of `n` payload bytes (spec/43_firmware_contract.md R155, R156), and step 8 (R157). -/
def receivePayload (n capacity : Nat) (sent : List Byte) (line : List LineEvent) (s : State) : Host.Outcome ExchangeEnd Fault Refusal :=
  let r := readPayload n capacity line
  match r.failure with
  | some c => .next ⟨s, sent, r.line, r.stored, .failed c.code, [.endExchange]⟩
  | none =>
    let stores := asmWB .pay 0 r.stored
    andThen (runEvents stores s) fun t =>
      match readExactly 2 r.line with
      | (some [t0, t1], rest) =>
        let check := [asmWR .trailer (joinBytes t0 t1), asmWR .plen (BitVec.ofNat 16 n), asmOp .pchk]
        andThen (runEvents check t) fun u =>
          .next ⟨u, sent, rest, r.stored, if u.err = 0 then .total (8 + n) else .failed u.err,
            accessMoves (stores ++ check ++ [asmRD .status]) ++ [.endExchange]⟩
      | (_, rest) => .next ⟨t, sent, rest, r.stored, .failed ResultCode.readTimeout.code, accessMoves stores ++ [.endExchange]⟩

/-- Steps 4 and 5 on a header that checked out, and what follows them (spec/43_firmware_contract.md R153 to R157). -/
def receiveChecked (p : FirmwareParams) (capacity : Nat) (sent : List Byte) (line : List LineEvent) (t : State) : Host.Outcome ExchangeEnd Fault Refusal :=
  match interpretStatus p (hiByte (t.hostReg .rhdrS)) with
  | some c => .next ⟨t, sent, line, [], .failed c.code, [.endExchange]⟩
  | none =>
    if p.dataBearing ((t.hostReg .rhdrC).extractLsb' 8 2) then
      receivePayload ((loByte (t.hostReg .rhdrL)).toNat * 2) capacity sent line t
    else .next ⟨t, sent, line, [], .total 8, [.endExchange]⟩

/-- The receive path, steps 1 to 8 (spec/43_firmware_contract.md R150 to R157). -/
def receive (p : FirmwareParams) (capacity : Nat) (sent : List Byte) (line : List LineEvent) (s : State) : Host.Outcome ExchangeEnd Fault Refusal :=
  match readExactly 8 line with
  | (none, rest) => .next ⟨s, sent, rest, [], .failed ResultCode.readTimeout.code, [.endExchange]⟩
  | (some header, rest) =>
    let parse := asmRxhdr header
    let done := accessMoves (parse ++ [asmRD .status])
    andThen (runEvents parse s) fun t =>
      if t.err ≠ 0 then .next ⟨t, sent, rest, [], .failed t.err, done ++ [.endExchange]⟩
      else
        andThen (receiveChecked p capacity sent rest t) fun e =>
          .next (e.afterMoves (done ++ [.access (asmRD .rhdrS), .access (asmRD .rhdrC), .access (asmRD .rhdrL), .useHeader]))

/-- The frame read out, handed to the transport in one write that takes `written` bytes, and the count compared (spec/43_firmware_contract.md R142). -/
def transmitMoves (written : Nat) (t : State) : List HostMove :=
  accessMoves (asmRD .txlen :: (List.range (t.hostReg .txlen).toNat).map (asmRB .tx)) ++ [.transmit t.frame written, .compareCount]

/-- One exchange: send, then receive (spec/43_firmware_contract.md R141, R142, R150 to R160). `written` is how many bytes the transport's one write takes; a shortfall ends the exchange. The command is sent and its response consumed, or the failure reported, in this one function, so no second command is issued while a response is outstanding (R160). -/
def exchange (p : FirmwareParams) (q : Request) (capacity written : Nat) (line : List LineEvent) (s : State) : Host.Outcome ExchangeEnd Fault Refusal :=
  let build := accessMoves (q.sendEvents ++ [asmRD .status])
  andThen (runEvents q.sendEvents s) fun t =>
    if t.err ≠ 0 then .next ⟨t, [], line, [], .failed t.err, build ++ [.endExchange]⟩
    else if written ≠ (t.hostReg .txlen).toNat then
      .next ⟨t, t.frame.take written, line, [], .failed ResultCode.writeShortfall.code,
        build ++ transmitMoves written t ++ [.endExchange]⟩
    else
      andThen (receive p capacity t.frame line t) fun e => .next (e.afterMoves (build ++ transmitMoves written t))

/-! ### The Parameter Facade (spec/43_firmware_contract.md R162): each call is one exchange

A request that the spec builds from the rules above, and a capacity. What the transport does (`written`, `line`) is an argument, as in `exchange`. -/

/-- A read: RLEN = `maxSize`, no payload. `maxSize` has RLEN's 9 bits (log 20). -/
def readRequest (index offset : Byte) (maxSize : BitVec 9) : Request := ⟨.read, index, offset, maxSize, []⟩

/-- A write of `buffer`. What RLEN holds for a write the spec does not say (R141 has firmware write RLEN, R162 and R163 give its value for a read only); that it is 0 is the model's choice (DESIGN CHOICE, log 20). -/
def writeRequest (index offset : Byte) (buffer : List Byte) : Request := ⟨.write, index, offset, 0, buffer⟩

/-- `getString(index, offset, buffer, maxSize)`: a read, received with capacity `maxSize`. -/
def getString (p : FirmwareParams) (index offset : Byte) (maxSize : BitVec 9) (written : Nat) (line : List LineEvent) (s : State) :
    Host.Outcome ExchangeEnd Fault Refusal :=
  exchange p (readRequest index offset maxSize) maxSize.toNat written line s

/-- `getUint16`: `getString` on a 2-byte buffer. -/
def getUint16 (p : FirmwareParams) (index offset : Byte) (written : Nat) (line : List LineEvent) (s : State) :
    Host.Outcome ExchangeEnd Fault Refusal :=
  getString p index offset 2 written line s

/-- `getUint32`: `getString` on a 4-byte buffer. -/
def getUint32 (p : FirmwareParams) (index offset : Byte) (written : Nat) (line : List LineEvent) (s : State) :
    Host.Outcome ExchangeEnd Fault Refusal :=
  getString p index offset 4 written line s

/-- `writeString(index, offset, buffer, size)`: a write, whose response is expected to carry no payload, so the caller gives no room for one: capacity 0 (DEDUCED, log 20). -/
def writeString (p : FirmwareParams) (index offset : Byte) (buffer : List Byte) (written : Nat) (line : List LineEvent) (s : State) :
    Host.Outcome ExchangeEnd Fault Refusal :=
  exchange p (writeRequest index offset buffer) 0 written line s

/-- `writeUint16`: the value's two bytes in the order they lie in the host's memory. -/
def writeUint16 (p : FirmwareParams) (index offset b0 b1 : Byte) (written : Nat) (line : List LineEvent) (s : State) :
    Host.Outcome ExchangeEnd Fault Refusal :=
  writeString p index offset [b0, b1] written line s

/-- `writeUint32`: the value's four bytes in the order they lie in the host's memory. -/
def writeUint32 (p : FirmwareParams) (index offset b0 b1 b2 b3 : Byte) (written : Nat) (line : List LineEvent) (s : State) :
    Host.Outcome ExchangeEnd Fault Refusal :=
  writeString p index offset [b0, b1, b2, b3] written line s

/-- An (index, offset) pair of the drive's parameters. -/
structure ParameterAddress where
  index : Byte
  offset : Byte
deriving DecidableEq, Repr

/-- The facade's constants, none of which is in the source (spec/91_not_in_source.md N12), taken as an argument (log 20). -/
structure FacadeParams where
  /-- Where `getAccessControl` writes. -/
  accessControl : ParameterAddress
  /-- The bitmask it writes, as bytes in wire order. -/
  accessMask : List Byte
  /-- Where `getProductInfo` reads, and how many bytes. -/
  productInfo : ParameterAddress
  productInfoSize : BitVec 9
  /-- Where `getCommandParam` reads parameter `n`, and how many bytes. -/
  commandParam : Nat → ParameterAddress
  commandParamSize : Nat → BitVec 9

/-- `getAccessControl()`: a write of the well-known bitmask to the well-known (index, offset). -/
def getAccessControl (c : FacadeParams) (p : FirmwareParams) (written : Nat) (line : List LineEvent) (s : State) :
    Host.Outcome ExchangeEnd Fault Refusal :=
  writeString p c.accessControl.index c.accessControl.offset c.accessMask written line s

/-- `getProductInfo()`: a read at a fixed address. -/
def getProductInfo (c : FacadeParams) (p : FirmwareParams) (written : Nat) (line : List LineEvent) (s : State) :
    Host.Outcome ExchangeEnd Fault Refusal :=
  getString p c.productInfo.index c.productInfo.offset c.productInfoSize written line s

/-- `getCommandParam(paramNumber)`: a read at the parameter's fixed address. -/
def getCommandParam (c : FacadeParams) (p : FirmwareParams) (paramNumber : Nat) (written : Nat) (line : List LineEvent) (s : State) :
    Host.Outcome ExchangeEnd Fault Refusal :=
  getString p (c.commandParam paramNumber).index (c.commandParam paramNumber).offset (c.commandParamSize paramNumber) written line s

end Sys2Proof.Machine
end

