-- ==== Sys2Proof/Safety.lean ====
section
/-! DEFINITION. What the claims call a good state and a safe run. -/

namespace Sys2Proof.Machine

/-- Every register's undefined bits are zero (spec/10_state.md R11). -/
def State.HardwiredZero (s : State) : Prop := ∀ r : Reg, s.reg r &&& ~~~(regMask r) = 0

/-- Every buffer is in canonical form and lists only elements that exist (spec/20_memory.md R40, R45). -/
def State.BuffersCanonical (s : State) : Prop :=
  Memory.wf s.tbl = true ∧ Memory.within Config.tblSize s.tbl = true
    ∧ ∀ sp : ByteSpace, Memory.wf (s.bytes sp) = true ∧ Memory.within sp.size (s.bytes sp) = true

/-- ERR holds one of the codes the block produces (spec/60_exceptions.md R170). -/
def State.ErrProduced (s : State) : Prop :=
  errField (s.reg .status) ∈ ([0, 1, 4, 5, 12, 13] : List (BitVec 4))

/-- While a session exists, the table is the one some polynomial builds (spec/10_state.md R33, spec/20_memory.md R56). -/
def State.SessionTable (s : State) : Prop := s.hasSession = true → ∃ p : Word, s.tbl = buildTable p

/-- The registers only an operation that needs a session, or INIT, writes (spec/10_state.md section 2). -/
def sessionRegs : List Reg :=
  [.dest, .seq, .acc, .txlen, .hcsum, .pcsum, .rhdrA, .rhdrC, .rhdrS, .rhdrL, .rhdrK]

/-- Before the first INIT nothing has been computed: no table, no frame, every result register at its reset value (spec/60_exceptions.md R171). -/
def State.FreshWithoutSession (s : State) : Prop :=
  s.hasSession = false → s.tbl = [] ∧ s.bytes .tx = [] ∧ ∀ r ∈ sessionRegs, s.reg r = 0

/-- TXLEN is 0, 8, or 11 to 521, and that many bytes of TX have been written (spec/10_state.md R24, spec/41_framer.md R115). -/
def State.FrameInTx (s : State) : Prop :=
  ((s.reg .txlen).toNat = 0 ∨ (s.reg .txlen).toNat = 8 ∨ (11 ≤ (s.reg .txlen).toNat ∧ (s.reg .txlen).toNat ≤ 521))
    ∧ ∀ i < (s.reg .txlen).toNat, (Memory.read? (s.bytes .tx) i).isSome = true

/-- RHDR_C's split fields are those of its own RAW byte (spec/10_state.md R28). -/
def State.ControlSplit (s : State) : Prop :=
  s.reg .rhdrC = splitControl Config.ctrlLayout (loByte (s.reg .rhdrC))

/-- The invariant every step keeps. -/
structure State.Inv (s : State) : Prop where
  hardwiredZero : s.HardwiredZero
  buffersCanonical : s.BuffersCanonical
  errProduced : s.ErrProduced
  sessionTable : s.SessionTable
  freshWithoutSession : s.FreshWithoutSession
  frameInTx : s.FrameInTx
  controlSplit : s.ControlSplit

/-- Every access the host has still to make names a register or an element that exists (spec/43_firmware_contract.md R163). -/
def State.hostOrderly (s : State) : Bool := s.pending.all HostEvent.wf

/-- What the host's record says of the block (spec/43_firmware_contract.md R163): an INIT it has issued has made a session and the whole table, an RX byte it has written is there, a BUILD still unread is the last operation, and a frame it may be sending is whole in TX. -/
structure RecordAgrees (r : HostRecord) (s : State) : Prop where
  session : r.created = true → s.hasSession = true ∧ ∀ i < 256, (Memory.read? s.tbl i).isSome = true
  header : ∀ i ∈ r.header, (Memory.read? (s.bytes .rx) i).isSome = true
  unread : r.phase = .built → ∃ ty, r.last = some (.build ty)
  frame : r.phase ≠ .idle → (r.phase = .built → s.err = 0) →
    ∀ i < (s.hostReg .txlen).toNat, (Memory.read? (s.bytes .tx) i).isSome = true

/-- A safe run: no number of steps ends in a fault or a refusal. -/
def SafeRun (s : State) : Prop := ∀ k : Nat, ∃ t : State, Host.Core.run Sys2Proof.core k s = .next t

end Sys2Proof.Machine
end

