-- ==== Sys2Proof/Certificates/Slice0/Obligations.lean ====
section
/-! DEFINITION. The statements for the provers. Each docstring says which rule of spec/ it formalises. Numbers, masks and loops are written out here from the spec and not taken from the model's definitions where that is possible, so that a statement compares two readings of one rule. -/

namespace Sys2Proof.Statement

open Sys2Proof.Machine

/-- The state after the oldest pending event is taken, before a write takes effect. -/
def taken (s : State) (rest : List HostEvent) : State := (s.setPending rest).setReply none

/-- STATUS with ERR = `code` and every other bit as in `s` (spec/60_exceptions.md R173). -/
def statusWith (s : State) (code : BitVec 4) : Word := (s.reg .status &&& 0xFFF0#16) ||| code.zeroExtend 16

/-- Of the block's state nothing but the listed registers differs: every other register and every buffer is as it was, and an element nothing has written reads as before. -/
def BlockOnly (rs : List Reg) (s t : State) : Prop :=
  (∀ r, r ∉ rs → t.reg r = s.reg r) ∧ t.tbl = s.tbl ∧ (∀ sp, t.bytes sp = s.bytes sp) ∧ t.resets = s.resets

/-- Nothing but the listed registers differs, the model's own fields included. -/
def OnlyRegs (rs : List Reg) (s t : State) : Prop :=
  BlockOnly rs s t ∧ t.pending = s.pending ∧ t.reply = s.reply

/-- The 8 iterations of spec/40_checksum.md R90 from accumulator `acc`, the byte in the top 8 bits of the data register. -/
def shiftRegister (p acc : Word) (b : Byte) : Word :=
  ((fun x : Word × Word => (if (x.2 ^^^ x.1).msb then (x.1 <<< 1) ^^^ p else x.1 <<< 1, x.2 <<< 1))^[8]
    (acc, BitVec.ofNat 16 (256 * b.toNat))).1

/-- A length register's value: 9 bits (spec/10_state.md R21, R22). -/
def len9 (v : Word) : Nat := v.toNat % 512

/-- `TX[0..7]`. -/
def txHeader (s : State) : List Byte := (List.range 8).map (s.byteAt .tx)

/-- The 264 legal command words as spec/30_encoding.md R61 lists them. -/
def legalWords : List Word :=
  [0x0001#16, 0x0002#16] ++ (List.range 256).map (fun b => BitVec.ofNat 16 (3 + 256 * b))
    ++ [0x0004#16, 0x0014#16, 0x0024#16, 0x0034#16] ++ [0x0005#16, 0x0006#16]

/-- Whether a word decodes to Illegal. -/
def illegalWord (w : Word) : Bool :=
  match decode w with
  | .illegal _ => true
  | .op _ => false

/-- The RW registers with their numbers and write masks (table of spec/10_state.md section 2). -/
def rwRegisters : List (Nat × Reg × Word) :=
  [(2, .poly, 0xFFFF), (3, .addr, 0x00FF), (7, .index, 0x00FF), (8, .offset, 0x00FF), (9, .rlen, 0x01FF),
   (10, .plen, 0x01FF), (11, .trailer, 0xFFFF)]

/-- The RO registers' numbers (spec/20_memory.md R42). -/
def roNumbers : List Nat := [1, 4, 5, 6, 12, 13, 14, 15, 16, 17, 18, 19]

/-- The twenty registers in the order of their numbers, each with its defined bits (table of spec/10_state.md section 2). -/
def registerTable : List (Reg × Word) :=
  [(.cmd, 0xFFFF), (.status, 0x001F), (.poly, 0xFFFF), (.addr, 0x00FF), (.dest, 0x00FF), (.seq, 0x000F), (.acc, 0xFFFF),
   (.index, 0x00FF), (.offset, 0x00FF), (.rlen, 0x01FF), (.plen, 0x01FF), (.trailer, 0xFFFF), (.txlen, 0x03FF),
   (.hcsum, 0xFFFF), (.pcsum, 0xFFFF), (.rhdrA, 0xFFFF), (.rhdrC, 0xFFFF), (.rhdrS, 0xFFFF), (.rhdrL, 0x00FF), (.rhdrK, 0xFFFF)]

/-- The result registers of PARSE hold what spec/42_parser.md R126 writes to them (fields by spec/10_state.md R27 to R31), from the RX of `s`. -/
def HeaderSplit (s t : State) : Prop :=
  (t.reg .rhdrA).toNat = (s.byteAt .rx 0).toNat * 256 + (s.byteAt .rx 1).toNat
  ∧ (t.reg .rhdrC).toNat % 256 = (s.byteAt .rx 2).toNat
  ∧ (t.reg .rhdrC).toNat / 256 % 4 = (s.byteAt .rx 2).toNat % 4
  ∧ (t.reg .rhdrC).toNat / 1024 % 16 = (s.byteAt .rx 2).toNat / 4 % 16
  ∧ (t.reg .rhdrC).toNat / 16384 = (s.byteAt .rx 2).toNat / 64
  ∧ (t.reg .rhdrS).toNat = (s.byteAt .rx 3).toNat * 256 + (s.byteAt .rx 4).toNat
  ∧ (t.reg .rhdrL).toNat = (s.byteAt .rx 5).toNat
  ∧ (t.reg .rhdrK).toNat = (s.byteAt .rx 6).toNat * 256 + (s.byteAt .rx 7).toNat
  ∧ t.reg .hcsum = foldBytes s.table 0 ((List.range 6).map (s.byteAt .rx))

/-- The checksum of `PAY[0..PLEN-1]`, which PCHK writes to PCSUM (spec/42_parser.md R131). -/
def payloadChecksum (s : State) : Word :=
  foldBytes s.table 0 ((List.range (len9 (s.reg .plen))).map (s.byteAt .pay))

/-- How many bytes the frame of a payload has. -/
def frameSize (payload : List Byte) : Nat := if payload = [] then 8 else 10 + payload.length

/-- A call of the facade ends, the whole frame sent: a header with the access type `ty`, the index, the offset and the word count given, then the payload if there is one and its checksum; and no more than `room` bytes are stored for the caller. -/
def Sends (call : Host.Outcome ExchangeEnd Fault Refusal) (ty : Nat) (index offset : Byte) (words : Nat) (payload : List Byte)
    (room : Nat) : Prop :=
  ∃ e, call = .next e ∧ e.sent.length = frameSize payload
    ∧ (e.sent.getD 2 0).toNat % 4 = ty ∧ e.sent.getD 3 0 = index ∧ e.sent.getD 4 0 = offset
    ∧ (e.sent.getD 5 0).toNat = words ∧ (e.sent.drop 8).take payload.length = payload ∧ e.buffer.length ≤ room

/-- The move issues the operation `i`. -/
def Issues (m : HostMove) (i : Instr) : Prop := ∃ w, m = .access (.regWrite 0 w) ∧ decode w = .op i

/-- The move is a STATUS read of a caller the block is free for. -/
def ReadsStatus (r : HostRecord) (caller : Nat) (m : HostMove) : Prop :=
  m = .access (.regRead 1) ∧ (r.holder = none ∨ r.holder = some caller)

/-- A move that only moves data out of the block, or the hard reset, which no caller makes. -/
def leavesTheBlockToItsHolder (m : HostMove) : Prop := ∃ e, m = .access e ∧ (isHostRead e = true ∨ e = .hardReset)

/-- The registers each operation may write (spec/20_memory.md R59). -/
def regsWritten : Instr → List Reg
  | .init => [.dest, .seq, .acc, .status]
  | .crcclr => [.acc, .status]
  | .crcfold _ => [.acc, .status]
  | .build _ => [.seq, .txlen, .hcsum, .pcsum, .status]
  | .parse => [.rhdrA, .rhdrC, .rhdrS, .rhdrL, .rhdrK, .hcsum, .status]
  | .pchk => [.pcsum, .status]

/-- The registers each operation reads, beside `STATUS.SESSION` (spec/20_memory.md R59). -/
def regsRead : Instr → List Reg
  | .init => [.poly, .addr]
  | .crcclr => []
  | .crcfold _ => [.acc]
  | .build _ => [.seq, .dest, .index, .offset, .rlen, .plen]
  | .parse => []
  | .pchk => [.plen, .trailer]

/-- Whether an operation reads `PAY[0..PLEN-1]` (spec/20_memory.md R59). -/
def readsPayload : Instr → Bool
  | .init => false
  | .crcclr => false
  | .crcfold _ => false
  | .build _ => true
  | .parse => false
  | .pchk => true

/-- Whether an operation reads `RX[0..7]` (spec/20_memory.md R59). -/
def readsRx : Instr → Bool
  | .init => false
  | .crcclr => false
  | .crcfold _ => false
  | .build _ => false
  | .parse => true
  | .pchk => false

/-- The element of TBL that CRCFOLD #b reads: (ACC >> 8) XOR b, and no other (spec/40_checksum.md R98). Every other operation that reads the table may read any element. -/
def tableIndexRead (i : Instr) (s : State) (k : Nat) : Prop :=
  match i with
  | .crcfold b => k = ((s.reg .acc).toNat / 256) ^^^ b.toNat
  | .init => False
  | .crcclr => False
  | .build _ => k < 256
  | .parse => k < 256
  | .pchk => k < 256

/-- The ERR a CMD write of `w` leaves (spec/60_exceptions.md R174): the decode first, then the session, then the operation's own check. -/
def errOf (s : State) (w : Word) : BitVec 4 :=
  match decode w with
  | .illegal _ => 12
  | .op .init => 0
  | .op .crcclr => if s.hasSession then 0 else 13
  | .op (.crcfold _) => if s.hasSession then 0 else 13
  | .op (.build ty) => if s.hasSession then (if ty = .unused then 1 else 0) else 13
  | .op .parse =>
    if s.hasSession then
      (if foldBytes s.table 0 ((List.range 6).map (s.byteAt .rx)) = s.byteAt .rx 6 ++ s.byteAt .rx 7 then 0 else 4)
    else 13
  | .op .pchk =>
    if s.hasSession then
      (if foldBytes s.table 0 ((List.range (len9 (s.reg .plen))).map (s.byteAt .pay)) = s.reg .trailer then 0 else 5)
    else 13

/-- The first six bytes of the echo of a cooperative drive, as spec/95_test_vectors.md program P4 states it: marker `m`, address 0xFF, the command's control byte, status1 complete, status2 `st2`, the command's word count. A correct header checksum, the payload unchanged and a correct payload checksum follow them. -/
def echoHeader (complete m control st2 words : Byte) : List Byte := [m, 0xFF#8, control, complete, st2, words]

end Sys2Proof.Statement

open Sys2Proof Sys2Proof.Machine Sys2Proof.Statement

/-! ### Encoding -/

/-- The words of the notation table of spec/30_encoding.md R75, and illegal words of spec/95_test_vectors.md V40 to V48, decode to what they stand for. A check on fixed words. -/
def Obligations.CommandWordsDecodeAsListed : Prop :=
  decode 0x0001#16 = .op .init ∧ decode 0x0002#16 = .op .crcclr ∧ decode 0x0103#16 = .op (.crcfold 0x01#8)
    ∧ decode 0xFF03#16 = .op (.crcfold 0xFF#8) ∧ decode 0x0004#16 = .op (.build .unused) ∧ decode 0x0014#16 = .op (.build .read)
    ∧ decode 0x0024#16 = .op (.build .write) ∧ decode 0x0034#16 = .op (.build .readWrite) ∧ decode 0x0005#16 = .op .parse
    ∧ decode 0x0006#16 = .op .pchk
    ∧ ∀ w ∈ ([0x0000, 0x0007, 0x000F, 0x0101, 0x0011, 0x0041, 0x0013, 0x0104, 0x00C4] : List Word), illegalWord w = true

/-- Decode and encode agree, for every well-formed operation with every operand, and every legal word is the encoding of what it decodes to (spec/30_encoding.md R61, R75). -/
def Obligations.DecodeEncodeAgree : Prop :=
  (∀ i : Instr, i.wf = true → decode (encode i) = .op i) ∧ (∀ (w : Word) (i : Instr), decode w = .op i → encode i = w)

/-- spec/30_encoding.md R61: the ordered procedure, the list of the legal words, the two counts, and that distinct legal words give distinct operation-operand pairs. -/
def Obligations.DecodeFollowsTheProcedure : Prop :=
  (∀ w : Word,
    let opc := w.toNat % 16
    let ty := w.toNat / 16 % 4
    let mbz := w.toNat / 64 % 4
    let imm := w.toNat / 256
    (mbz ≠ 0 → ∃ r, decode w = .illegal r)
    ∧ (mbz = 0 →
        (opc = 1 ∧ ty = 0 ∧ imm = 0 → decode w = .op .init)
        ∧ (opc = 2 ∧ ty = 0 ∧ imm = 0 → decode w = .op .crcclr)
        ∧ (opc = 3 ∧ ty = 0 → decode w = .op (.crcfold (BitVec.ofNat 8 imm)))
        ∧ (opc = 4 ∧ imm = 0 → decode w = .op (.build (AccessType.ofCode (BitVec.ofNat 2 ty))))
        ∧ (opc = 5 ∧ ty = 0 ∧ imm = 0 → decode w = .op .parse)
        ∧ (opc = 6 ∧ ty = 0 ∧ imm = 0 → decode w = .op .pchk)
        ∧ (¬(opc = 1 ∧ ty = 0 ∧ imm = 0) → ¬(opc = 2 ∧ ty = 0 ∧ imm = 0) → ¬(opc = 3 ∧ ty = 0) → ¬(opc = 4 ∧ imm = 0)
            → ¬(opc = 5 ∧ ty = 0 ∧ imm = 0) → ¬(opc = 6 ∧ ty = 0 ∧ imm = 0) → ∃ r, decode w = .illegal r)))
  ∧ (∀ w : Word, (∃ i, decode w = .op i) ↔ w ∈ legalWords)
  ∧ legalWords.Nodup ∧ legalWords.length = 264
  ∧ 2 ^ 16 - legalWords.length = 65272
  ∧ ∀ (w x : Word) (i : Instr), decode w = .op i → decode x = .op i → w = x

/-- spec/30_encoding.md R70: a word selects a row when (w AND mask) = match, the operand is the row's field, and the rows' match sets are disjoint. -/
def Obligations.OpcodeMapRows : Prop :=
  (∀ w : Word,
    (w &&& 0xFFFF#16 = 0x0001#16 ↔ decode w = .op .init)
    ∧ (w &&& 0xFFFF#16 = 0x0002#16 ↔ decode w = .op .crcclr)
    ∧ (w &&& 0x00FF#16 = 0x0003#16 ↔ decode w = .op (.crcfold (BitVec.ofNat 8 (w.toNat / 256))))
    ∧ (w &&& 0xFFCF#16 = 0x0004#16 ↔ decode w = .op (.build (AccessType.ofCode (BitVec.ofNat 2 (w.toNat / 16)))))
    ∧ (w &&& 0xFFFF#16 = 0x0005#16 ↔ decode w = .op .parse)
    ∧ (w &&& 0xFFFF#16 = 0x0006#16 ↔ decode w = .op .pchk))
  ∧ ([(0xFFFF, 0x0001), (0xFFFF, 0x0002), (0x00FF, 0x0003), (0xFFCF, 0x0004), (0xFFFF, 0x0005), (0xFFFF, 0x0006)] :
      List (Word × Word)).Pairwise fun a b => ∀ w : Word, ¬(w &&& a.1 = a.2 ∧ w &&& b.1 = b.2)

/-! ### The step and the host port -/

/-- A step runs the decoded operation (spec/10_state.md R13): a host write of a legal word to register 0 stores the word in CMD and then executes the operation, and `withFetchWord` makes any word the next such write. That the host's coming accesses are the list `pending`, in front of which withFetchWord puts the write, is the model's choice (log 1), and so is that `reply` is none after a command (log 2). -/
def Obligations.StepRunsTheWrittenCommand : Prop :=
  (∀ (s : State) (rest : List HostEvent) (w : Word) (i : Instr), s.pending = .regWrite 0 w :: rest → decode w = .op i →
    step s = exec i ((taken s rest).setReg .cmd w))
  ∧ ∀ (s : State) (w : Nat) (i : Instr), w < 65536 → decode (BitVec.ofNat 16 w) = .op i →
    step (s.withFetchWord 16 w) = exec i ((taken s s.pending).setReg .cmd (BitVec.ofNat 16 w))

/-- spec/60_exceptions.md R172: an Illegal word stores itself in CMD, sets ERR = 12 and does nothing else, session or no session. -/
def Obligations.IllegalWordOnlyReports : Prop :=
  ∀ (s : State) (rest : List HostEvent) (w : Word), s.pending = .regWrite 0 w :: rest → illegalWord w = true →
    ∃ t, step s = .next t ∧ t.reg .cmd = w ∧ t.reg .status = statusWith s 12 ∧ BlockOnly [.cmd, .status] s t

/-- With no host event pending a step changes nothing. The model's choice (log 1), read from spec/70_reset_and_hazards.md R195 and R212. -/
def Obligations.NothingHappensWithoutTheHost : Prop :=
  ∀ s : State, s.pending = [] → step s = .next s

/-- spec/20_memory.md R41: a host read of register n returns its value, hardwired-zero bits as 0, and changes nothing (`reply`, the model's own field of log 2, is what is returned). -/
def Obligations.RegReadReturnsTheRegister : Prop :=
  ∀ (n : Nat) (r : Reg) (bits : Word), registerTable[n]? = some (r, bits) → ∀ s : State,
    access (.regRead n) s = .next (s.setReply (some (.word (s.reg r &&& bits))))

/-- spec/20_memory.md R42: a write of an RW register stores the value under its mask and nothing else; a write of an RO register does nothing; a write of CMD stores the word and executes the operation it encodes. -/
def Obligations.RegWriteObeysAccessRights : Prop :=
  (∀ (n : Nat) (r : Reg) (bits : Word), (n, r, bits) ∈ rwRegisters → ∀ (s : State) (v : Word),
    ∃ t, access (.regWrite n v) s = .next t ∧ t.reg r = v &&& bits ∧ BlockOnly [r] s t)
  ∧ (∀ n ∈ roNumbers, ∀ (s : State) (v : Word), ∃ t, access (.regWrite n v) s = .next t ∧ BlockOnly [] s t)
  ∧ (∀ (s : State) (v : Word) (i : Instr), decode v = .op i →
      access (.regWrite 0 v) s = exec i ((s.setReply none).setReg .cmd v))
  ∧ ∀ (s : State) (v : Word), illegalWord v = true →
      ∃ t, access (.regWrite 0 v) s = .next t ∧ t.reg .cmd = v ∧ t.reg .status = statusWith s 12 ∧ BlockOnly [.cmd, .status] s t

/-- spec/20_memory.md R43: a host read of a buffer element returns it and has no side effect; an element nothing has written since reset gives its free value (the model's choice among what the spec allows, log 3). -/
def Obligations.BufReadReturnsTheElement : Prop :=
  ∀ s : State,
    (∀ i < 256, access (.tblRead i) s = .next (s.setReply (some (.word (s.tblAt i)))))
    ∧ (∀ i < 512, access (.byteRead .pay i) s = .next (s.setReply (some (.byte (s.byteAt .pay i)))))
    ∧ (∀ i < 521, access (.byteRead .tx i) s = .next (s.setReply (some (.byte (s.byteAt .tx i)))))
    ∧ (∀ i < 8, access (.byteRead .rx i) s = .next (s.setReply (some (.byte (s.byteAt .rx i)))))
    ∧ (∀ i v, Memory.read? s.tbl i = some v → s.tblAt i = v)
    ∧ (∀ i, Memory.read? s.tbl i = none → s.tblAt i = Config.unwrittenTbl s.resets i)
    ∧ (∀ sp i v, Memory.read? (s.bytes sp) i = some v → s.byteAt sp i = v)
    ∧ ∀ sp i, Memory.read? (s.bytes sp) i = none → s.byteAt sp i = unwrittenByte sp s.resets i

/-- spec/20_memory.md R44: a host write to PAY or RX stores the byte at its index and changes no other element, no register and no other buffer; a host write to TBL or TX does nothing. -/
def Obligations.BufWriteStoresOneByte : Prop :=
  (∀ (sp : ByteSpace) (i : Nat) (v : Byte) (s : State), (sp = .pay ∧ i < 512) ∨ (sp = .rx ∧ i < 8) →
    ∃ t, access (.byteWrite sp i v) s = .next t ∧ t.byteAt sp i = v
      ∧ (∀ j, j ≠ i → t.byteAt sp j = s.byteAt sp j) ∧ (∀ sq, sq ≠ sp → t.bytes sq = s.bytes sq)
      ∧ (∀ r, t.reg r = s.reg r) ∧ t.tbl = s.tbl ∧ t.pending = s.pending ∧ t.resets = s.resets)
  ∧ (∀ i < 256, ∀ (v : Word) (s : State), ∃ t, access (.tblWrite i v) s = .next t ∧ BlockOnly [] s t)
  ∧ ∀ i < 521, ∀ (v : Byte) (s : State), ∃ t, access (.byteWrite .tx i v) s = .next t ∧ BlockOnly [] s t

/-- spec/20_memory.md R45: an access with a register number of 20 or more, or an index outside its space, is refused, whatever the state. -/
def Obligations.NonexistentElementsAreRefused : Prop :=
  ∀ s : State,
    (∀ n, 20 ≤ n → (access (.regRead n) s = .refused (.noSuchRegister n)) ∧ ∀ v, access (.regWrite n v) s = .refused (.noSuchRegister n))
    ∧ (∀ i, 256 ≤ i → (access (.tblRead i) s = .refused (.noSuchEntry i)) ∧ ∀ v, access (.tblWrite i v) s = .refused (.noSuchEntry i))
    ∧ ∀ (sp : ByteSpace) (i : Nat), (sp = .pay ∧ 512 ≤ i) ∨ (sp = .tx ∧ 521 ≤ i) ∨ (sp = .rx ∧ 8 ≤ i) →
        access (.byteRead sp i) s = .refused (.noSuchByte sp i) ∧ ∀ v, access (.byteWrite sp i v) s = .refused (.noSuchByte sp i)

/-- A host that only names registers and elements that exist is never stopped: no number of steps ends in a fault or a refusal, from any state (spec/60_exceptions.md R179(a), (b), (d); that an unwritten element is a free draw and no fault is the model's choice, log 3). -/
def Obligations.OrderlyHostRunsForever : Prop :=
  ∀ s : State, s.hostOrderly = true → SafeRun s

/-! ### Reset -/

/-- spec/10_state.md R39: after reset every register holds 0x0000 except POLY, which holds 0x1021, and every buffer element is one nothing has written. What such an element reads as is left open by the spec; that it is a free draw and no fault is the model's choice (log 3). -/
def Obligations.ResetValues : Prop :=
  (∀ r : Reg, State.reset.reg r = if r = .poly then 0x1021#16 else 0x0000#16)
  ∧ (∀ i, Memory.read? State.reset.tbl i = none) ∧ (∀ sp i, Memory.read? (State.reset.bytes sp) i = none)
  ∧ (∀ i, State.reset.tblAt i = Config.unwrittenTbl State.reset.resets i)
  ∧ ∀ sp i, State.reset.byteAt sp i = unwrittenByte sp State.reset.resets i

/-- spec/70_reset_and_hazards.md R195: a hard reset, which comes between host accesses, puts every register at its reset value and leaves every buffer unspecified. The model's choices in it: an element nothing has written reads as a free value (log 3) that depends on the count of resets (log 4), and the accesses the host has still to make stay (log 8). -/
def Obligations.HardResetRestoresResetValues : Prop :=
  ∀ (s : State) (rest : List HostEvent), s.pending = .hardReset :: rest →
    ∃ t, step s = .next t ∧ (∀ r : Reg, t.reg r = if r = .poly then 0x1021#16 else 0x0000#16)
      ∧ (∀ i, t.tblAt i = Config.unwrittenTbl t.resets i) ∧ (∀ sp i, t.byteAt sp i = unwrittenByte sp t.resets i)
      ∧ t.pending = rest

/-! ### The invariant -/

/-- The reset state meets the invariant. -/
def Obligations.ResetMeetsInv : Prop := State.reset.Inv

/-- Every step keeps the invariant: hardwired bits stay zero (spec/10_state.md R11), buffers canonical and inside their sizes (spec/20_memory.md R40, R59), ERR one of 0, 1, 4, 5, 12, 13 (spec/60_exceptions.md R170), the session's table one that some polynomial builds (spec/20_memory.md R56), nothing computed before the first INIT (spec/60_exceptions.md R171), TXLEN a frame length with that much of TX written (spec/10_state.md R24), RHDR_C split as its RAW byte says (spec/10_state.md R28). -/
def Obligations.StepKeepsInv : Prop :=
  ∀ s t : State, s.Inv → step s = .next t → t.Inv

/-! ### The checksum engine -/

/-- spec/40_checksum.md R96 and R90: INIT completes in every state; the table is the one R90's loop builds from POLY, DEST is ADDR[7:0], SEQ and ACC are 0, SESSION is 1, ERR is 0; no other register, not PAY, TX or RX, changes. -/
def Obligations.InitCreatesASession : Prop :=
  ∀ s : State, ∃ t, exec .init s = .next t
    ∧ (∀ b : Byte, t.tblAt b.toNat = shiftRegister (s.reg .poly) 0 b)
    ∧ (t.reg .dest).toNat = (s.reg .addr).toNat % 256 ∧ t.reg .seq = 0 ∧ t.reg .acc = 0
    ∧ t.reg .status = (s.reg .status &&& 0xFFE0#16) ||| 0x0010#16
    ∧ (∀ r, r ∉ ([.dest, .seq, .acc, .status] : List Reg) → t.reg r = s.reg r)
    ∧ (∀ sp, t.bytes sp = s.bytes sp) ∧ t.pending = s.pending ∧ t.reply = s.reply ∧ t.resets = s.resets

/-- spec/40_checksum.md R97: with a session CRCCLR sets ACC to 0 and ERR to 0; without one it sets ERR to 13 and ACC is unchanged; nothing else changes. -/
def Obligations.CrcclrClearsAcc : Prop :=
  ∀ s : State, ∃ t, exec .crcclr s = .next t
    ∧ (s.hasSession = true → t.reg .acc = 0 ∧ t.reg .status = statusWith s 0)
    ∧ (s.hasSession = false → t.reg .acc = s.reg .acc ∧ t.reg .status = statusWith s 13)
    ∧ OnlyRegs [.acc, .status] s t

/-- spec/40_checksum.md R98 (with R92): with a session CRCFOLD #b replaces ACC by (ACC << 8) XOR TBL[(ACC >> 8) XOR b] and sets ERR to 0; without one it sets ERR to 13 and ACC is unchanged; nothing else changes. -/
def Obligations.CrcfoldFoldsOneByte : Prop :=
  ∀ (s : State) (b : Byte), ∃ t, exec (.crcfold b) s = .next t
    ∧ (s.hasSession = true →
        t.reg .acc = BitVec.ofNat 16 ((s.reg .acc).toNat * 256) ^^^ s.tblAt (((s.reg .acc).toNat / 256) ^^^ b.toNat)
        ∧ t.reg .status = statusWith s 0)
    ∧ (s.hasSession = false → t.reg .acc = s.reg .acc ∧ t.reg .status = statusWith s 13)
    ∧ OnlyRegs [.acc, .status] s t

/-- spec/40_checksum.md R91, of the table INIT leaves, for every polynomial: (a) T[0] = 0; (b) T[1] = p; (c) T is linear over XOR, so the entries 1, 2, 4, ..., 128 determine all; (d) the polynomial 0 is accepted, gives the zero table, and every checksum is then 0. INIT completes for every polynomial. -/
def Obligations.TableLaws : Prop :=
  ∀ s : State, ∃ t, exec .init s = .next t
    ∧ t.tblAt 0 = 0 ∧ t.tblAt 1 = s.reg .poly
    ∧ (∀ a b : Byte, t.table (a ^^^ b) = t.table a ^^^ t.table b)
    ∧ (∀ s' t' : State, exec .init s' = .next t' → (∀ k < 8, t'.tblAt (2 ^ k) = t.tblAt (2 ^ k)) → ∀ i < 256, t'.tblAt i = t.tblAt i)
    ∧ (s.reg .poly = 0 → (∀ i < 256, t.tblAt i = 0) ∧ ∀ bytes, foldBytes t.table 0 bytes = 0)

/-- spec/40_checksum.md R94: the table fold is the bit-serial shift register, for every polynomial, accumulator and byte; and T[i] = FoldByte(0, i, T). -/
def Obligations.TableFoldIsTheShiftRegister : Prop :=
  ∀ s : State, ∃ t, exec .init s = .next t
    ∧ (∀ (acc : Word) (b : Byte), foldByte t.table acc b = shiftRegister (s.reg .poly) acc b)
    ∧ ∀ b : Byte, t.tblAt b.toNat = foldByte t.table 0 b

/-- spec/40_checksum.md R95 (a) to (f), of the table INIT leaves. -/
def Obligations.FoldLaws : Prop :=
  ∀ s : State, ∃ t, exec .init s = .next t
    ∧ (∀ b : Byte, foldByte t.table 0 b = t.tblAt b.toNat) ∧ foldByte t.table 0 0x01#8 = s.reg .poly
    ∧ foldByte t.table 0 0x00#8 = 0
    ∧ (∀ (n : Nat) (m : List Byte), foldBytes t.table 0 (List.replicate n 0x00#8) = 0
        ∧ foldBytes t.table 0 (List.replicate n 0x00#8 ++ m) = foldBytes t.table 0 m)
    ∧ foldBytes t.table 0 [] = 0
    ∧ (∀ m : List Byte, foldBytes t.table 0
        (m ++ [(foldBytes t.table 0 m).extractLsb' 8 8, (foldBytes t.table 0 m).extractLsb' 0 8]) = 0)
    ∧ (∀ (a1 a2 : Word) (b1 b2 : Byte),
        foldByte t.table (a1 ^^^ a2) (b1 ^^^ b2) = foldByte t.table a1 b1 ^^^ foldByte t.table a2 b2)
    ∧ (s.reg .poly = 0x1021#16 →
        foldBytes t.table 0 [0x31#8, 0x32#8, 0x33#8, 0x34#8, 0x35#8, 0x36#8, 0x37#8, 0x38#8, 0x39#8] = 0x31C3#16)

/-- With p = 0x1021 a change confined to a single byte of a sequence changes its checksum, whatever the sequence (the last sentence of spec/41_framer.md R114 on payloads, a derived claim of the spec). -/
def Obligations.SingleByteChangeChangesTheChecksum : Prop :=
  ∀ s : State, s.reg .poly = 0x1021#16 → ∃ t, exec .init s = .next t
    ∧ ∀ (before after : List Byte) (b c : Byte), b ≠ c →
      foldBytes t.table 0 (before ++ b :: after) ≠ foldBytes t.table 0 (before ++ c :: after)

/-- spec/30_encoding.md R76, CRCOF: CRCCLR and then CRCFOLD for each byte, as host accesses in a session, leave ACC at the checksum of the bytes; nothing but ACC, CMD and ERR changes. -/
def Obligations.CrcofLeavesTheChecksum : Prop :=
  ∀ (s : State) (bytes : List Byte), s.hasSession = true →
    ∃ t, runEvents (asmCrcof bytes) s = .next t ∧ t.reg .acc = foldBytes s.table 0 bytes
      ∧ t.reg .status = statusWith s 0 ∧ BlockOnly [.acc, .status, .cmd] s t

/-! ### The framer -/

/-- spec/41_framer.md R111: with a session every BUILD, also a rejected one, advances SEQ by one mod 16 and a frame built carries the advanced value; without a session SEQ stays; any number k of BUILDs advances SEQ by k mod 16, which is never 16; the first BUILD after INIT carries 1; no other operation but INIT changes SEQ. -/
def Obligations.SequenceCounterCycles : Prop :=
  (∀ (s : State) (ty : AccessType), s.hasSession = true →
    ∃ t, exec (.build ty) s = .next t ∧ (t.reg .seq).toNat = ((s.reg .seq).toNat + 1) % 16
      ∧ (ty ≠ .unused → (t.byteAt .tx 2).toNat / 4 % 16 = ((s.reg .seq).toNat + 1) % 16))
  ∧ (∀ (s : State) (ty : AccessType), s.hasSession = false → ∃ t, exec (.build ty) s = .next t ∧ t.reg .seq = s.reg .seq)
  ∧ (∀ (s : State) (tys : List AccessType), s.hasSession = true → tys ≠ [] →
      ∃ t, runEvents (tys.map fun ty => asmOp (.build ty)) s = .next t
        ∧ (t.reg .seq).toNat = ((s.reg .seq).toNat + tys.length) % 16)
  ∧ (∀ (s : State) (ty : AccessType), ∃ t, runEvents [asmOp .init, asmOp (.build ty)] s = .next t ∧ t.reg .seq = 1
      ∧ (ty ≠ .unused → (t.byteAt .tx 2).toNat / 4 % 16 = 1))
  ∧ ∀ (s : State) (i : Instr), i ≠ .init → (∀ ty, i ≠ .build ty) → ∃ t, exec i s = .next t ∧ t.reg .seq = s.reg .seq

/-- spec/41_framer.md R113: access type 0 gives ERR = 1 with SEQ advanced, and nothing else changes: not TX, TXLEN, HCSUM, PCSUM. -/
def Obligations.BuildRejectsAccessTypeZero : Prop :=
  ∀ s : State, s.hasSession = true → ∃ t, exec (.build .unused) s = .next t
    ∧ (t.reg .seq).toNat = ((s.reg .seq).toNat + 1) % 16 ∧ t.reg .status = statusWith s 1 ∧ OnlyRegs [.seq, .status] s t

/-- spec/41_framer.md R112 with the frame layout of spec/30_encoding.md R62, R64, R67, R69: without a session ERR = 13 and nothing else; access type 0, ERR = 1 after the increment; else the frame, and all a BUILD leaves unchanged. The stored bytes are TX[0..TXLEN-1]. -/
def Obligations.BuildWritesTheFrame : Prop :=
  (∀ (s : State) (ty : AccessType), s.hasSession = false →
    ∃ t, exec (.build ty) s = .next t ∧ t.reg .status = statusWith s 13 ∧ OnlyRegs [.status] s t)
  ∧ (∀ s : State, s.hasSession = true → ∃ t, exec (.build .unused) s = .next t
      ∧ (t.reg .seq).toNat = ((s.reg .seq).toNat + 1) % 16 ∧ t.reg .status = statusWith s 1 ∧ OnlyRegs [.seq, .status] s t)
  ∧ ∀ (s : State) (ty : AccessType), s.hasSession = true → ty ≠ .unused →
    ∃ t, exec (.build ty) s = .next t
      ∧ (t.reg .seq).toNat = ((s.reg .seq).toNat + 1) % 16
      ∧ t.byteAt .tx 0 = Config.startMarker
      ∧ (t.byteAt .tx 1).toNat = (s.reg .dest).toNat % 256
      ∧ (t.byteAt .tx 2).toNat = ((s.reg .seq).toNat + 1) % 16 * 4 + ty.code.toNat
      ∧ (t.byteAt .tx 3).toNat = (s.reg .index).toNat % 256
      ∧ (t.byteAt .tx 4).toNat = (s.reg .offset).toNat % 256
      ∧ (t.byteAt .tx 5).toNat = (if ty = .read then len9 (s.reg .rlen) else len9 (s.reg .plen)) / 2
      ∧ t.reg .hcsum = foldBytes s.table 0 ((List.range 6).map (t.byteAt .tx))
      ∧ (t.byteAt .tx 6).toNat = (t.reg .hcsum).toNat / 256 ∧ (t.byteAt .tx 7).toNat = (t.reg .hcsum).toNat % 256
      ∧ (len9 (s.reg .plen) = 0 → t.reg .txlen = 8 ∧ t.reg .pcsum = s.reg .pcsum)
      ∧ (len9 (s.reg .plen) ≠ 0 →
          (t.reg .txlen).toNat = 10 + len9 (s.reg .plen)
          ∧ (∀ i < len9 (s.reg .plen), t.byteAt .tx (8 + i) = s.byteAt .pay i)
          ∧ t.reg .pcsum = foldBytes s.table 0 ((List.range (len9 (s.reg .plen))).map (s.byteAt .pay))
          ∧ (t.byteAt .tx (8 + len9 (s.reg .plen))).toNat = (t.reg .pcsum).toNat / 256
          ∧ (t.byteAt .tx (9 + len9 (s.reg .plen))).toNat = (t.reg .pcsum).toNat % 256)
      ∧ t.reg .status = statusWith s 0
      ∧ (∀ r, r ∉ ([.seq, .txlen, .hcsum, .pcsum, .status] : List Reg) → t.reg r = s.reg r)
      ∧ (∀ i, (t.reg .txlen).toNat ≤ i → t.byteAt .tx i = s.byteAt .tx i)
      ∧ t.tbl = s.tbl ∧ t.bytes .pay = s.bytes .pay ∧ t.bytes .rx = s.bytes .rx
      ∧ t.pending = s.pending ∧ t.reply = s.reply ∧ t.resets = s.resets

/-- spec/41_framer.md R117 (a) to (e): the residues of header and payload, the control byte's fields, HCSUM in bytes 6 and 7, and that PARSE, fed TX[0..7], succeeds with the same fields. The premise that the table is one a polynomial builds is part of the invariant `State.Inv` (`StepKeepsInv`). -/
def Obligations.BuiltFrameChecksOut : Prop :=
  ∀ (s : State) (ty : AccessType) (p : Word), s.hasSession = true → s.tbl = buildTable p → ty ≠ .unused →
    ∃ t, exec (.build ty) s = .next t
      ∧ foldBytes t.table 0 (txHeader t) = 0
      ∧ (len9 (s.reg .plen) ≠ 0 → foldBytes t.table 0 ((List.range (len9 (s.reg .plen) + 2)).map fun i => t.byteAt .tx (8 + i)) = 0)
      ∧ (t.byteAt .tx 2).toNat % 4 = ty.code.toNat ∧ (t.byteAt .tx 2).toNat / 4 % 16 = (t.reg .seq).toNat % 16
      ∧ (t.byteAt .tx 2).toNat / 64 = 0
      ∧ t.byteAt .tx 6 ++ t.byteAt .tx 7 = t.reg .hcsum
      ∧ ∃ u, runEvents (asmRxhdr (txHeader t)) t = .next u ∧ u.reg .status = statusWith t 0
        ∧ u.reg .rhdrA = t.byteAt .tx 0 ++ t.byteAt .tx 1 ∧ (u.reg .rhdrC).toNat % 256 = (t.byteAt .tx 2).toNat
        ∧ (u.reg .rhdrC).toNat / 256 % 4 = ty.code.toNat ∧ (u.reg .rhdrC).toNat / 1024 % 16 = (t.reg .seq).toNat % 16
        ∧ (u.reg .rhdrC).toNat / 16384 = 0
        ∧ u.reg .rhdrS = t.byteAt .tx 3 ++ t.byteAt .tx 4 ∧ (u.reg .rhdrL).toNat = (t.byteAt .tx 5).toNat
        ∧ u.reg .rhdrK = t.reg .hcsum ∧ u.reg .hcsum = t.reg .hcsum

/-- Independence of the two checksums (spec/41_framer.md R114): two states that differ only in PAY and in PLEN's bit 0 and above what half of PLEN shows give the same header and HCSUM; and the payload checksum is the same whatever the header's operands and SEQ are. -/
def Obligations.BuildChecksumsAreIndependent : Prop :=
  (∀ (s s' : State) (ty : AccessType), s.hasSession = true → ty ≠ .unused → (∀ r, r ≠ .plen → s'.reg r = s.reg r) →
    s'.table = s.table → (ty ≠ .read → len9 (s'.reg .plen) / 2 = len9 (s.reg .plen) / 2) →
    ∃ t t', exec (.build ty) s = .next t ∧ exec (.build ty) s' = .next t' ∧ txHeader t' = txHeader t ∧ t'.reg .hcsum = t.reg .hcsum)
  ∧ ∀ (s s' : State) (ty ty' : AccessType), s.hasSession = true → s'.hasSession = true → ty ≠ .unused → ty' ≠ .unused →
    s'.table = s.table → len9 (s'.reg .plen) = len9 (s.reg .plen) → len9 (s.reg .plen) ≠ 0 →
    (∀ i < len9 (s.reg .plen), s'.byteAt .pay i = s.byteAt .pay i) →
    ∃ t t', exec (.build ty) s = .next t ∧ exec (.build ty') s' = .next t' ∧ t'.reg .pcsum = t.reg .pcsum

/-! ### The parser -/

/-- spec/42_parser.md R126 (fields by spec/10_state.md R27 to R31): without a session PARSE sets ERR to 13 and does nothing else; with one it completes, writes every field whether or not the checksum matches, sets ERR to 0 or 4, and changes nothing else; and it is idempotent. -/
def Obligations.ParseSplitsTheHeader : Prop :=
  (∀ s : State, s.hasSession = false →
    ∃ t, exec .parse s = .next t ∧ t.reg .status = statusWith s 13 ∧ OnlyRegs [.status] s t)
  ∧ ∀ s : State, s.hasSession = true →
    ∃ t, exec .parse s = .next t
      ∧ HeaderSplit s t
      ∧ t.reg .status = statusWith s (if t.reg .hcsum = t.reg .rhdrK then 0 else 4)
      ∧ OnlyRegs [.rhdrA, .rhdrC, .rhdrS, .rhdrL, .rhdrK, .hcsum, .status] s t
      ∧ exec .parse t = .next t

/-- Corner cases of PARSE (spec/42_parser.md R127 (b) and (f)): an all-zero header passes whatever the session's polynomial; with POLY = 0 PARSE succeeds exactly when RX[6] = RX[7] = 0. -/
def Obligations.ParseZeroHeaderPasses : Prop :=
  ∀ (s : State) (p : Word), s.hasSession = true → s.tbl = buildTable p →
    ((∀ i < 8, s.byteAt .rx i = 0) → ∃ t, exec .parse s = .next t ∧ t.reg .status = statusWith s 0)
    ∧ (p = 0 → ∃ t, exec .parse s = .next t ∧ (t.reg .status = statusWith s 0 ↔ s.byteAt .rx 6 = 0 ∧ s.byteAt .rx 7 = 0))

/-- spec/42_parser.md R131: without a session PCHK sets ERR to 13 and does nothing else; with one it completes, writes the recomputed checksum of PAY[0..PLEN-1] to PCSUM in both outcomes, sets ERR to 0 or 5, changes nothing else, and is idempotent. -/
def Obligations.PchkComparesThePayload : Prop :=
  (∀ s : State, s.hasSession = false →
    ∃ t, exec .pchk s = .next t ∧ t.reg .status = statusWith s 13 ∧ OnlyRegs [.status] s t)
  ∧ ∀ s : State, s.hasSession = true →
    ∃ t, exec .pchk s = .next t
      ∧ t.reg .pcsum = payloadChecksum s
      ∧ t.reg .status = statusWith s (if t.reg .pcsum = s.reg .trailer then 0 else 5)
      ∧ OnlyRegs [.pcsum, .status] s t
      ∧ exec .pchk t = .next t

/-- Corner cases of PCHK (spec/42_parser.md R132 (a), (b), (d)): PLEN = 0 passes exactly when TRAILER = 0; an all-zero payload of any length has checksum 0; after a BUILD, with PLEN unchanged and TRAILER = PCSUM, PCHK succeeds. -/
def Obligations.PchkCornerCases : Prop :=
  (∀ s : State, s.hasSession = true → len9 (s.reg .plen) = 0 →
    ∃ t, exec .pchk s = .next t ∧ t.reg .pcsum = 0 ∧ (t.reg .status = statusWith s 0 ↔ s.reg .trailer = 0))
  ∧ (∀ (s : State) (p : Word), s.hasSession = true → s.tbl = buildTable p → (∀ i < len9 (s.reg .plen), s.byteAt .pay i = 0) →
      ∃ t, exec .pchk s = .next t ∧ t.reg .pcsum = 0)
  ∧ ∀ (s : State) (ty : AccessType), s.hasSession = true → ty ≠ .unused → len9 (s.reg .plen) ≠ 0 →
      ∃ t u, exec (.build ty) s = .next t ∧ exec .pchk (t.setReg .trailer (t.reg .pcsum)) = .next u ∧ u.reg .status = statusWith s 0

/-! ### Errors, status and the whole machine -/

/-- spec/60_exceptions.md R171: while STATUS.SESSION = 0 every operation but INIT does nothing except set ERR = 13; so after reset. -/
def Obligations.NoSessionDoesNothing : Prop :=
  (∀ (s : State) (i : Instr), i ≠ .init → s.hasSession = false → exec i s = .next (s.setReg .status (statusWith s 13)))
  ∧ State.reset.hasSession = false

/-- spec/60_exceptions.md R173: every CMD write ends with CMD = the word and one result code, and the state a failed operation leaves is exactly what its pseudocode had written up to the `finish`: nothing but the listed registers differs, and SEQ (code 1), the RHDR registers and HCSUM (code 4) and PCSUM (code 5) hold the values written. -/
def Obligations.FailedOperationChangesOnlyItsFootprint : Prop :=
  ∀ (s : State) (rest : List HostEvent) (w : Word), s.pending = .regWrite 0 w :: rest →
    ∃ t, step s = .next t ∧ t.reg .cmd = w
      ∧ (errField (t.reg .status) = 12 → BlockOnly [.cmd, .status] s t)
      ∧ (errField (t.reg .status) = 13 → BlockOnly [.cmd, .status] s t)
      ∧ (errField (t.reg .status) = 1 → BlockOnly [.cmd, .status, .seq] s t
          ∧ (t.reg .seq).toNat = ((s.reg .seq).toNat + 1) % 16)
      ∧ (errField (t.reg .status) = 4 → BlockOnly [.cmd, .status, .rhdrA, .rhdrC, .rhdrS, .rhdrL, .rhdrK, .hcsum] s t
          ∧ HeaderSplit s t ∧ t.reg .hcsum ≠ t.reg .rhdrK)
      ∧ (errField (t.reg .status) = 5 → BlockOnly [.cmd, .status, .pcsum] s t
          ∧ t.reg .pcsum = payloadChecksum s ∧ t.reg .pcsum ≠ s.reg .trailer)
      ∧ (errField (t.reg .status) ≠ 0 → t.reg .status = statusWith s (errField (t.reg .status)))

/-- The code a CMD write leaves and the fixed order of the checks (spec/60_exceptions.md R174, R170): decode, then session, then the operation's own check. -/
def Obligations.ErrorPrecedence : Prop :=
  ∀ (s : State) (rest : List HostEvent) (w : Word), s.pending = .regWrite 0 w :: rest →
    ∃ t, step s = .next t ∧ errField (t.reg .status) = errOf s w

/-- An error does not block, disable or alter later operations (spec/60_exceptions.md R175): what an operation does does not depend on the ERR it finds. -/
def Obligations.ErrorsDoNotAlterLaterOperations : Prop :=
  ∀ (i : Instr) (s : State) (code : BitVec 4), exec i (s.setReg .status (statusWith s code)) = exec i s

/-- spec/10_state.md R14: every command write overwrites ERR with a code the block produces, SESSION is set by INIT alone and cleared by reset alone, no other access changes STATUS, bits 15:5 stay zero, the reset value is 0. -/
def Obligations.StatusHoldsTheLastResult : Prop :=
  State.reset.reg .status = 0x0000#16
  ∧ ∀ (s t : State) (e : HostEvent) (rest : List HostEvent), s.pending = e :: rest → step s = .next t →
    (e = .hardReset → t.reg .status = 0x0000#16)
    ∧ (e ≠ .hardReset → (∀ w, e ≠ .regWrite 0 w) → t.reg .status = s.reg .status)
    ∧ (∀ w, e = .regWrite 0 w →
        errField (t.reg .status) ∈ ([0, 1, 4, 5, 12, 13] : List (BitVec 4))
        ∧ t.hasSession = (s.hasSession || decide (decode w = .op .init)))
    ∧ (s.reg .status &&& 0xFFE0#16 = 0 → t.reg .status &&& 0xFFE0#16 = 0)

/-- spec/20_memory.md R56: TBL and DEST change only when an INIT (or a hard reset) happens; an operation other than INIT sees neither POLY nor ADDR; an INIT makes POLY seen completely and copies ADDR to DEST. -/
def Obligations.PolyAndAddrAreSeenOnlyAtInit : Prop :=
  (∀ (s t : State) (e : HostEvent) (rest : List HostEvent), s.pending = e :: rest → step s = .next t → e ≠ .hardReset →
    (∀ w, e = .regWrite 0 w → decode w ≠ .op .init) → t.tbl = s.tbl ∧ t.reg .dest = s.reg .dest)
  ∧ (∀ (i : Instr) (s : State) (r : Reg) (v : Word), i ≠ .init → r = .poly ∨ r = .addr →
      ∃ t, exec i s = .next t ∧ exec i (s.setReg r v) = .next (t.setReg r v))
  ∧ ∀ s : State, ∃ t, exec .init s = .next t ∧ (∀ b : Byte, t.tblAt b.toNat = shiftRegister (s.reg .poly) 0 b)
      ∧ (t.reg .dest).toNat = (s.reg .addr).toNat % 256

/-- The write half of spec/20_memory.md R59: no operation writes a register outside its list, PAY or RX, or the model's own fields; only INIT writes TBL, only indexes below 256; only BUILD writes TX, and only below 10 + PLEN. -/
def Obligations.OperationsWriteOnlyTheirFootprint : Prop :=
  ∀ (i : Instr) (s : State), ∃ t, exec i s = .next t
    ∧ (∀ r, r ∉ regsWritten i → t.reg r = s.reg r)
    ∧ t.bytes .pay = s.bytes .pay ∧ t.bytes .rx = s.bytes .rx
    ∧ (i ≠ .init → t.tbl = s.tbl) ∧ (∀ k, 256 ≤ k → i = .init → Memory.read? t.tbl k = none)
    ∧ ((∀ ty, i ≠ .build ty) → t.bytes .tx = s.bytes .tx)
    ∧ (∀ k, 10 + len9 (s.reg .plen) ≤ k → Memory.read? (t.bytes .tx) k = Memory.read? (s.bytes .tx) k)
    ∧ t.pending = s.pending ∧ t.reply = s.reply ∧ t.resets = s.resets

/-- The read half of spec/20_memory.md R59, as noninterference: if two states agree on SESSION and on what an operation reads (its registers, the table elements, PAY[0..PLEN-1], RX[0..7]), then the operation leaves in each register, in each element of TBL and in each byte of TX, the same value in both, or leaves it unchanged in both; and the same ERR. -/
def Obligations.OperationsReadOnlyTheirFootprint : Prop :=
  ∀ (i : Instr) (s s' : State), s'.hasSession = s.hasSession → (∀ r ∈ regsRead i, s'.reg r = s.reg r) →
    (∀ k, tableIndexRead i s k → s'.tblAt k = s.tblAt k) →
    (readsPayload i = true → ∀ k < len9 (s.reg .plen), s'.byteAt .pay k = s.byteAt .pay k) →
    (readsRx i = true → ∀ k < 8, s'.byteAt .rx k = s.byteAt .rx k) →
    ∃ t t', exec i s = .next t ∧ exec i s' = .next t'
      ∧ (∀ r, r ≠ .status → t'.reg r = t.reg r ∨ (t.reg r = s.reg r ∧ t'.reg r = s'.reg r))
      ∧ (∀ k < 256, t'.tblAt k = t.tblAt k ∨ (t.tblAt k = s.tblAt k ∧ t'.tblAt k = s'.tblAt k))
      ∧ (∀ k, t'.byteAt .tx k = t.byteAt .tx k ∨ (t.byteAt .tx k = s.byteAt .tx k ∧ t'.byteAt .tx k = s'.byteAt .tx k))
      ∧ errField (t'.reg .status) = errField (t.reg .status) ∧ t'.hasSession = t.hasSession

/-! ### The firmware side -/

/-- Interrupted waits are invisible (spec/43_firmware_contract.md R150, R151, R155, R156): reading a header, reading a payload and the whole receive path end as they do on the line without them, and what is left of the line is the same but for them. -/
def Obligations.InterruptedWaitsAreInvisible : Prop :=
  let without := List.filter fun e : LineEvent => decide (e ≠ .interrupted)
  (∀ (n : Nat) (line : List LineEvent), (readExactly n (without line)).1 = (readExactly n line).1
    ∧ (readExactly n (without line)).2 = without (readExactly n line).2)
  ∧ (∀ (n capacity : Nat) (line : List LineEvent), readPayload n capacity (without line) =
      { readPayload n capacity line with line := without (readPayload n capacity line).line })
  ∧ ∀ (p : FirmwareParams) (capacity : Nat) (sent : List Byte) (line : List LineEvent) (s : State),
      ∃ e, receive p capacity sent line s = .next e
        ∧ receive p capacity sent (without line) s = .next { e with line := without e.line }

/-- spec/43_firmware_contract.md R153: of a response whose header checks out, only status1 = complete goes on; each other named value gives its failure and any other value ResponseUnknownStatus; on a failure decoding stops, no payload is read. -/
def Obligations.StatusOneDecidesTheFailure : Prop :=
  ∀ (p : FirmwareParams) (s : State) (h0 h1 h2 st h4 h5 h6 h7 : Byte) (capacity : Nat) (sent : List Byte) (line : List LineEvent),
    p.wf = true → s.hasSession = true → foldBytes s.table 0 [h0, h1, h2, st, h4, h5] = h6 ++ h7 →
    ∃ e, receive p capacity sent ([h0, h1, h2, st, h4, h5, h6, h7].map LineEvent.byte ++ line) s = .next e
      ∧ (st = p.incomplete → e.verdict = .failed 6) ∧ (st = p.invalid → e.verdict = .failed 7)
      ∧ (st = p.noAccess → e.verdict = .failed 8) ∧ (st = p.frameErr → e.verdict = .failed 9)
      ∧ (st ∉ [p.complete, p.incomplete, p.invalid, p.noAccess, p.frameErr] → e.verdict = .failed 10)
      ∧ (st ≠ p.complete → e.line = line ∧ e.buffer = [])
      ∧ (st = p.complete → ∀ c ∈ ([6, 7, 8, 9, 10] : List (BitVec 4)), e.verdict ≠ .failed c)

/-- Send failures (spec/43_firmware_contract.md R141, R142): with access type 0 the exchange ends with code 1 and nothing is sent; otherwise a write that takes another number of bytes than TXLEN ends it with code 2, nothing is read, and what went out is the first bytes of the frame. -/
def Obligations.SendFailuresEndTheExchange : Prop :=
  ∀ (p : FirmwareParams) (q : Request) (capacity written : Nat) (line : List LineEvent) (s : State),
    s.hasSession = true → q.wf = true →
    (q.ty = .unused → ∃ e, exchange p q capacity written line s = .next e ∧ e.verdict = .failed 1 ∧ e.sent = [] ∧ e.line = line)
    ∧ (q.ty ≠ .unused → written ≠ (if q.payload.length = 0 then 8 else 10 + q.payload.length) →
        ∃ e, exchange p q capacity written line s = .next e ∧ e.verdict = .failed 2 ∧ e.line = line ∧ e.buffer = []
          ∧ e.sent = (e.block.bytesFrom .tx 0 (e.block.reg .txlen).toNat).take written)

/-- The caller's buffer is never overrun (spec/43_firmware_contract.md R155): whatever comes on the line, at most `capacity` bytes are stored, and a read that succeeds stores exactly n. PayloadBufferOverflow happens only where n is more than the capacity, and then the buffer is full; it does happen when more bytes than the capacity arrive before a timeout. That the check is made byte by byte, so that the buffer is full on an overflow, is the model's choice (log 18). -/
def Obligations.PayloadNeverOverrunsTheBuffer : Prop :=
  ∀ (n capacity : Nat) (line : List LineEvent),
    (readPayload n capacity line).stored.length ≤ capacity
    ∧ (readPayload n capacity line).stored.length ≤ n
    ∧ ((readPayload n capacity line).failure = none → (readPayload n capacity line).stored.length = n)
    ∧ ((readPayload n capacity line).failure = some .payloadBufferOverflow →
        capacity < n ∧ (readPayload n capacity line).stored.length = capacity)
    ∧ (∀ bytes : List Byte, bytes.length = capacity + 1 → capacity < n →
        (readPayload n capacity (bytes.map LineEvent.byte ++ line)).failure = some .payloadBufferOverflow
        ∧ (readPayload n capacity (bytes.map LineEvent.byte ++ line)).stored = bytes.take capacity)
    ∧ ((readPayload n capacity line).failure = none ∨ (readPayload n capacity line).failure = some .readTimeout
        ∨ (readPayload n capacity line).failure = some .payloadBufferOverflow)

/-- The round trip of the source (spec/95_test_vectors.md S10, program P4; spec/43_firmware_contract.md R150 to R157): a write or read-write request with a payload of whole words (none included), answered by the echo of a cooperative drive whose checksums use the session's table, ends with the payload unchanged in the caller's buffer and 8 + its length bytes read; the frame sent is the one BUILD made, TX[0..TXLEN-1], with the payload in it. (A payload of odd length is not one the data model has: spec/41_framer.md R115(b), spec/70_reset_and_hazards.md R205.) -/
def Obligations.EchoReturnsThePayload : Prop :=
  ∀ (p : FirmwareParams) (q : Request) (s : State) (capacity : Nat) (m st2 : Byte) (line : List LineEvent),
    s.hasSession = true → (q.ty = .write ∨ q.ty = .readWrite) → q.payload.length ≤ 510 → q.payload.length % 2 = 0 →
    q.payload.length ≤ capacity → p.dataBearing q.ty.code = true →
    let control := BitVec.ofNat 8 (((s.reg .seq).toNat + 1) % 16 * 4 + q.ty.code.toNat)
    let h := echoHeader p.complete m control st2 (BitVec.ofNat 8 (q.payload.length / 2))
    let hc := foldBytes s.table 0 h
    let pc := foldBytes s.table 0 q.payload
    let echo := h ++ [hiByte hc, loByte hc] ++ q.payload ++ [hiByte pc, loByte pc]
    let size := if q.payload = [] then 8 else 10 + q.payload.length
    ∃ e, exchange p q capacity size (echo.map LineEvent.byte ++ line) s = .next e
      ∧ e.verdict = .total (8 + q.payload.length) ∧ e.buffer = q.payload ∧ e.line = line
      ∧ e.sent.length = size ∧ (e.block.reg .txlen).toNat = size
      ∧ e.sent = (List.range size).map (e.block.byteAt .tx) ∧ (e.sent.drop 8).take q.payload.length = q.payload
      ∧ errField (e.block.reg .status) = 0 ∧ (e.block.reg .seq).toNat = ((s.reg .seq).toNat + 1) % 16

/-- The facade's calls (spec/43_firmware_contract.md R162), with the whole frame sent: each sends one frame with its access type, index, offset, word count and payload, and stores no more than its capacity. getString asks for maxSize / 2 words, getUint16 and getUint32 are it with sizes 2 and 4; writeString sends the given bytes and stores nothing, its response being expected to carry no payload (capacity 0: log 20), and writeUint16 and writeUint32 send their bytes in the order given; getAccessControl is a write, getProductInfo and getCommandParam are reads, at constants the source does not give, whatever they are (log 20). -/
def Obligations.FacadeCallsAreExchanges : Prop :=
  ∀ (p : FirmwareParams) (index offset : Byte) (line : List LineEvent) (s : State), s.hasSession = true →
    (∀ maxSize : BitVec 9, Sends (getString p index offset maxSize 8 line s) 1 index offset (maxSize.toNat / 2) [] maxSize.toNat)
    ∧ Sends (getUint16 p index offset 8 line s) 1 index offset 1 [] 2
    ∧ Sends (getUint32 p index offset 8 line s) 1 index offset 2 [] 4
    ∧ (∀ bytes : List Byte, bytes.length ≤ 511 →
        Sends (writeString p index offset bytes (frameSize bytes) line s) 2 index offset (bytes.length / 2) bytes 0)
    ∧ (∀ b0 b1 : Byte, Sends (writeUint16 p index offset b0 b1 12 line s) 2 index offset 1 [b0, b1] 0)
    ∧ (∀ b0 b1 b2 b3 : Byte, Sends (writeUint32 p index offset b0 b1 b2 b3 14 line s) 2 index offset 2 [b0, b1, b2, b3] 0)
    ∧ ∀ c : FacadeParams,
        (c.accessMask.length ≤ 511 →
          Sends (getAccessControl c p (frameSize c.accessMask) line s) 2 c.accessControl.index c.accessControl.offset
            (c.accessMask.length / 2) c.accessMask 0)
        ∧ Sends (getProductInfo c p 8 line s) 1 c.productInfo.index c.productInfo.offset (c.productInfoSize.toNat / 2) []
            c.productInfoSize.toNat
        ∧ ∀ n, Sends (getCommandParam c p n 8 line s) 1 (c.commandParam n).index (c.commandParam n).offset
            ((c.commandParamSize n).toNat / 2) [] (c.commandParamSize n).toNat

/-! ### The host's contract -/

/-- The rows of spec/43_firmware_contract.md R163, of every move the contract allows: INIT before any other operation; the operands and buffer bytes before BUILD, PARSE and PCHK; ERR read after BUILD before anything else is commanded; only the frame TX[0..TXLEN-1] transmitted, only after ERR = 0; the count compared before the exchange ends, before a BUILD and before anything received is checked; ERR read before a field of the header is used; no BUILD while a response is outstanding; even lengths where the data model is to be kept; one caller at a time; no access that does not exist. And what the host may always do. Where R163 leaves a row open, log 21 says what is taken. -/
def Obligations.HostContractRows : Prop :=
  (∀ (even : Bool) (r : HostRecord) (caller : Nat) (m : HostMove) (s : State), moveAllowed even r caller m s = true →
    (∀ w i, m = .access (.regWrite 0 w) → decode w = .op i →
      (i ≠ .init → r.created = true) ∧ r.phase ≠ .built
      ∧ (∀ ty, i = .build ty → r.phase ≠ .outstanding ∧ Reg.index ∈ r.operands ∧ Reg.offset ∈ r.operands ∧ Reg.plen ∈ r.operands
          ∧ (ty = .read → Reg.rlen ∈ r.operands)
          ∧ (∀ k < len9 (s.reg .plen), (Memory.read? (s.bytes .pay) k).isSome = true)
          ∧ (even = true → len9 (s.reg .plen) % 2 = 0))
      ∧ (i = .parse → ∀ k < 8, k ∈ r.header)
      ∧ (i = .pchk → Reg.plen ∈ r.operands ∧ Reg.trailer ∈ r.operands
          ∧ ∀ k < len9 (s.reg .plen), (Memory.read? (s.bytes .pay) k).isSome = true))
    ∧ (∀ bytes written, m = .transmit bytes written →
        r.phase = .ready ∧ bytes = (List.range ((s.reg .txlen).toNat % 1024)).map (s.byteAt .tx))
    ∧ (m = .useHeader → r.headerChecked = true)
    ∧ (m = .endExchange → r.phase ≠ .built)
    ∧ (∀ n, r.phase = .transmitted n → m ≠ .endExchange ∧ (∀ ty, ¬Issues m (.build ty)) ∧ ¬Issues m .parse ∧ ¬Issues m .pchk)
    ∧ (∀ other, r.holder = some other → other ≠ caller → leavesTheBlockToItsHolder m)
    ∧ ∀ e, m = .access e → e.wf = true)
  ∧ (∀ (even : Bool) (r : HostRecord) (caller : Nat) (e : HostEvent) (s : State), isHostRead e = true → e.wf = true →
      moveAllowed even r caller (.access e) s = true)
  ∧ ∀ (even : Bool) (r : HostRecord) (caller : Nat) (s : State), r.holder = none ∨ r.holder = some caller →
      (∀ n q bits v, (n, q, bits) ∈ rwRegisters → moveAllowed even r caller (.access (.regWrite n v)) s = true)
      ∧ (∀ i v, i < 512 → moveAllowed even r caller (.access (.byteWrite .pay i v)) s = true)
      ∧ ∀ i v, i < 8 → moveAllowed even r caller (.access (.byteWrite .rx i v)) s = true

/-- How the host's record comes about (spec/43_firmware_contract.md R163; readings: log 21), of every move: INIT alone makes `created`; a register enters the operands only by a host write of it, an index of RX the header only by a write of that byte, and a BUILD empties the header; `last` is the most recent operation; the header counts as checked only by a STATUS read that finds ERR = 0 while the last operation is PARSE, and a PARSE undoes it; each phase is entered only by the move it names; the block is held by who made a move other than a read, until the exchange ends; a hard reset empties the record. And, of moves the contract allows: a response stays outstanding, and a count uncompared, until the exchange ends or the count is compared. -/
def Obligations.HostRecordFollowsTheMoves : Prop :=
  ∀ (r : HostRecord) (caller : Nat) (m : HostMove) (s : State),
    let r' := r.after caller m s
    let noError := errField (s.reg .status) = 0
    (m = .access .hardReset → r' = HostRecord.initial)
    ∧ (m ≠ .access .hardReset →
      (r'.created = true ↔ r.created = true ∨ Issues m .init)
      ∧ (∀ q, q ∈ r'.operands ↔ q ∈ r.operands ∨ (q ≠ .cmd ∧ ∃ v, m = .access (.regWrite (regNumber q) v)))
      ∧ (∀ k, k ∈ r'.header ↔ (∀ ty, ¬Issues m (.build ty)) ∧ (k ∈ r.header ∨ ∃ v, m = .access (.byteWrite .rx k v)))
      ∧ (∀ i, Issues m i → r'.last = some i) ∧ ((∀ w, m ≠ .access (.regWrite 0 w)) → r'.last = r.last)
      ∧ (r'.headerChecked = true ↔
          ¬Issues m .parse ∧ (r.headerChecked = true ∨ (ReadsStatus r caller m ∧ r.last = some .parse ∧ noError)))
      ∧ (r'.phase = .built → r.phase = .built ∨ ∃ ty, Issues m (.build ty)) ∧ (∀ ty, Issues m (.build ty) → r'.phase = .built)
      ∧ (r'.phase = .ready → r.phase = .ready ∨ (r.phase = .built ∧ ReadsStatus r caller m ∧ noError))
      ∧ (r.phase = .built → ReadsStatus r caller m → (r'.phase = .ready ↔ noError) ∧ (r'.phase = .idle ↔ ¬noError))
      ∧ (∀ n, r'.phase = .transmitted n → r.phase = .transmitted n ∨ ∃ bytes, m = .transmit bytes n)
      ∧ (∀ bytes n, m = .transmit bytes n → r'.phase = .transmitted n)
      ∧ (r'.phase = .outstanding →
          r.phase = .outstanding ∨ (m = .compareCount ∧ r.phase = .transmitted ((s.reg .txlen).toNat % 1024)))
      ∧ (∀ n, r.phase = .transmitted n → m = .compareCount →
          r'.phase = if n = (s.reg .txlen).toNat % 1024 then .outstanding else .idle)
      ∧ (m = .endExchange → r'.phase = .idle ∧ r'.holder = none)
      ∧ (r'.holder = none → r.holder = none ∨ m = .endExchange)
      ∧ (∀ c, r'.holder = some c → r.holder = some c ∨ c = caller))
    ∧ ∀ even : Bool, moveAllowed even r caller m s = true →
      (∀ e, m = .access e → isHostRead e = false → e ≠ .hardReset → r'.holder = some caller)
      ∧ (r.phase = .outstanding → r'.phase = .outstanding ∨ m = .endExchange ∨ m = .access .hardReset)
      ∧ ∀ n, r.phase = .transmitted n → r'.phase = .transmitted n ∨ m = .compareCount ∨ m = .access .hardReset

/-- What a host that keeps the contract (spec/43_firmware_contract.md R163) can rely on, as a step lemma, with the readings of R163 that are the model's choice (log 21; that an Illegal word is no move of this host is one of them): its record agrees with the block at reset; every move the contract allows goes through, and the record agrees with the block after it; and no operation it issues reports NoSession or IllegalCommand. -/
def Obligations.ContractKeepsRecordAndBlockInStep : Prop :=
  RecordAgrees HostRecord.initial State.reset
  ∧ ∀ (even : Bool) (r : HostRecord) (caller : Nat) (m : HostMove) (s : State), RecordAgrees r s →
      moveAllowed even r caller m s = true →
      ∃ t, hostMove m s = .next t ∧ RecordAgrees (r.after caller m s) t
        ∧ ∀ w, m = .access (.regWrite 0 w) → errField (t.reg .status) ∈ ([0, 1, 4, 5] : List (BitVec 4))

/-- A host that keeps the contract (spec/43_firmware_contract.md R163, spec/70_reset_and_hazards.md R198) has the block read no element nothing has written: neither the table, nor PAY, nor RX in the operation it issues, nor TX in the frame it sends. The contract is R163 as the model reads it (log 21: PAY written since the last hard reset and RX since the most recent BUILD are the model's choice). So nothing it computes or sends rests on a free value of log 3. -/
def Obligations.ContractReadsNothingUnwritten : Prop :=
  ∀ (even : Bool) (r : HostRecord) (caller : Nat) (s : State), RecordAgrees r s →
    (∀ (w : Word) (i : Instr), decode w = .op i → moveAllowed even r caller (.access (.regWrite 0 w)) s = true →
      (∀ k, tableIndexRead i s k → (Memory.read? s.tbl k).isSome = true)
      ∧ (readsPayload i = true → ∀ k < len9 (s.reg .plen), (Memory.read? (s.bytes .pay) k).isSome = true)
      ∧ (readsRx i = true → ∀ k < 8, (Memory.read? (s.bytes .rx) k).isSome = true))
    ∧ ∀ bytes written, moveAllowed even r caller (.transmit bytes written) s = true →
        ∀ k < bytes.length, (Memory.read? (s.bytes .tx) k).isSome = true ∧ bytes[k]? = some (s.byteAt .tx k)

/-- The firmware keeps its contract (spec/43_firmware_contract.md R141 to R163): the moves of every exchange, whatever the transport and the line do, keep the contract from every record with a session created, no frame on its way and no other caller; made on the block, they leave what the exchange leaves (but for `reply`, log 2). The contract is R163 as the model reads it, its open points being the model's choice (log 21). With a payload of even length they keep the data model's row too. -/
def Obligations.ExchangeKeepsTheContract : Prop :=
  ∀ (p : FirmwareParams) (q : Request) (capacity written : Nat) (line : List LineEvent) (s : State) (r : HostRecord) (caller : Nat)
    (even : Bool), q.wf = true → (even = true → q.payload.length % 2 = 0) →
    r.created = true → r.phase = .idle → (r.holder = none ∨ r.holder = some caller) →
    ∃ e, exchange p q capacity written line s = .next e
      ∧ keepsContract even r (e.moves.map fun m => (caller, m)) s = true
      ∧ ∃ x, runMoves e.moves s = .next (e.block.setReply x)
end

