-- ==== Sys2Proof/Laws/Memory.lean ====
section
/-! SUPPORT. The laws of the buffers: a read after a write, canonical form kept, indexes kept in range. -/

namespace Sys2Proof.Machine

variable {width : Nat}

/-- What a write leaves at each index. -/
theorem Memory.read?_write (m : Memory width) (i j : Nat) (v : BitVec width) :
    Memory.read? (Memory.write m i v) j = if j = i then some v else Memory.read? m j := by
  induction m with
  | nil => simp [Memory.write, Memory.read?, eq_comm (a := i)]
  | cons c m ih =>
    obtain ⟨k, x⟩ := c
    simp only [Memory.write]
    by_cases hji : j = i
    · subst hji
      by_cases h1 : j < k
      · simp [h1, Memory.read?]
      · by_cases h2 : k = j <;> simp [h1, h2, Memory.read?, ih]
    · have hij : i ≠ j := fun h => hji h.symm
      by_cases h1 : i < k
      · simp [h1, hji, hij, Memory.read?]
      · by_cases h2 : k = i
        · simp [h2, hji, hij, Memory.read?]
        · simp [h1, h2, hji, Memory.read?, ih]

theorem Memory.risingFrom_write (m : Memory width) (i : Nat) (v : BitVec width) :
    ∀ lo, lo ≤ i → Memory.risingFrom lo m = true → Memory.risingFrom lo (Memory.write m i v) = true := by
  induction m with
  | nil => intro lo hl _; simp [Memory.write, Memory.risingFrom, hl]
  | cons c m ih =>
    obtain ⟨k, x⟩ := c
    intro lo hl h
    simp only [Memory.risingFrom, Bool.and_eq_true, decide_eq_true_eq] at h
    simp only [Memory.write]
    split
    · simp only [Memory.risingFrom, Bool.and_eq_true, decide_eq_true_eq]; exact ⟨hl, by omega, h.2⟩
    · split
      · subst_vars; simp only [Memory.risingFrom, Bool.and_eq_true, decide_eq_true_eq]; exact ⟨hl, h.2⟩
      · simp only [Memory.risingFrom, Bool.and_eq_true, decide_eq_true_eq]; exact ⟨h.1, ih _ (by omega) h.2⟩

/-- A write keeps the canonical form. -/
theorem Memory.wf_write (m : Memory width) (i : Nat) (v : BitVec width) (h : Memory.wf m = true) :
    Memory.wf (Memory.write m i v) = true :=
  Memory.risingFrom_write m i v 0 (Nat.zero_le _) h

/-- A write inside the buffer keeps every index inside it. -/
theorem Memory.within_write (size : Nat) (m : Memory width) (i : Nat) (v : BitVec width)
    (h : Memory.within size m = true) (hi : i < size) : Memory.within size (Memory.write m i v) = true := by
  simp only [Memory.within] at *
  induction m with
  | nil => simp [Memory.write, hi]
  | cons c m ih =>
    obtain ⟨k, x⟩ := c
    simp only [List.all_cons, Bool.and_eq_true, decide_eq_true_eq] at h
    simp only [Memory.write]
    split
    · simp only [List.all_cons, Bool.and_eq_true, decide_eq_true_eq]; exact ⟨hi, h.1, h.2⟩
    · split
      · simp only [List.all_cons, Bool.and_eq_true, decide_eq_true_eq]; exact ⟨hi, h.2⟩
      · simp only [List.all_cons, Bool.and_eq_true, decide_eq_true_eq]; exact ⟨h.1, ih h.2⟩

/-- A list of writes keeps the canonical form. -/
theorem Memory.wf_writeList (vs : List (BitVec width)) :
    ∀ (m : Memory width) (i : Nat), Memory.wf m = true → Memory.wf (Memory.writeList m i vs) = true := by
  induction vs with
  | nil => intro m i h; exact h
  | cons v vs ih => intro m i h; exact ih _ _ (Memory.wf_write m i v h)

/-- A list of writes inside the buffer keeps every index inside it. -/
theorem Memory.within_writeList (size : Nat) (vs : List (BitVec width)) :
    ∀ (m : Memory width) (i : Nat), Memory.within size m = true → i + vs.length ≤ size →
      Memory.within size (Memory.writeList m i vs) = true := by
  induction vs with
  | nil => intro m i h _; exact h
  | cons v vs ih =>
    intro m i h hl
    simp only [List.length_cons] at hl
    exact ih _ _ (Memory.within_write size m i v h (by omega)) (by omega)

/-- What a list of writes leaves at each index: the new value inside the list's range, the old one outside. -/
theorem Memory.read?_writeList (vs : List (BitVec width)) :
    ∀ (m : Memory width) (i j : Nat),
      Memory.read? (Memory.writeList m i vs) j = if i ≤ j ∧ j < i + vs.length then vs[j - i]? else Memory.read? m j := by
  induction vs with
  | nil => intro m i j; rw [if_neg (by simp)]; rfl
  | cons v vs ih =>
    intro m i j
    simp only [Memory.writeList, ih, Memory.read?_write, List.length_cons]
    by_cases hj : j = i
    · subst hj; simp
    · by_cases hr : i + 1 ≤ j ∧ j < i + 1 + vs.length
      · obtain ⟨d, rfl⟩ : ∃ d, j = i + 1 + d := ⟨j - (i + 1), by omega⟩
        rw [if_pos (by omega), if_pos (by omega)]
        rw [show i + 1 + d - i = d + 1 by omega, show i + 1 + d - (i + 1) = d by omega]
        simp
      · rw [if_neg (by omega), if_neg hj, if_neg (by omega)]

end Sys2Proof.Machine
end

