-- ==== Sys2Proof/Laws/State.lean ====
section
/-! SUPPORT. What each update of the state does to each field: the simp set that keeps later proofs from unfolding a record update. -/

namespace Sys2Proof.Machine

@[simp] theorem reg_setReg (s : State) (r q : Reg) (v : Word) :
    (s.setReg r v).reg q = if q = r then v else s.reg q := by
  cases r <;> cases q <;> rfl

@[simp] theorem setReg_tbl (s : State) (r : Reg) (v : Word) : (s.setReg r v).tbl = s.tbl := by cases r <;> rfl
@[simp] theorem setReg_pay (s : State) (r : Reg) (v : Word) : (s.setReg r v).pay = s.pay := by cases r <;> rfl
@[simp] theorem setReg_tx (s : State) (r : Reg) (v : Word) : (s.setReg r v).tx = s.tx := by cases r <;> rfl
@[simp] theorem setReg_rx (s : State) (r : Reg) (v : Word) : (s.setReg r v).rx = s.rx := by cases r <;> rfl
@[simp] theorem setReg_pending (s : State) (r : Reg) (v : Word) : (s.setReg r v).pending = s.pending := by cases r <;> rfl
@[simp] theorem setReg_reply (s : State) (r : Reg) (v : Word) : (s.setReg r v).reply = s.reply := by cases r <;> rfl
@[simp] theorem setReg_resets (s : State) (r : Reg) (v : Word) : (s.setReg r v).resets = s.resets := by cases r <;> rfl

@[simp] theorem setReg_bytes (s : State) (r : Reg) (v : Word) (sp : ByteSpace) :
    (s.setReg r v).bytes sp = s.bytes sp := by
  cases sp <;> simp [State.bytes]

@[simp] theorem reg_setBytes (s : State) (sp : ByteSpace) (m : Memory 8) (r : Reg) :
    (s.setBytes sp m).reg r = s.reg r := by
  cases sp <;> cases r <;> rfl

@[simp] theorem bytes_setBytes (s : State) (sp sq : ByteSpace) (m : Memory 8) :
    (s.setBytes sp m).bytes sq = if sq = sp then m else s.bytes sq := by
  cases sp <;> cases sq <;> rfl

@[simp] theorem setBytes_tbl (s : State) (sp : ByteSpace) (m : Memory 8) : (s.setBytes sp m).tbl = s.tbl := by cases sp <;> rfl
@[simp] theorem setBytes_pending (s : State) (sp : ByteSpace) (m : Memory 8) : (s.setBytes sp m).pending = s.pending := by cases sp <;> rfl
@[simp] theorem setBytes_reply (s : State) (sp : ByteSpace) (m : Memory 8) : (s.setBytes sp m).reply = s.reply := by cases sp <;> rfl
@[simp] theorem setBytes_resets (s : State) (sp : ByteSpace) (m : Memory 8) : (s.setBytes sp m).resets = s.resets := by cases sp <;> rfl

@[simp] theorem reg_setTbl (s : State) (m : Memory 16) (r : Reg) : (s.setTbl m).reg r = s.reg r := by cases r <;> rfl
@[simp] theorem setTbl_tbl (s : State) (m : Memory 16) : (s.setTbl m).tbl = m := rfl
@[simp] theorem setTbl_bytes (s : State) (m : Memory 16) (sp : ByteSpace) : (s.setTbl m).bytes sp = s.bytes sp := by cases sp <;> rfl
@[simp] theorem setTbl_pending (s : State) (m : Memory 16) : (s.setTbl m).pending = s.pending := rfl
@[simp] theorem setTbl_reply (s : State) (m : Memory 16) : (s.setTbl m).reply = s.reply := rfl
@[simp] theorem setTbl_resets (s : State) (m : Memory 16) : (s.setTbl m).resets = s.resets := rfl

@[simp] theorem reg_setPending (s : State) (es : List HostEvent) (r : Reg) : (s.setPending es).reg r = s.reg r := by cases r <;> rfl
@[simp] theorem setPending_tbl (s : State) (es : List HostEvent) : (s.setPending es).tbl = s.tbl := rfl
@[simp] theorem setPending_bytes (s : State) (es : List HostEvent) (sp : ByteSpace) : (s.setPending es).bytes sp = s.bytes sp := by cases sp <;> rfl
@[simp] theorem setPending_pending (s : State) (es : List HostEvent) : (s.setPending es).pending = es := rfl
@[simp] theorem setPending_reply (s : State) (es : List HostEvent) : (s.setPending es).reply = s.reply := rfl
@[simp] theorem setPending_resets (s : State) (es : List HostEvent) : (s.setPending es).resets = s.resets := rfl

@[simp] theorem reg_setReply (s : State) (x : Option Reply) (r : Reg) : (s.setReply x).reg r = s.reg r := by cases r <;> rfl
@[simp] theorem setReply_tbl (s : State) (x : Option Reply) : (s.setReply x).tbl = s.tbl := rfl
@[simp] theorem setReply_bytes (s : State) (x : Option Reply) (sp : ByteSpace) : (s.setReply x).bytes sp = s.bytes sp := by cases sp <;> rfl
@[simp] theorem setReply_pending (s : State) (x : Option Reply) : (s.setReply x).pending = s.pending := rfl
@[simp] theorem setReply_reply (s : State) (x : Option Reply) : (s.setReply x).reply = x := rfl
@[simp] theorem setReply_resets (s : State) (x : Option Reply) : (s.setReply x).resets = s.resets := rfl

@[simp] theorem tblAt_setReg (s : State) (r : Reg) (v : Word) (i : Nat) : (s.setReg r v).tblAt i = s.tblAt i := by
  simp [State.tblAt]

@[simp] theorem table_setReg (s : State) (r : Reg) (v : Word) : (s.setReg r v).table = s.table := by
  funext b; simp [State.table]

@[simp] theorem checksum_setReg (s : State) (r : Reg) (v : Word) (bs : List Byte) :
    (s.setReg r v).checksum bs = s.checksum bs := by
  simp [State.checksum]

@[simp] theorem byteAt_setReg (s : State) (r : Reg) (v : Word) (sp : ByteSpace) (i : Nat) :
    (s.setReg r v).byteAt sp i = s.byteAt sp i := by
  simp [State.byteAt]

@[simp] theorem bytesFrom_setReg (s : State) (r : Reg) (v : Word) (sp : ByteSpace) (a n : Nat) :
    (s.setReg r v).bytesFrom sp a n = s.bytesFrom sp a n := by
  simp [State.bytesFrom]

@[simp] theorem tblAt_setBytes (s : State) (sp : ByteSpace) (m : Memory 8) (i : Nat) : (s.setBytes sp m).tblAt i = s.tblAt i := by
  simp [State.tblAt]

@[simp] theorem table_setBytes (s : State) (sp : ByteSpace) (m : Memory 8) : (s.setBytes sp m).table = s.table := by
  funext b; simp [State.table]

@[simp] theorem checksum_setBytes (s : State) (sp : ByteSpace) (m : Memory 8) (bs : List Byte) :
    (s.setBytes sp m).checksum bs = s.checksum bs := by
  simp [State.checksum]

@[simp] theorem tblAt_setPending (s : State) (es : List HostEvent) (i : Nat) : (s.setPending es).tblAt i = s.tblAt i := rfl
@[simp] theorem table_setPending (s : State) (es : List HostEvent) : (s.setPending es).table = s.table := rfl
@[simp] theorem checksum_setPending (s : State) (es : List HostEvent) (bs : List Byte) : (s.setPending es).checksum bs = s.checksum bs := rfl
@[simp] theorem byteAt_setPending (s : State) (es : List HostEvent) (sp : ByteSpace) (i : Nat) : (s.setPending es).byteAt sp i = s.byteAt sp i := by
  simp [State.byteAt]

@[simp] theorem tblAt_setReply (s : State) (x : Option Reply) (i : Nat) : (s.setReply x).tblAt i = s.tblAt i := rfl
@[simp] theorem table_setReply (s : State) (x : Option Reply) : (s.setReply x).table = s.table := rfl
@[simp] theorem checksum_setReply (s : State) (x : Option Reply) (bs : List Byte) : (s.setReply x).checksum bs = s.checksum bs := rfl
@[simp] theorem byteAt_setReply (s : State) (x : Option Reply) (sp : ByteSpace) (i : Nat) : (s.setReply x).byteAt sp i = s.byteAt sp i := by
  simp [State.byteAt]

/-- Two states are equal when every register and every other field is. -/
theorem State.ext_regs {s t : State} (hr : ∀ r, s.reg r = t.reg r) (htbl : s.tbl = t.tbl) (hb : ∀ sp, s.bytes sp = t.bytes sp)
    (hp : s.pending = t.pending) (hy : s.reply = t.reply) (hn : s.resets = t.resets) : s = t := by
  have h := fun r => hr r
  have b := fun sp => hb sp
  cases s; cases t
  simp only [State.mk.injEq]
  exact ⟨h .cmd, h .status, h .poly, h .addr, h .dest, h .seq, h .acc, h .index, h .offset, h .rlen, h .plen, h .trailer,
    h .txlen, h .hcsum, h .pcsum, h .rhdrA, h .rhdrC, h .rhdrS, h .rhdrL, h .rhdrK, htbl, b .pay, b .tx, b .rx, hp, hy, hn⟩

end Sys2Proof.Machine
end

