-- ==== Sys2Proof/Laws/Checksum.lean ====
section
/-! SUPPORT. The checksum engine: the shift register is linear over XOR, the table's contents, folds of concatenated sequences. -/

namespace Sys2Proof.Machine

theorem joinBytes_hi_lo (v : Word) : joinBytes (hiByte v) (loByte v) = v := by
  simp only [joinBytes, hiByte, loByte]
  apply BitVec.eq_of_getLsbD_eq
  intro i hi
  simp only [BitVec.getLsbD_append, BitVec.getLsbD_extractLsb']
  split
  · simp_all
  · rw [show 8 + (i - 8) = i by omega]; simp; omega

@[simp] theorem hiByte_joinBytes (a b : Byte) : hiByte (joinBytes a b) = a := by
  simp only [joinBytes, hiByte]
  apply BitVec.eq_of_getLsbD_eq
  intro i hi
  simp only [BitVec.getLsbD_append, BitVec.getLsbD_extractLsb']
  simp [hi]

@[simp] theorem loByte_joinBytes (a b : Byte) : loByte (joinBytes a b) = b := by
  simp only [joinBytes, loByte]
  apply BitVec.eq_of_getLsbD_eq
  intro i hi
  simp only [BitVec.getLsbD_append, BitVec.getLsbD_extractLsb']
  simp [hi]

theorem hiByte_xor (a b : Word) : hiByte (a ^^^ b) = hiByte a ^^^ hiByte b := by
  apply BitVec.eq_of_getLsbD_eq
  intro i hi
  simp only [hiByte, BitVec.getLsbD_extractLsb', BitVec.getLsbD_xor]
  simp [hi]

theorem loByte_xor (a b : Word) : loByte (a ^^^ b) = loByte a ^^^ loByte b := by
  apply BitVec.eq_of_getLsbD_eq
  intro i hi
  simp only [loByte, BitVec.getLsbD_extractLsb', BitVec.getLsbD_xor]
  simp [hi]

/-- The top-bit test of the shift register is the top bit. -/
theorem topBit_test (x : Word) : x &&& 0x8000#16 ≠ 0#16 ↔ x.getLsbD 15 = true := by
  constructor
  · intro h
    by_contra hx
    apply h
    apply BitVec.eq_of_getLsbD_eq
    intro i hi
    simp only [BitVec.getLsbD_and, BitVec.getLsbD_zero]
    have : (0x8000#16).getLsbD i = decide (i = 15) := by
      have : ∀ j : Fin 16, (0x8000#16).getLsbD j = decide (j.val = 15) := by decide
      exact this ⟨i, hi⟩
    rw [this]
    by_cases h15 : i = 15
    · subst h15; simp_all
    · simp [h15]
  · intro h h0
    have := congrArg (fun y : Word => y.getLsbD 15) h0
    simp only [BitVec.getLsbD_and, BitVec.getLsbD_zero, h, Bool.true_and] at this
    exact absurd this (by decide)

/-- One iteration is linear in (acc, data), the polynomial fixed. -/
theorem shiftRound_xor (p a d b e : Word) :
    shiftRound p (a ^^^ b, d ^^^ e)
      = ((shiftRound p (a, d)).1 ^^^ (shiftRound p (b, e)).1, (shiftRound p (a, d)).2 ^^^ (shiftRound p (b, e)).2) := by
  simp only [shiftRound, topBit_test, BitVec.getLsbD_xor, BitVec.shiftLeft_xor_distrib]
  cases a.getLsbD 15 <;> cases b.getLsbD 15 <;> cases d.getLsbD 15 <;> cases e.getLsbD 15 <;> simp <;> ac_nf <;> simp

/-- That many iterations are linear in (acc, data). -/
theorem shiftRounds_xor (p : Word) (n : Nat) :
    ∀ a d b e : Word, shiftRounds p n (a ^^^ b, d ^^^ e)
      = ((shiftRounds p n (a, d)).1 ^^^ (shiftRounds p n (b, e)).1, (shiftRounds p n (a, d)).2 ^^^ (shiftRounds p n (b, e)).2) := by
  induction n with
  | zero => intro a d b e; rfl
  | succ n ih =>
    intro a d b e
    simp only [shiftRounds, shiftRound_xor]
    exact ih _ _ _ _

/-- The contents of the table. -/
theorem read?_buildTable (p : Word) (i : Nat) (h : i < 256) :
    Memory.read? (buildTable p) i = some (buildEntry p (BitVec.ofNat 8 i)) := by
  have key : ∀ (l : List Nat) (f : Nat → Word), i ∈ l → Memory.read? (l.map fun k => (k, f k)) i = some (f i) := by
    intro l f
    induction l with
    | nil => intro hm; cases hm
    | cons k l ih =>
      intro hm
      simp only [List.map_cons, Memory.read?]
      by_cases hk : k = i
      · simp [hk]
      · rw [if_neg hk]; exact ih (by cases hm with | head => exact absurd rfl hk | tail _ h => exact h)
  exact key _ _ (by simp [Config.tblSize, h])

/-- A state whose `TBL` is a built table reads that polynomial's entries. -/
theorem table_of_built {s : State} {p : Word} (h : s.tbl = buildTable p) (b : Byte) : s.table b = buildEntry p b := by
  simp only [State.table, State.tblAt, h]
  rw [read?_buildTable p b.toNat b.isLt]
  simp

theorem foldBytes_append (t : Byte → Word) (xs ys : List Byte) :
    ∀ acc, foldBytes t acc (xs ++ ys) = foldBytes t (foldBytes t acc xs) ys := by
  induction xs with
  | nil => intro acc; rfl
  | cons x xs ih => intro acc; exact ih _

end Sys2Proof.Machine
end

