-- ==== Sys2Proof/Laws/Decode.lean ====
section
/-! SUPPORT. The fields of a command word as numbers, and a command word as its fields: what the decoder's and the encoder's laws rest on. -/

namespace Sys2Proof

@[simp] theorem opcField_toNat (w : Word) : (opcField w).toNat = w.toNat % 16 := by
  simp [opcField, BitVec.extractLsb'_toNat]

@[simp] theorem atField_toNat (w : Word) : (atField w).toNat = w.toNat / 16 % 4 := by
  simp [atField, BitVec.extractLsb'_toNat, Nat.shiftRight_eq_div_pow]

@[simp] theorem mbzField_toNat (w : Word) : (mbzField w).toNat = w.toNat / 64 % 4 := by
  simp [mbzField, BitVec.extractLsb'_toNat, Nat.shiftRight_eq_div_pow]

@[simp] theorem immField_toNat (w : Word) : (immField w).toNat = w.toNat / 256 := by
  have := w.isLt
  simp only [immField, BitVec.extractLsb'_toNat, Nat.shiftRight_eq_div_pow]
  omega

/-- The number a command word is, from its fields (spec/30_encoding.md R60). -/
theorem commandWord_toNat (imm : Byte) (ty : BitVec 2) (opc : BitVec 4) :
    (commandWord imm ty opc).toNat = 256 * imm.toNat + 16 * ty.toNat + opc.toNat := by
  have h1 := ty.isLt
  have h2 := opc.isLt
  have ho : ∀ x y : Nat, y < 16 → x <<< 4 ||| y = x * 16 + y := fun x y hy => by
    rw [Nat.shiftLeft_eq, mul_comm, ← Nat.two_pow_add_eq_or_of_lt (i := 4) hy x]
  have h8 : ∀ x y : Nat, y < 256 → x <<< 8 ||| y = x * 256 + y := fun x y hy => by
    rw [Nat.shiftLeft_eq, mul_comm, ← Nat.two_pow_add_eq_or_of_lt (i := 8) hy x]
  simp only [commandWord, BitVec.toNat_append, BitVec.toNat_ofNat]
  simp only [Nat.reducePow, Nat.zero_mod, Nat.zero_shiftLeft, Nat.zero_or]
  rw [ho _ _ (by omega), h8 _ _ (by omega)]
  ring

/-- A word whose `MBZ` is zero is the command word of its other fields. -/
theorem commandWord_of_fields {w : Word} (h : mbzField w = 0) : commandWord (immField w) (atField w) (opcField w) = w := by
  apply BitVec.eq_of_toNat_eq
  have h' := congrArg BitVec.toNat h
  have := w.isLt
  rw [mbzField_toNat, show (0 : BitVec 2).toNat = 0 from rfl] at h'
  simp only [commandWord_toNat, immField_toNat, atField_toNat, opcField_toNat]
  omega

@[simp] theorem opcField_commandWord (imm : Byte) (ty : BitVec 2) (opc : BitVec 4) : opcField (commandWord imm ty opc) = opc := by
  apply BitVec.eq_of_toNat_eq
  have := imm.isLt; have := ty.isLt; have := opc.isLt
  simp only [opcField_toNat, commandWord_toNat]; omega

@[simp] theorem atField_commandWord (imm : Byte) (ty : BitVec 2) (opc : BitVec 4) : atField (commandWord imm ty opc) = ty := by
  apply BitVec.eq_of_toNat_eq
  have := imm.isLt; have := ty.isLt; have := opc.isLt
  simp only [atField_toNat, commandWord_toNat]; omega

@[simp] theorem mbzField_commandWord (imm : Byte) (ty : BitVec 2) (opc : BitVec 4) : mbzField (commandWord imm ty opc) = 0 := by
  apply BitVec.eq_of_toNat_eq
  have := imm.isLt; have := ty.isLt; have := opc.isLt
  rw [mbzField_toNat, commandWord_toNat, show (0 : BitVec 2).toNat = 0 from rfl]; omega

@[simp] theorem immField_commandWord (imm : Byte) (ty : BitVec 2) (opc : BitVec 4) : immField (commandWord imm ty opc) = imm := by
  apply BitVec.eq_of_toNat_eq
  have := imm.isLt; have := ty.isLt; have := opc.isLt
  simp only [immField_toNat, commandWord_toNat]; omega

@[simp] theorem ofCode_code (ty : AccessType) : AccessType.ofCode ty.code = ty := by cases ty <;> rfl

@[simp] theorem code_ofCode (c : BitVec 2) : (AccessType.ofCode c).code = c := by revert c; decide

end Sys2Proof
end

