-- ==== Sys2Proof/Laws/Ops.lean ====
section
/-! SUPPORT. One lemma per shared operation: what it can do, said once. -/

namespace Sys2Proof.Machine

/-! ### STATUS -/

@[simp] theorem errField_setErr (v : Word) (c : BitVec 4) : errField (setErr v c) = c := by
  simp only [errField, setErr]
  apply BitVec.eq_of_getLsbD_eq
  intro i hi
  have h : ∀ j : Fin 4, (0xFFF0#16).getLsbD j.val = false := by decide
  simp only [BitVec.getLsbD_extractLsb', BitVec.getLsbD_or, BitVec.getLsbD_and, BitVec.truncate_eq_setWidth,
    BitVec.getLsbD_setWidth, Nat.zero_add, h ⟨i, hi⟩]
  simp [hi]; omega

@[simp] theorem sessionBit_setErr (v : Word) (c : BitVec 4) : sessionBit (setErr v c) = sessionBit v := by
  simp only [sessionBit, setErr, BitVec.getLsbD_or, BitVec.getLsbD_and, BitVec.truncate_eq_setWidth, BitVec.getLsbD_setWidth]
  simp

/-- A later result code replaces an earlier one: ERR is not sticky. -/
@[simp] theorem setErr_setErr (v : Word) (a b : BitVec 4) : setErr (setErr v a) b = setErr v b := by
  have h : a.zeroExtend 16 &&& 0xFFF0#16 = 0#16 := by
    have : ∀ c : BitVec 4, c.zeroExtend 16 &&& 0xFFF0#16 = 0#16 := by decide
    exact this a
  have h2 : (v &&& 0xFFF0#16 ||| a.zeroExtend 16) &&& 0xFFF0#16 = v &&& 0xFFF0#16 := by
    apply BitVec.eq_of_getLsbD_eq
    intro i hi
    have hb := congrArg (fun y : Word => y.getLsbD i) h
    simp only [BitVec.getLsbD_and, BitVec.getLsbD_zero] at hb
    simp only [BitVec.getLsbD_and, BitVec.getLsbD_or]
    cases hv : v.getLsbD i <;> cases hm : (0xFFF0#16).getLsbD i <;> simp_all
  simp only [setErr, h2]

@[simp] theorem sessionBit_setSession (v : Word) : sessionBit (setSession v) = true := by
  simp only [sessionBit, setSession, BitVec.getLsbD_or]
  simp

/-! ### `finish` and the session check -/

@[simp] theorem reg_finish (c : ResultCode) (s : State) (r : Reg) :
    (finish c s).reg r = if r = .status then setErr (s.reg .status) c.code else s.reg r := by
  simp [finish]

@[simp] theorem finish_tbl (c : ResultCode) (s : State) : (finish c s).tbl = s.tbl := by simp [finish]
@[simp] theorem finish_bytes (c : ResultCode) (s : State) (sp : ByteSpace) : (finish c s).bytes sp = s.bytes sp := by simp [finish]
@[simp] theorem finish_pending (c : ResultCode) (s : State) : (finish c s).pending = s.pending := by simp [finish]
@[simp] theorem finish_reply (c : ResultCode) (s : State) : (finish c s).reply = s.reply := by simp [finish]
@[simp] theorem finish_resets (c : ResultCode) (s : State) : (finish c s).resets = s.resets := by simp [finish]
@[simp] theorem finish_byteAt (c : ResultCode) (s : State) (sp : ByteSpace) (i : Nat) : (finish c s).byteAt sp i = s.byteAt sp i := by simp [finish]
@[simp] theorem finish_tblAt (c : ResultCode) (s : State) (i : Nat) : (finish c s).tblAt i = s.tblAt i := by simp [finish]
@[simp] theorem finish_table (c : ResultCode) (s : State) : (finish c s).table = s.table := by simp [finish]

@[simp] theorem hasSession_finish (c : ResultCode) (s : State) : (finish c s).hasSession = s.hasSession := by
  simp [State.hasSession]

theorem withSession_of_session {s : State} (h : s.hasSession = true) (op : State → State) : withSession s op = op s := by
  simp [withSession, h]

theorem withSession_of_none {s : State} (h : s.hasSession = false) (op : State → State) : withSession s op = finish .noSession s := by
  simp [withSession, h]

/-! ### Reads under the other updates -/

@[simp] theorem payloadLen_setReg (s : State) (r : Reg) (v : Word) :
    (s.setReg r v).payloadLen = if r = .plen then (v.extractLsb' 0 9).toNat else s.payloadLen := by
  simp only [State.payloadLen, reg_setReg]
  by_cases h : r = .plen <;> simp [h, eq_comm]

@[simp] theorem payloadLen_setBytes (s : State) (sp : ByteSpace) (m : Memory 8) : (s.setBytes sp m).payloadLen = s.payloadLen := by
  simp [State.payloadLen]

@[simp] theorem byteAt_setBytes (s : State) (sp sq : ByteSpace) (m : Memory 8) (i : Nat) :
    (s.setBytes sp m).byteAt sq i = if sq = sp then (Memory.read? m i).getD (unwrittenByte sq s.resets i) else s.byteAt sq i := by
  by_cases h : sq = sp <;> simp [State.byteAt, h]

theorem payloadLen_le (s : State) : s.payloadLen ≤ 511 := by
  have : s.payloadLen < 2 ^ 9 := ((s.reg .plen).extractLsb' 0 9).isLt
  omega

@[simp] theorem length_bytesFrom (s : State) (sp : ByteSpace) (a n : Nat) : (s.bytesFrom sp a n).length = n := by
  simp [State.bytesFrom]

@[simp] theorem length_payload (s : State) : s.payload.length = s.payloadLen := by simp [State.payload]

/-! ### The register numbers -/

@[simp] theorem regOfNumber_regNumber (r : Reg) : regOfNumber (regNumber r) = some r := by cases r <;> rfl

/-- A number names a register exactly when it is below 20, and then it is that register's number. -/
theorem regOfNumber_eq_some {n : Nat} {r : Reg} (h : regOfNumber n = some r) : n = regNumber r ∧ n < 20 := by
  unfold regOfNumber at h
  split at h <;> first | (cases h; decide) | cases h

theorem regOfNumber_of_ge {n : Nat} (h : 20 ≤ n) : regOfNumber n = none := by
  unfold regOfNumber
  split <;> first | omega | rfl

theorem regOfNumber_of_lt {n : Nat} (h : n < 20) : ∃ r, regOfNumber n = some r := by
  interval_cases n <;> exact ⟨_, rfl⟩

/-! ### Operations and accesses always answer -/

/-- Every operation answers a next state, from every state (spec/60_exceptions.md R179(a), (d)). -/
theorem exec_answers (i : Instr) (s : State) : ∃ t, exec i s = .next t := by
  cases i <;> exact ⟨_, rfl⟩

theorem runCommand_answers (w : Word) (s : State) : ∃ t, runCommand w s = .next t := by
  unfold runCommand
  split
  · exact exec_answers _ _
  · exact ⟨_, rfl⟩

/-- An access to a register or an element that exists answers a next state. -/
theorem access_answers {e : HostEvent} (h : e.wf = true) (s : State) : ∃ t, access e s = .next t := by
  cases e <;> simp only [HostEvent.wf, decide_eq_true_eq] at h
  case regRead n =>
    obtain ⟨r, hr⟩ := regOfNumber_of_lt h
    exact ⟨s.setReply (some (.word (s.hostReg r))), by simp only [access, hostRegRead, hr]⟩
  case regWrite n v =>
    obtain ⟨r, hr⟩ := regOfNumber_of_lt h
    simp only [access, hostRegWrite, hr]
    split
    · exact runCommand_answers _ _
    · exact ⟨_, rfl⟩
  case tblRead i => exact ⟨_, if_pos h⟩
  case tblWrite i v => exact ⟨_, if_pos h⟩
  case byteRead sp i => exact ⟨_, if_pos h⟩
  case byteWrite sp i v => exact ⟨_, if_pos h⟩
  case hardReset => exact ⟨_, rfl⟩

/-- All a step can do: nothing, or one access (spec/20_memory.md R53). -/
theorem step_cases {s t : State} (h : Machine.step s = .next t) :
    (s.pending = [] ∧ t = s) ∨ ∃ e rest, s.pending = e :: rest ∧ access e (s.setPending rest) = .next t := by
  unfold Machine.step at h
  split at h
  · cases h; exact .inl ⟨‹_›, rfl⟩
  · exact .inr ⟨_, _, ‹_›, h⟩

@[simp] theorem andThen_next {α β : Type} (a : α) (k : α → Host.Outcome β Fault Refusal) : andThen (.next a) k = k a := rfl

@[simp] theorem runEvents_nil (s : State) : runEvents [] s = .next s := rfl

theorem runEvents_cons (e : HostEvent) (es : List HostEvent) (s : State) :
    runEvents (e :: es) s = andThen (access e s) (runEvents es) := rfl

theorem runEvents_append (xs ys : List HostEvent) :
    ∀ s : State, runEvents (xs ++ ys) s = andThen (runEvents xs s) (runEvents ys) := by
  induction xs with
  | nil => intro s; rfl
  | cons x xs ih =>
    intro s
    simp only [List.cons_append, runEvents_cons]
    cases access x s with
    | next t => simp only [andThen_next, ih]
    | fault r => rfl
    | refused r => rfl

end Sys2Proof.Machine
end

