-- ==== Sys2Proof/Laws/Operations.lean ====
section
/-! SUPPORT. What each operation leaves, said once: later proofs cite these lemmas and do not unfold the meanings. -/

namespace Sys2Proof.Machine

/-! ### Operands and fields as numbers -/

theorem payloadLen_eq (s : State) : s.payloadLen = (s.reg .plen).toNat % 512 := by
  simp [State.payloadLen, BitVec.extractLsb'_toNat]

theorem halfLen_toNat (v : Word) : (halfLen v).toNat = v.toNat % 512 / 2 := by
  simp only [halfLen, BitVec.extractLsb'_toNat, Nat.shiftRight_eq_div_pow]
  omega

theorem loByte_toNat (v : Word) : (loByte v).toNat = v.toNat % 256 := by
  simp [loByte, BitVec.extractLsb'_toNat]

theorem hiByte_toNat (v : Word) : (hiByte v).toNat = v.toNat / 256 := by
  have := v.isLt
  simp only [hiByte, BitVec.extractLsb'_toNat, Nat.shiftRight_eq_div_pow]
  omega

theorem joinBytes_toNat (a b : Byte) : (joinBytes a b).toNat = a.toNat * 256 + b.toNat := by
  have := b.isLt
  simp only [joinBytes, BitVec.toNat_append]
  rw [Nat.shiftLeft_eq, mul_comm, ← Nat.two_pow_add_eq_or_of_lt (i := 8) this a.toNat, mul_comm]

theorem seqField_toNat (s : State) : s.seqField.toNat = (s.reg .seq).toNat % 16 := by
  simp [State.seqField, BitVec.extractLsb'_toNat]

/-- SEQ advances by one mod 16 (spec/41_framer.md R111). -/
theorem advanceSeq_toNat (s : State) : (s.advanceSeq.reg .seq).toNat = ((s.reg .seq).toNat + 1) % 16 := by
  have h := seqField_toNat s
  simp only [State.advanceSeq, reg_setReg, if_true, BitVec.truncate_eq_setWidth, BitVec.toNat_setWidth, BitVec.toNat_add]
  simp only [h, show (1 : BitVec 4).toNat = 1 from rfl]
  omega

@[simp] theorem seqField_advanceSeq (s : State) : s.advanceSeq.seqField = s.seqField + 1 := by
  apply BitVec.eq_of_toNat_eq
  rw [seqField_toNat, advanceSeq_toNat, BitVec.toNat_add, seqField_toNat, show (1 : BitVec 4).toNat = 1 from rfl]
  omega

/-- The default control byte as a number (spec/30_encoding.md R64): seq × 4 + at. -/
theorem controlByte_toNat (seq : BitVec 4) (ty : BitVec 2) :
    (controlByte .accessLow seq ty).toNat = seq.toNat * 4 + ty.toNat := by
  revert seq ty; decide +kernel

theorem payload_eq (s : State) : s.payload = (List.range s.payloadLen).map (s.byteAt .pay) := by
  simp [State.payload, State.bytesFrom]

theorem responseHeader_eq (s : State) : s.responseHeader = (List.range 6).map (s.byteAt .rx) := by
  simp [State.responseHeader, State.bytesFrom]

/-! ### INIT -/

/-- What INIT leaves in each register (spec/40_checksum.md R96). -/
theorem init_reg (s : State) (r : Reg) :
    (finish .ok (createSession s)).reg r =
      match r with
      | .status => setErr (setSession (s.reg .status)) 0
      | .dest => (loByte (s.reg .addr)).zeroExtend 16
      | .seq => 0
      | .acc => 0
      | r => s.reg r := by
  cases r <;> simp [createSession, ResultCode.code]

@[simp] theorem createSession_tbl (s : State) : (createSession s).tbl = buildTable (s.reg .poly) := by simp [createSession]
@[simp] theorem createSession_bytes (s : State) (sp : ByteSpace) : (createSession s).bytes sp = s.bytes sp := by simp [createSession]
@[simp] theorem createSession_pending (s : State) : (createSession s).pending = s.pending := by simp [createSession]
@[simp] theorem createSession_reply (s : State) : (createSession s).reply = s.reply := by simp [createSession]
@[simp] theorem createSession_resets (s : State) : (createSession s).resets = s.resets := by simp [createSession]

/-! ### BUILD -/

@[simp] theorem advanceSeq_reg (s : State) (r : Reg) :
    s.advanceSeq.reg r = if r = .seq then (s.seqField + 1).zeroExtend 16 else s.reg r := by simp [State.advanceSeq]
@[simp] theorem advanceSeq_tbl (s : State) : s.advanceSeq.tbl = s.tbl := by simp [State.advanceSeq]
@[simp] theorem advanceSeq_bytes (s : State) (sp : ByteSpace) : s.advanceSeq.bytes sp = s.bytes sp := by simp [State.advanceSeq]
@[simp] theorem advanceSeq_byteAt (s : State) (sp : ByteSpace) (i : Nat) : s.advanceSeq.byteAt sp i = s.byteAt sp i := by simp [State.advanceSeq]
@[simp] theorem advanceSeq_pending (s : State) : s.advanceSeq.pending = s.pending := by simp [State.advanceSeq]
@[simp] theorem advanceSeq_reply (s : State) : s.advanceSeq.reply = s.reply := by simp [State.advanceSeq]
@[simp] theorem advanceSeq_resets (s : State) : s.advanceSeq.resets = s.resets := by simp [State.advanceSeq]
@[simp] theorem advanceSeq_checksum (s : State) (l : List Byte) : s.advanceSeq.checksum l = s.checksum l := by simp [State.advanceSeq]
@[simp] theorem advanceSeq_payloadLen (s : State) : s.advanceSeq.payloadLen = s.payloadLen := by simp [State.advanceSeq]

/-- The header bytes BUILD frames, from the state it finds (spec/41_framer.md R112, h0 to h5). -/
def newHeader (s : State) (ty : AccessType) : List Byte :=
  [startMarker, loByte (s.reg .dest), controlByte Config.ctrlLayout (s.seqField + 1) ty.code,
   loByte (s.reg .index), loByte (s.reg .offset), s.wordCount ty]

theorem commandHeader_advanceSeq (s : State) (ty : AccessType) : s.advanceSeq.commandHeader ty = newHeader s ty := by
  cases ty <;> simp [State.commandHeader, headerFields, newHeader, State.wordCount]

/-- A BUILD that finds a session and a legal access type ends in this state. -/
def builtState (ty : AccessType) (s : State) : State := finish .ok (buildPayload (buildHeader ty s.advanceSeq))

theorem execBuild_of_session {s : State} (h : s.hasSession = true) {ty : AccessType} (hty : ty ≠ .unused) :
    execBuild ty s = .next (builtState ty s) := by
  cases ty <;> simp_all [execBuild, withSession_of_session h, builtState]

theorem execBuild_unused {s : State} (h : s.hasSession = true) :
    execBuild .unused s = .next (finish .invalidAccessType s.advanceSeq) := by
  simp [execBuild, withSession_of_session h]

/-- The state with the header built, as BUILD goes on from it. -/
theorem buildHeader_facts (s : State) (ty : AccessType) :
    (buildHeader ty s.advanceSeq).payloadLen = s.payloadLen ∧ (buildHeader ty s.advanceSeq).payload = s.payload
      ∧ ∀ l, (buildHeader ty s.advanceSeq).checksum l = s.checksum l := by
  refine ⟨by simp [buildHeader], ?_, fun l => by simp [buildHeader]⟩
  simp [payload_eq, buildHeader]

/-- `TX[0..7]` after the header is built; the rest of TX as before. -/
theorem buildHeader_tx (s : State) (ty : AccessType) (j : Nat) :
    (buildHeader ty s.advanceSeq).byteAt .tx j =
      if j < 8 then (newHeader s ty ++ bigEndian (s.checksum (newHeader s ty))).getD j 0 else s.byteAt .tx j := by
  simp only [buildHeader, commandHeader_advanceSeq, advanceSeq_checksum, byteAt_setReg, byteAt_setBytes, if_true,
    Memory.read?_writeList, advanceSeq_bytes, advanceSeq_resets]
  rw [show (newHeader s ty ++ bigEndian (s.checksum (newHeader s ty))).length = 8 from rfl]
  by_cases h8 : j < 8
  · rw [if_pos (by omega), if_pos h8]
    interval_cases j <;> rfl
  · rw [if_neg (by omega), if_neg h8]
    rfl

/-- All of TX after a successful BUILD (spec/41_framer.md R112, R115). -/
theorem built_tx (s : State) (ty : AccessType) (j : Nat) :
    (builtState ty s).byteAt .tx j =
      if j < 8 then (newHeader s ty ++ bigEndian (s.checksum (newHeader s ty))).getD j 0
      else if s.payloadLen ≠ 0 ∧ j < 10 + s.payloadLen then (s.payload ++ bigEndian (s.checksum s.payload)).getD (j - 8) 0
      else s.byteAt .tx j := by
  obtain ⟨h1, h2, h3⟩ := buildHeader_facts s ty
  simp only [builtState, finish_byteAt, buildPayload, h1, h2, h3]
  have hb := buildHeader_tx s ty j
  by_cases hn : s.payloadLen = 0
  · simp [hn, hb]
  · simp only [hn, ne_eq, not_false_eq_true, if_true, true_and, byteAt_setReg, byteAt_setBytes, Memory.read?_writeList]
    rw [show (s.payload ++ bigEndian (s.checksum s.payload)).length = s.payloadLen + 2 by simp [bigEndian]]
    by_cases h8 : 8 ≤ j ∧ j < 8 + (s.payloadLen + 2)
    · rw [if_pos h8, if_neg (by omega), if_pos (by omega)]
      have hl : j - 8 < (s.payload ++ bigEndian (s.checksum s.payload)).length := by simp [bigEndian]; omega
      simp [List.getD, List.getElem?_eq_getElem hl]
    · rw [if_neg h8]
      simp only [State.byteAt] at hb ⊢
      rw [hb]
      by_cases hj : j < 8
      · rw [if_pos hj, if_pos hj]
      · rw [if_neg hj, if_neg hj, if_neg (by omega)]

/-- Every register after a successful BUILD (spec/41_framer.md R112). -/
theorem built_reg (s : State) (ty : AccessType) (r : Reg) :
    (builtState ty s).reg r =
      match r with
      | .seq => (s.seqField + 1).zeroExtend 16
      | .status => setErr (s.reg .status) 0
      | .hcsum => s.checksum (newHeader s ty)
      | .pcsum => if s.payloadLen = 0 then s.reg .pcsum else s.checksum s.payload
      | .txlen => if s.payloadLen = 0 then 8 else BitVec.ofNat 16 (10 + s.payloadLen)
      | r => s.reg r := by
  obtain ⟨h1, h2, h3⟩ := buildHeader_facts s ty
  simp only [builtState, reg_finish, buildPayload, h1, h2, h3]
  by_cases hn : s.payloadLen = 0 <;> cases r <;>
    simp [hn, buildHeader, commandHeader_advanceSeq, ResultCode.code]

/-- What a successful BUILD leaves alone beside registers and TX. -/
theorem built_rest (s : State) (ty : AccessType) :
    (builtState ty s).tbl = s.tbl ∧ (builtState ty s).bytes .pay = s.bytes .pay ∧ (builtState ty s).bytes .rx = s.bytes .rx
      ∧ (builtState ty s).pending = s.pending ∧ (builtState ty s).reply = s.reply ∧ (builtState ty s).resets = s.resets := by
  simp only [builtState, buildPayload, finish_tbl, finish_bytes, finish_pending, finish_reply, finish_resets]
  split <;> simp [buildHeader]

/-- TX as data after a successful BUILD. -/
theorem built_txData (s : State) (ty : AccessType) :
    (builtState ty s).bytes .tx =
      (if s.payloadLen = 0 then Memory.writeList (s.bytes .tx) 0 (newHeader s ty ++ bigEndian (s.checksum (newHeader s ty)))
       else Memory.writeList (Memory.writeList (s.bytes .tx) 0 (newHeader s ty ++ bigEndian (s.checksum (newHeader s ty)))) 8
        (s.payload ++ bigEndian (s.checksum s.payload))) := by
  obtain ⟨h1, h2, h3⟩ := buildHeader_facts s ty
  simp only [builtState, buildPayload, finish_bytes, h1, h2, h3]
  by_cases hn : s.payloadLen = 0 <;> simp [hn, buildHeader, commandHeader_advanceSeq]

theorem txlen_toNat (s : State) : (BitVec.ofNat 16 (10 + s.payloadLen)).toNat = 10 + s.payloadLen := by
  have := payloadLen_le s
  rw [BitVec.toNat_ofNat]
  omega

/-! ### PARSE and PCHK -/

/-- Every register after the header is extracted (spec/42_parser.md R126). -/
theorem extractHeader_reg (s : State) (r : Reg) :
    (extractHeader s).reg r =
      match r with
      | .rhdrA => joinBytes (s.byteAt .rx 0) (s.byteAt .rx 1)
      | .rhdrC => splitControl Config.ctrlLayout (s.byteAt .rx 2)
      | .rhdrS => joinBytes (s.byteAt .rx 3) (s.byteAt .rx 4)
      | .rhdrL => (s.byteAt .rx 5).zeroExtend 16
      | .rhdrK => joinBytes (s.byteAt .rx 6) (s.byteAt .rx 7)
      | .hcsum => s.checksum s.responseHeader
      | r => s.reg r := by
  cases r <;> simp [extractHeader]

@[simp] theorem extractHeader_tbl (s : State) : (extractHeader s).tbl = s.tbl := by simp [extractHeader]
@[simp] theorem extractHeader_bytes (s : State) (sp : ByteSpace) : (extractHeader s).bytes sp = s.bytes sp := by simp [extractHeader]
@[simp] theorem extractHeader_pending (s : State) : (extractHeader s).pending = s.pending := by simp [extractHeader]
@[simp] theorem extractHeader_reply (s : State) : (extractHeader s).reply = s.reply := by simp [extractHeader]
@[simp] theorem extractHeader_resets (s : State) : (extractHeader s).resets = s.resets := by simp [extractHeader]

theorem execParse_of_session {s : State} (h : s.hasSession = true) :
    execParse s = .next (finish
      (if s.checksum s.responseHeader = joinBytes (s.byteAt .rx 6) (s.byteAt .rx 7) then .ok else .headerChecksumMismatch)
      (extractHeader s)) := by
  simp only [execParse, withSession_of_session h, extractHeader_reg, ne_eq, ite_not]
  split <;> rfl

theorem execPchk_of_session {s : State} (h : s.hasSession = true) :
    execPchk s = .next (finish
      (if s.checksum s.payload = s.reg .trailer then .ok else .payloadChecksumMismatch)
      (s.setReg .pcsum (s.checksum s.payload))) := by
  simp only [execPchk, withSession_of_session h, ne_eq, ite_not]
  split <;> rfl

end Sys2Proof.Machine
end

