-- ==== Sys2Proof/Laws/HostRecord.lean ====
section
/-! SUPPORT. What the host's record and the firmware's moves do, one lemma each. -/

namespace Sys2Proof.Machine

/-! ### Reads of ERR and of the frame -/

/-- The host's mask keeps ERR. -/
theorem err_eq (s : State) : s.err = errField (s.reg .status) := by
  simp only [State.err, State.hostReg, regMask, errField]
  apply BitVec.eq_of_getLsbD_eq
  intro i hi
  have h : ∀ j : Fin 4, (0x001F#16).getLsbD j.val = true := by decide
  simp only [BitVec.getLsbD_extractLsb', BitVec.getLsbD_and, Nat.zero_add]
  simp [h ⟨i, hi⟩]

@[simp] theorem err_setReply (s : State) (x : Option Reply) : (s.setReply x).err = s.err := by simp [err_eq]
@[simp] theorem err_setBytes (s : State) (sp : ByteSpace) (m : Memory 8) : (s.setBytes sp m).err = s.err := by simp [err_eq]
@[simp] theorem err_finish (c : ResultCode) (s : State) : (finish c s).err = c.code := by simp [err_eq]

/-- TXLEN as the host reads it, as a number. -/
theorem hostTxlen_toNat (s : State) : (s.hostReg .txlen).toNat = (s.reg .txlen).toNat % 1024 := by
  simp only [State.hostReg, regMask, BitVec.toNat_and]
  exact Nat.and_two_pow_sub_one_eq_mod _ 10

theorem payloadWritten_iff (s : State) :
    s.payloadWritten = true ↔ ∀ i < s.payloadLen, (Memory.read? (s.bytes .pay) i).isSome = true := by
  simp [State.payloadWritten]

/-! ### Sequences -/

@[simp] theorem runMoves_nil (s : State) : runMoves [] s = .next s := rfl

theorem runMoves_cons (m : HostMove) (ms : List HostMove) (s : State) :
    runMoves (m :: ms) s = andThen (hostMove m s) (runMoves ms) := rfl

theorem runMoves_append (xs ys : List HostMove) :
    ∀ s : State, runMoves (xs ++ ys) s = andThen (runMoves xs s) (runMoves ys) := by
  induction xs with
  | nil => intro s; rfl
  | cons x xs ih =>
    intro s
    simp only [List.cons_append, runMoves_cons]
    cases hostMove x s with
    | next t => simp only [andThen_next, ih]
    | fault r => rfl
    | refused r => rfl

/-- Accesses made as moves do to the block what they do as events. -/
theorem runMoves_accessMoves (es : List HostEvent) : ∀ s : State, runMoves (accessMoves es) s = runEvents es s := by
  induction es with
  | nil => intro s; rfl
  | cons e es ih =>
    intro s
    simp only [accessMoves, List.map_cons, runMoves_cons, runEvents_cons, hostMove]
    cases access e s with
    | next t => exact ih t
    | fault r => rfl
    | refused r => rfl

/-- A contract kept goes through move by move, and is the contract of its parts. -/
theorem keepsContract_append (even : Bool) (xs ys : List (Nat × HostMove)) :
    ∀ (r : HostRecord) (s t : State), runMoves (xs.map Prod.snd) s = .next t →
      keepsContract even r (xs ++ ys) s = (keepsContract even r xs s && keepsContract even (recordAfter r xs s) ys t) := by
  induction xs with
  | nil => intro r s t h; cases h; simp [keepsContract, recordAfter]
  | cons x xs ih =>
    intro r s t h
    obtain ⟨caller, m⟩ := x
    simp only [List.map_cons, runMoves_cons] at h
    simp only [List.cons_append, keepsContract, recordAfter]
    cases hm : hostMove m s with
    | next u =>
      rw [hm] at h
      simp only [ih _ u t h, Bool.and_assoc]
    | fault r => rw [hm] at h; cases h
    | refused r => rw [hm] at h; cases h

/-! ### The record after a move -/

theorem freeFor_iff (r : HostRecord) (caller : Nat) :
    r.freeFor caller = true ↔ r.holder = none ∨ r.holder = some caller := by simp [HostRecord.freeFor]

/-- Two registers have the same number only if they are one. -/
theorem regNumber_inj {q q' : Reg} : regNumber q = regNumber q' ↔ q = q' :=
  ⟨fun h => Option.some.inj (by rw [← regOfNumber_regNumber q, ← regOfNumber_regNumber q', h]), fun h => by rw [h]⟩

/-- A STATUS read by a caller the block is free for. -/
theorem after_statusRead {r : HostRecord} {caller : Nat} (h : r.freeFor caller = true) (s : State) :
    r.after caller (.access (.regRead 1)) s = r.statusRead (errField (s.reg .status)) := by
  simp [HostRecord.after, HostRecord.accessed, regOfNumber, h, err_eq]

/-- Any other register read leaves the record alone. -/
theorem after_regRead {r : HostRecord} {caller n : Nat} (h : n ≠ 1 ∨ r.freeFor caller = false) (s : State) :
    r.after caller (.access (.regRead n)) s = r := by
  have hn : n ≠ 1 → regOfNumber n ≠ some .status := fun h0 h1 => h0 (regOfNumber_eq_some h1).1
  rcases h with h | h
  · simp [HostRecord.after, HostRecord.accessed, hn h]
  · simp [HostRecord.after, HostRecord.accessed, h]

/-- An operation. -/
theorem after_operation {w : Word} {i : Instr} (h : decode w = .op i) (r : HostRecord) (caller : Nat) (s : State) :
    r.after caller (.access (.regWrite 0 w)) s = { r.issued i with holder := some caller } := by
  simp [HostRecord.after, HostRecord.accessed, regOfNumber, h]

/-- A write of a register other than CMD. -/
theorem after_regWrite {q : Reg} (h : q ≠ .cmd) (v : Word) (r : HostRecord) (caller : Nat) (s : State) :
    r.after caller (.access (.regWrite (regNumber q) v)) s = { r with operands := q :: r.operands, holder := some caller } := by
  cases q <;> simp_all [HostRecord.after, HostRecord.accessed]

/-! ### What a move may be -/

/-- A move the contract allows names what exists. -/
theorem wf_of_moveAllowed {even : Bool} {r : HostRecord} {caller : Nat} {e : HostEvent} {s : State}
    (h : moveAllowed even r caller (.access e) s = true) : e.wf = true := by
  cases e with
  | regRead n => exact h
  | tblRead i => exact h
  | byteRead sp i => exact h
  | hardReset => rfl
  | tblWrite i v => simp [moveAllowed, isHostRead, writeAllowed] at h
  | byteWrite sp i v => simp [moveAllowed, isHostRead, writeAllowed] at h; simp [HostEvent.wf, h.2.2]
  | regWrite n v =>
    cases hn : regOfNumber n with
    | none => simp [moveAllowed, isHostRead, writeAllowed, hn] at h
    | some q => exact decide_eq_true (regOfNumber_eq_some hn).2

/-- A move the contract allows goes through. -/
theorem hostMove_answers {even : Bool} {r : HostRecord} {caller : Nat} {m : HostMove} {s : State}
    (h : moveAllowed even r caller m s = true) : ∃ t, hostMove m s = .next t := by
  cases m with
  | access e => exact access_answers (wf_of_moveAllowed h) s
  | transmit bytes written => exact ⟨s, rfl⟩
  | compareCount => exact ⟨s, rfl⟩
  | useHeader => exact ⟨s, rfl⟩
  | endExchange => exact ⟨s, rfl⟩

/-! ### The firmware's exchange ends -/

@[simp] theorem afterMoves_block (ms : List HostMove) (e : ExchangeEnd) : (e.afterMoves ms).block = e.block := rfl
@[simp] theorem afterMoves_sent (ms : List HostMove) (e : ExchangeEnd) : (e.afterMoves ms).sent = e.sent := rfl
@[simp] theorem afterMoves_line (ms : List HostMove) (e : ExchangeEnd) : (e.afterMoves ms).line = e.line := rfl
@[simp] theorem afterMoves_buffer (ms : List HostMove) (e : ExchangeEnd) : (e.afterMoves ms).buffer = e.buffer := rfl
@[simp] theorem afterMoves_verdict (ms : List HostMove) (e : ExchangeEnd) : (e.afterMoves ms).verdict = e.verdict := rfl
@[simp] theorem afterMoves_moves (ms : List HostMove) (e : ExchangeEnd) : (e.afterMoves ms).moves = ms ++ e.moves := rfl

end Sys2Proof.Machine
end

