-- ==== Sys2Proof/Laws/PerInstr.lean ====
section
/-! SUPPORT. The statements made per instruction (LAWS.json). -/

namespace Sys2Proof.Laws.TableRow

/-- The (mask, match) of each row of spec/opcode_table.json (spec/30_encoding.md R70). -/
def row : Instr → Word × Word
  | .init => (0xFFFF, 0x0001)
  | .crcclr => (0xFFFF, 0x0002)
  | .crcfold _ => (0x00FF, 0x0003)
  | .build _ => (0xFFCF, 0x0004)
  | .parse => (0xFFFF, 0x0005)
  | .pchk => (0xFFFF, 0x0006)

/-- The command word of an operation, with any operand, selects the operation's own row. -/
def Statement (i : Instr) : Prop := encode i &&& (row i).1 = (row i).2

theorem init : Statement .init := rfl

theorem crcclr : Statement .crcclr := rfl

theorem crcfold (b : Byte) : Statement (.crcfold b) := by
  apply BitVec.eq_of_toNat_eq
  have h : (encode (.crcfold b) &&& 0x00FF#16).toNat = (encode (.crcfold b)).toNat % 256 := by
    rw [BitVec.toNat_and]; exact Nat.and_two_pow_sub_one_eq_mod _ 8
  refine h.trans ?_
  rw [encode, commandWord_toNat, show (0 : BitVec 2).toNat = 0 from rfl, show (3 : BitVec 4).toNat = 3 from rfl]
  show _ = 3
  omega

theorem build (ty : AccessType) : Statement (.build ty) := by cases ty <;> rfl

theorem parse : Statement .parse := rfl

theorem pchk : Statement .pchk := rfl

end Sys2Proof.Laws.TableRow
end

