-- ==== Sys2Proof/Tests/Slice0.lean ====
section
/-! SUPPORT. The model's own tests. Expected values come from spec/95_test_vectors.md and the examples of the rules, named at each test; witness_ theorems show concrete inputs that meet a statement's hypotheses. -/

namespace Sys2Proof.Tests

open Sys2Proof.Machine Sys2Proof.Statement

/-- The state an outcome holds; reset where it holds none. -/
def after (o : Host.Outcome State Fault Refusal) : State :=
  match o with
  | .next s => s
  | _ => State.reset

/-- Whether an outcome is a next state. -/
def answers (o : Host.Outcome State Fault Refusal) : Bool :=
  match o with
  | .next _ => true
  | _ => false

/-- A session with a polynomial, from reset. -/
def session (poly : Word) : State := finish .ok (createSession (State.reset.setReg .poly poly))

/-- A session at 0x1021 with the given RX. -/
def withRx (bytes : List Byte) : State :=
  (session 0x1021).setBytes .rx (Memory.writeList [] 0 bytes)

/-- A session at 0x1021 with the given PAY, PLEN and TRAILER. -/
def withPay (bytes : List Byte) (trailer : Word) : State :=
  (((session 0x1021).setBytes .pay (Memory.writeList [] 0 bytes)).setReg .plen (BitVec.ofNat 16 bytes.length)).setReg .trailer trailer

/-! ### Well-formedness: each check refuses an ill-formed term -/

theorem test_wf_regRead : (HostEvent.regRead 20).wf = false ∧ (HostEvent.regRead 19).wf = true := by decide
theorem test_wf_regWrite : (HostEvent.regWrite 20 0).wf = false ∧ (HostEvent.regWrite 19 0).wf = true := by decide
theorem test_wf_tblRead : (HostEvent.tblRead 256).wf = false ∧ (HostEvent.tblRead 255).wf = true := by decide
theorem test_wf_tblWrite : (HostEvent.tblWrite 256 0).wf = false ∧ (HostEvent.tblWrite 255 0).wf = true := by decide
theorem test_wf_payRead : (HostEvent.byteRead .pay 512).wf = false ∧ (HostEvent.byteRead .pay 511).wf = true := by decide
theorem test_wf_txRead : (HostEvent.byteRead .tx 521).wf = false ∧ (HostEvent.byteRead .tx 520).wf = true := by decide
theorem test_wf_rxWrite : (HostEvent.byteWrite .rx 8 0).wf = false ∧ (HostEvent.byteWrite .rx 7 0).wf = true := by decide
theorem test_wf_request : (writeRequest 0 0 (List.replicate 512 0)).wf = false ∧ (writeRequest 0 0 (List.replicate 511 0)).wf = true := by decide +kernel

/-! ### Decoding: words written out from spec/30_encoding.md R60, bits IMM8 MBZ AT OPC -/

theorem test_decode_init : decode 0b00000000_00_00_0001#16 = .op .init := by rfl
theorem test_decode_crcclr : decode 0b00000000_00_00_0010#16 = .op .crcclr := by rfl
theorem test_decode_crcfold : decode 0b10100101_00_00_0011#16 = .op (.crcfold 0xA5) := by rfl
theorem test_decode_build_unused : decode 0b00000000_00_00_0100#16 = .op (.build .unused) := by rfl
theorem test_decode_build_read : decode 0b00000000_00_01_0100#16 = .op (.build .read) := by rfl
theorem test_decode_build_write : decode 0b00000000_00_10_0100#16 = .op (.build .write) := by rfl
theorem test_decode_build_readWrite : decode 0b00000000_00_11_0100#16 = .op (.build .readWrite) := by rfl
theorem test_decode_parse : decode 0b00000000_00_00_0101#16 = .op .parse := by rfl
theorem test_decode_pchk : decode 0b00000000_00_00_0110#16 = .op .pchk := by rfl

/-- V40, V42, V43, V45, V46, V47. -/
theorem test_decode_illegal :
    decode 0x0000#16 = .illegal .reservedOpcode ∧ decode 0x000F#16 = .illegal .reservedOpcode
      ∧ decode 0x0101#16 = .illegal .fieldNotZero ∧ decode 0x0041#16 = .illegal .mbzNotZero
      ∧ decode 0x0013#16 = .illegal .fieldNotZero ∧ decode 0x0104#16 = .illegal .fieldNotZero := by
  decide +kernel

theorem test_decodeTableWord : decodeTableWord 16 0x0103 = some (.crcfold 1) ∧ decodeTableWord 16 0x0007 = none := by decide +kernel

/-! ### The checksum engine -/

/-- V1, V3: TBL[1] = 0x1021, TBL[0x80] = 0x9188, TBL[255] = 0x1EF0; STATUS = 0x0010. -/
theorem test_init_table :
    (session 0x1021).tblAt 1 = 0x1021#16 ∧ (session 0x1021).tblAt 0x80 = 0x9188#16 ∧ (session 0x1021).tblAt 255 = 0x1EF0#16
      ∧ (session 0x1021).reg .status = 0x0010#16 := by
  decide +kernel

/-- V5: POLY = 0x8005 gives TBL[2] = 0x800F, TBL[0xFF] = 0x0202. -/
theorem test_init_other_polynomial : (session 0x8005).tblAt 2 = 0x800F#16 ∧ (session 0x8005).tblAt 255 = 0x0202#16 := by
  decide +kernel

/-- The example of spec/40_checksum.md R97. -/
theorem test_crcclr : (after (exec .crcclr ((session 0x1021).setReg .acc 0x1021))).reg .acc = 0x0000#16 := by decide +kernel

/-- The example of spec/40_checksum.md R98: ACC = 0x1021, byte 02 gives 0x1373. -/
theorem test_crcfold : (after (exec (.crcfold 0x02) ((session 0x1021).setReg .acc 0x1021))).reg .acc = 0x1373#16 := by decide +kernel

/-- V10: acc = 0xFFFF, byte 00 gives 0xE1F0. -/
theorem test_crcfold_truncates : (after (exec (.crcfold 0x00) ((session 0x1021).setReg .acc 0xFFFF))).reg .acc = 0xE1F0#16 := by decide +kernel

/-- V9: the nine bytes. -/
theorem test_nine_bytes : foldBytes (buildEntry 0x1021) 0 [0x31, 0x32, 0x33, 0x34, 0x35, 0x36, 0x37, 0x38, 0x39] = 0x31C3#16 := by
  decide +kernel

/-! ### The framer -/

/-- V15 at START_MARKER = 0xA5: the header and its checksum. -/
theorem test_header_V15 :
    headerFields 0xA5 .accessLow 0x3F 1 AccessType.read.code 0x0B 0x00 0x80 = [0xA5, 0x3F, 0x05, 0x0B, 0x00, 0x80]
      ∧ foldBytes (buildEntry 0x1021) 0 [0xA5, 0x3F, 0x05, 0x0B, 0x00, 0x80] = 0x1602#16 := by
  decide +kernel

/-- V21(a): the mirror layout's control byte. -/
theorem test_control_mirror : controlByte .accessHigh 1 AccessType.read.code = 0x44#8 := by decide +kernel

/-- V18: PLEN = 1: no word announced, one byte framed, PCSUM = 0x0210, TXLEN = 11; SEQ 5 gives control 0x1A. -/
theorem test_build_odd_payload :
    let t := after (exec (.build .write) ((withPay [0x11] 0).setReg .seq 5))
    t.byteAt .tx 2 = 0x1A#8 ∧ t.byteAt .tx 5 = 0x00#8 ∧ t.byteAt .tx 8 = 0x11#8 ∧ t.byteAt .tx 9 = 0x02#8 ∧ t.byteAt .tx 10 = 0x10#8
      ∧ t.reg .txlen = 11#16 ∧ t.reg .pcsum = 0x0210#16 := by
  decide +kernel

/-- V20d: SEQ 15 wraps to 0; control = 0x01; V20i: access type 0 gives ERR = 1 with SEQ advanced. -/
theorem test_build_wrap_and_reject :
    (after (exec (.build .read) ((session 0x1021).setReg .seq 15))).byteAt .tx 2 = 0x01#8
      ∧ (after (exec (.build .unused) (session 0x1021))).reg .status = 0x0011#16
      ∧ (after (exec (.build .unused) (session 0x1021))).reg .seq = 1#16 := by
  decide +kernel

/-! ### The parser -/

/-- V22. -/
theorem test_parse_good :
    let t := after (exec .parse (withRx [0xA5, 0xFF, 0x06, 0x01, 0x00, 0x02, 0xC8, 0x6D]))
    t.reg .rhdrA = 0xA5FF#16 ∧ t.reg .rhdrC = 0x0606#16 ∧ t.reg .rhdrS = 0x0100#16 ∧ t.reg .rhdrL = 0x0002#16
      ∧ t.reg .rhdrK = 0xC86D#16 ∧ t.reg .hcsum = 0xC86D#16 ∧ t.reg .status = 0x0010#16 := by
  decide +kernel

/-- V23: a mismatch still writes the fields. -/
theorem test_parse_mismatch :
    let t := after (exec .parse (withRx [0xA5, 0xFF, 0x06, 0x02, 0x00, 0x02, 0xC8, 0x6D]))
    t.reg .rhdrS = 0x0200#16 ∧ t.reg .hcsum = 0x913D#16 ∧ t.reg .status = 0x0014#16 := by
  decide +kernel

/-- V30. -/
theorem test_pchk_good :
    let t := after (exec .pchk (withPay [0x34, 0x12, 0x78, 0x56] 0x70D8))
    t.reg .pcsum = 0x70D8#16 ∧ t.reg .status = 0x0010#16 := by
  decide +kernel

/-- V31. -/
theorem test_pchk_mismatch :
    let t := after (exec .pchk (withPay [0x35, 0x12, 0x78, 0x56] 0x70D8))
    t.reg .pcsum = 0x066C#16 ∧ t.reg .status = 0x0015#16 := by
  decide +kernel

/-! ### The host port and the step -/

/-- V62, V63, V64, V65. -/
theorem test_host_writes :
    (after (access (.regWrite 1 0xFFFF) State.reset)).reg .status = 0x0000#16
      ∧ (after (access (.regWrite 3 0x1234) State.reset)).reg .addr = 0x0034#16
      ∧ (after (access (.regWrite 10 0xFFFF) State.reset)).reg .plen = 0x01FF#16
      ∧ (after (access (.regWrite 5 5) State.reset)).reg .seq = 0x0000#16 := by
  decide +kernel

/-- V60, V66. -/
theorem test_host_reads :
    (after (access (.regRead 2) State.reset)).reply = some (.word 0x1021#16) ∧ answers (access (.regRead 20) State.reset) = false
      ∧ answers (access (.byteRead .pay 512) State.reset) = false := by
  decide +kernel

/-- V52, V53: before INIT a legal word gives 13, an illegal one 12. -/
theorem test_step_before_init :
    (after (step (State.reset.withFetchWord 16 0x0014))).reg .status = 0x000D#16
      ∧ (after (step (State.reset.withFetchWord 16 0x0000))).reg .status = 0x000C#16 := by
  decide +kernel

/-- The first step after reset with INIT written. -/
theorem test_step_init : (after (step (State.reset.withFetchWord 16 0x0001))).reg .status = 0x0010#16 := by decide +kernel

/-! ### The hypotheses of the statements can be met -/

theorem session_hasSession (p : Word) : (session p).hasSession = true := by simp [session, createSession, State.hasSession]
theorem session_tbl (p : Word) : (session p).tbl = buildTable p := by simp [session]

/-- A state whose next event is the CMD write of `w`. -/
def pendingWord (s : State) (w : Word) : State := s.setPending [.regWrite 0 w]

theorem witness_DecodeEncodeAgree : (Instr.crcfold 0xFF).wf = true ∧ decode 0xFF03#16 = .op (.crcfold 0xFF) := ⟨rfl, rfl⟩

/-- One word for each clause, at the ends of the operand ranges. -/
theorem witness_DecodeFollowsTheProcedure :
    (0x0001#16).toNat / 64 % 4 = 0 ∧ (0x0001#16).toNat % 16 = 1 ∧ (0x0002#16).toNat % 16 = 2 ∧ (0x0003#16).toNat % 16 = 3
      ∧ (0xFF03#16).toNat / 256 = 255 ∧ (0x0034#16).toNat / 16 % 4 = 3 ∧ (0x0005#16).toNat % 16 = 5 ∧ (0x0006#16).toNat % 16 = 6
      ∧ (0x0041#16).toNat / 64 % 4 ≠ 0 ∧ (0x0007#16).toNat % 16 = 7 := by
  decide

theorem witness_StepRunsTheWrittenCommand :
    (pendingWord State.reset 0x0001).pending = .regWrite 0 0x0001 :: [] ∧ decode 0x0001#16 = .op .init
      ∧ 0xFF03 < 65536 ∧ decode (BitVec.ofNat 16 0xFF03) = .op (.crcfold 0xFF) := ⟨rfl, rfl, by decide, rfl⟩

theorem witness_IllegalWordOnlyReports :
    (pendingWord State.reset 0xFFFF).pending = .regWrite 0 0xFFFF :: [] ∧ illegalWord 0xFFFF#16 = true := ⟨rfl, rfl⟩

theorem witness_NothingHappensWithoutTheHost : State.reset.pending = [] := rfl

theorem witness_RegReadReturnsTheRegister :
    registerTable[0]? = some (.cmd, 0xFFFF) ∧ registerTable[19]? = some (.rhdrK, 0xFFFF) := ⟨rfl, rfl⟩

theorem witness_RegWriteObeysAccessRights :
    (11, Reg.trailer, 0xFFFF#16) ∈ rwRegisters ∧ 19 ∈ roNumbers ∧ 1 ∈ roNumbers ∧ decode 0x0034#16 = .op (.build .readWrite)
      ∧ illegalWord 0x0000#16 = true := by
  decide +kernel

theorem witness_BufReadReturnsTheElement :
    Memory.read? (session 0x1021).tbl 255 = some 0x1EF0#16 ∧ Memory.read? (session 0x1021).tbl 256 = none
      ∧ Memory.read? ((withRx [7]).bytes .rx) 0 = some 7#8 ∧ Memory.read? ((withRx [7]).bytes .rx) 1 = none := by
  decide +kernel

theorem witness_BufWriteStoresOneByte :
    ((ByteSpace.pay = .pay ∧ 511 < 512) ∨ (ByteSpace.pay = .rx ∧ 511 < 8)) ∧ ((ByteSpace.rx = .pay ∧ 7 < 512) ∨ (ByteSpace.rx = .rx ∧ 7 < 8)) := by
  decide

theorem witness_NonexistentElementsAreRefused :
    20 ≤ 20 ∧ 256 ≤ 256 ∧ (ByteSpace.pay = .pay ∧ 512 ≤ 512) ∧ (ByteSpace.tx = .tx ∧ 521 ≤ 521) ∧ (ByteSpace.rx = .rx ∧ 8 ≤ 8) := by
  decide

theorem witness_OrderlyHostRunsForever :
    (State.reset.setPending [.regWrite 3 0x3F, .regWrite 0 1, .byteRead .tx 520, .hardReset]).hostOrderly = true := by decide

theorem witness_HardResetRestoresResetValues :
    ((session 0x8005).setPending [.hardReset, .regRead 2]).pending = .hardReset :: [.regRead 2] := rfl

/-- A state other than reset that meets the invariant and takes a step. -/
theorem witness_StepKeepsInv :
    (pendingWord State.reset 0x0001).Inv ∧ ∃ t, step (pendingWord State.reset 0x0001) = .next t := by
  refine ⟨⟨fun r => by cases r <;> decide, ⟨rfl, rfl, fun sp => by cases sp <;> exact ⟨rfl, rfl⟩⟩, ?_, ?_, ?_, ?_, ?_⟩, ?_⟩
  · show errField 0 ∈ _; decide
  · intro h; exact absurd h (by decide)
  · intro _
    refine ⟨rfl, rfl, fun r _ => ?_⟩
    cases r <;> first | rfl | simp_all [sessionRegs]
  · exact ⟨.inl rfl, fun i hi => absurd hi (Nat.not_lt_zero i)⟩
  · show (0 : Word) = splitControl Config.ctrlLayout (loByte 0); decide
  · exact ⟨_, rfl⟩

/-- INIT answers, also at the polynomial 0 and at 0x1021: the hypotheses of TableLaws, TableFoldIsTheShiftRegister, FoldLaws and SingleByteChangeChangesTheChecksum. -/
theorem witness_TableLaws :
    exec .init State.reset = .next (session 0x1021) ∧ State.reset.reg .poly = 0x1021#16
      ∧ exec .init (State.reset.setReg .poly 0) = .next (session 0) ∧ (State.reset.setReg .poly 0).reg .poly = 0 := ⟨rfl, rfl, rfl, rfl⟩

theorem witness_TableFoldIsTheShiftRegister : exec .init State.reset = .next (session 0x1021) := rfl

theorem witness_FoldLaws : exec .init State.reset = .next (session 0x1021) ∧ State.reset.reg .poly = 0x1021#16 := ⟨rfl, rfl⟩

theorem witness_SingleByteChangeChangesTheChecksum :
    exec .init State.reset = .next (session 0x1021) ∧ State.reset.reg .poly = 0x1021#16 ∧ (0xEF#8 ≠ 0xEE#8) := ⟨rfl, rfl, by decide⟩

theorem witness_CrcclrClearsAcc : (session 0x1021).hasSession = true ∧ State.reset.hasSession = false := ⟨session_hasSession _, rfl⟩

theorem witness_CrcfoldFoldsOneByte : (session 0x1021).hasSession = true ∧ State.reset.hasSession = false := ⟨session_hasSession _, rfl⟩

theorem witness_CrcofLeavesTheChecksum : (session 0x8005).hasSession = true := session_hasSession _

theorem witness_SequenceCounterCycles :
    (session 0x1021).hasSession = true ∧ State.reset.hasSession = false ∧ AccessType.readWrite ≠ .unused ∧ [AccessType.unused] ≠ []
      ∧ Instr.pchk ≠ .init ∧ ∀ ty, Instr.pchk ≠ .build ty :=
  ⟨session_hasSession _, rfl, by decide, by decide, by decide, fun ty h => by cases h⟩

theorem witness_BuildRejectsAccessTypeZero : (session 0x1021).hasSession = true := session_hasSession _

/-- No session; a session with no payload, and one with the longest. -/
theorem witness_BuildWritesTheFrame :
    State.reset.hasSession = false ∧ (session 0x1021).hasSession = true ∧ AccessType.read ≠ .unused ∧ len9 ((session 0x1021).reg .plen) = 0
      ∧ ((session 0x1021).setReg .plen 511).hasSession = true ∧ len9 (((session 0x1021).setReg .plen 511).reg .plen) = 511 := by
  refine ⟨rfl, session_hasSession _, by decide, by decide +kernel, by decide +kernel, by decide +kernel⟩

theorem witness_BuiltFrameChecksOut :
    (session 0x1021).hasSession = true ∧ (session 0x1021).tbl = buildTable 0x1021 ∧ AccessType.write ≠ .unused
      ∧ len9 (((session 0x1021).setReg .plen 511).reg .plen) ≠ 0 :=
  ⟨session_hasSession _, session_tbl _, by decide, by decide +kernel⟩

/-- Two states that differ in PLEN's bit 0, and two that differ in SEQ. -/
theorem witness_BuildChecksumsAreIndependent :
    ((session 0x1021).setReg .plen 3).hasSession = true ∧ (∀ r, r ≠ .plen → ((session 0x1021).setReg .plen 3).reg r = ((session 0x1021).setReg .plen 2).reg r)
      ∧ ((session 0x1021).setReg .plen 3).table = ((session 0x1021).setReg .plen 2).table ∧ len9 3 / 2 = len9 2 / 2
      ∧ (((session 0x1021).setReg .plen 2).setReg .seq 9).hasSession = true ∧ len9 2 ≠ 0 := by
  refine ⟨by decide +kernel, fun r h => by simp [h], by simp, by decide, by decide +kernel, by decide⟩

theorem witness_ParseSplitsTheHeader : State.reset.hasSession = false ∧ (withRx [1, 2, 3, 4, 5, 6, 7, 8]).hasSession = true := by decide +kernel

theorem witness_ParseZeroHeaderPasses :
    (withRx (List.replicate 8 0)).hasSession = true ∧ (withRx (List.replicate 8 0)).tbl = buildTable 0x1021
      ∧ (∀ i < 8, (withRx (List.replicate 8 0)).byteAt .rx i = 0) ∧ (session 0).hasSession = true ∧ (session 0).tbl = buildTable 0 := by
  refine ⟨by decide +kernel, by simp [withRx, session_tbl], by decide +kernel, session_hasSession _, session_tbl _⟩

theorem witness_PchkComparesThePayload : State.reset.hasSession = false ∧ (withPay [1, 2] 3).hasSession = true := by decide +kernel

theorem witness_PchkCornerCases :
    (session 0x1021).hasSession = true ∧ len9 ((session 0x1021).reg .plen) = 0
      ∧ (withPay [0, 0] 0).hasSession = true ∧ (withPay [0, 0] 0).tbl = buildTable 0x1021
      ∧ (∀ i < len9 ((withPay [0, 0] 0).reg .plen), (withPay [0, 0] 0).byteAt .pay i = 0)
      ∧ len9 ((withPay [0, 0] 0).reg .plen) ≠ 0 ∧ AccessType.write ≠ .unused := by
  refine ⟨session_hasSession _, by decide +kernel, by decide +kernel, by simp [withPay, session_tbl], by decide +kernel, by decide +kernel, by decide⟩

theorem witness_NoSessionDoesNothing : Instr.parse ≠ .init ∧ State.reset.hasSession = false := ⟨by decide, rfl⟩

/-- A CMD write that ends in each of the failure codes. -/
theorem witness_FailedOperationChangesOnlyItsFootprint :
    errField ((after (step (pendingWord (session 0x1021) 0x0000))).reg .status) = 12
      ∧ errField ((after (step (pendingWord State.reset 0x0014))).reg .status) = 13
      ∧ errField ((after (step (pendingWord (session 0x1021) 0x0004))).reg .status) = 1
      ∧ errField ((after (step (pendingWord (withRx (List.replicate 8 0xFF)) 0x0005))).reg .status) = 4
      ∧ errField ((after (step (pendingWord (withPay [] 1) 0x0006))).reg .status) = 5 := by
  decide +kernel

theorem witness_ErrorPrecedence : (pendingWord State.reset 0x0006).pending = .regWrite 0 0x0006 :: [] := rfl

theorem witness_StatusHoldsTheLastResult :
    answers (step (pendingWord (session 0x1021) 0x0002)) = true ∧ answers (step ((session 0x1021).setPending [.hardReset])) = true
      ∧ answers (step ((session 0x1021).setPending [.regWrite 2 7])) = true ∧ (session 0x1021).reg .status &&& 0xFFE0#16 = 0 := by
  decide +kernel

theorem witness_PolyAndAddrAreSeenOnlyAtInit :
    answers (step ((session 0x1021).setPending [.regWrite 2 7])) = true ∧ HostEvent.regWrite 2 7 ≠ .hardReset
      ∧ (∀ w, HostEvent.regWrite 2 7 = .regWrite 0 w → decode w ≠ .op .init) ∧ Instr.parse ≠ .init := by
  refine ⟨by decide +kernel, by decide, fun w h => ?_, by decide⟩
  injection h with h _
  exact absurd h (by decide)

/-- Two states that agree on what CRCFOLD reads and differ in POLY and PAY. -/
theorem witness_OperationsReadOnlyTheirFootprint :
    let s := session 0x1021
    let s' := (s.setReg .poly 7).setBytes .pay [(0, 9)]
    s'.hasSession = s.hasSession ∧ (∀ r ∈ regsRead (.crcfold 1), s'.reg r = s.reg r)
      ∧ (∀ k, tableIndexRead (.crcfold 1) s k → s'.tblAt k = s.tblAt k) ∧ readsPayload (.crcfold 1) = false ∧ readsRx (.crcfold 1) = false := by
  refine ⟨by decide +kernel, fun r h => ?_, fun k _ => by simp, rfl, rfl⟩
  simp only [regsRead, List.mem_singleton] at h
  subst h; simp

/-- The parameters of spec/95_test_vectors.md: 1, 2, 4, 6, 8. -/
def params : FirmwareParams := ⟨1, 2, 4, 6, 8, fun c => decide (2 ≤ c.toNat)⟩

theorem witness_StatusOneDecidesTheFailure :
    params.wf = true ∧ (session 0x1021).hasSession = true
      ∧ foldBytes (session 0x1021).table 0 [0xA5, 0xFF, 0x06, 0x02, 0x00, 0x02] = 0x91#8 ++ 0x3D#8
      ∧ (9#8 ∉ [params.complete, params.incomplete, params.invalid, params.noAccess, params.frameErr]) := by
  refine ⟨by decide +kernel, session_hasSession _, by decide +kernel, by decide +kernel⟩

theorem witness_SendFailuresEndTheExchange :
    (session 0x1021).hasSession = true ∧ (writeRequest 7 0 (List.replicate 511 0)).wf = true
      ∧ (writeRequest 7 0 (List.replicate 511 0)).ty ≠ .unused ∧ 520 ≠ 10 + (writeRequest 7 0 (List.replicate 511 0)).payload.length
      ∧ (readRequest 11 0 256).wf = true ∧ (readRequest 11 0 256).payload.length = 0 ∧ 7 ≠ 8 := by
  refine ⟨session_hasSession _, by decide +kernel, by decide, by decide +kernel, by decide, rfl, by decide⟩

/-- Each way a payload read ends. -/
theorem witness_PayloadNeverOverrunsTheBuffer :
    (readPayload 1 1 [.byte 7]).failure = none ∧ (readPayload 2 1 [.byte 7, .byte 8]).failure = some .payloadBufferOverflow
      ∧ (readPayload 2 1 [.byte 7, .timeout]).failure = some .readTimeout
      ∧ ([7#8, 8#8] : List Byte).length = 1 + 1 ∧ 1 < 2 := by
  decide

/-- A payload of one word, and none. -/
theorem witness_EchoReturnsThePayload :
    (session 0x1021).hasSession = true ∧ (writeRequest 7 0 [0x0F, 0x00]).ty = .write ∧ (writeRequest 7 0 [0x0F, 0x00]).payload.length ≤ 510
      ∧ (writeRequest 7 0 [0x0F, 0x00]).payload.length % 2 = 0 ∧ (writeRequest 7 0 [0x0F, 0x00]).payload.length ≤ 2
      ∧ (writeRequest 7 0 []).payload.length ≤ 0 ∧ (writeRequest 7 0 []).payload.length % 2 = 0
      ∧ params.dataBearing AccessType.write.code = true := by
  refine ⟨session_hasSession _, rfl, by decide, by decide, by decide, by decide, by decide, by decide⟩

theorem witness_FacadeCallsAreExchanges :
    (session 0x1021).hasSession = true ∧ (List.replicate 511 (0#8)).length ≤ 511 := ⟨session_hasSession _, by decide +kernel⟩

/-! ### The notation of spec/30_encoding.md R75 -/

/-- Program P1: RB TBL[1] and RB TBL[255] after INIT. -/
theorem test_RB_TBL :
    (after (access (asmRBTbl 1) (session 0x1021))).reply = some (.word 0x1021#16)
      ∧ (after (access (asmRBTbl 255) (session 0x1021))).reply = some (.word 0x1EF0#16) := by decide +kernel

/-- V67: WB TBL[0], 0x1234 and WB TX[0], 0x00 are ignored; WB PAY[0], 0xDE is not. -/
theorem test_WB_read_only :
    (after (access (asmWBTbl 0 0x1234) (session 0x1021))).tblAt 0 = 0x0000#16
      ∧ (after (access (asmWBAt .tx 0 0x00) (session 0x1021))).bytes .tx = []
      ∧ (after (access (asmWBAt .pay 0 0xDE) (session 0x1021))).bytes .pay = [(0, 0xDE#8)] := by decide +kernel

/-! ### The host's contract (spec/43_firmware_contract.md R163) -/

/-- A host that has issued INIT and written the operands of a command. -/
def prepared : HostRecord := ⟨true, [.index, .offset, .rlen, .plen], [], some .init, false, .idle, none⟩

/-- R163, before BUILD: no INIT, no operands, no PAY byte, a response outstanding, an odd length, another caller. -/
theorem test_contract_build :
    moveAllowed true prepared 1 (.access (.regWrite 0 0x0014)) (session 0x1021) = true
      ∧ moveAllowed true HostRecord.initial 1 (.access (.regWrite 0 0x0014)) (session 0x1021) = false
      ∧ moveAllowed true { prepared with operands := [.index, .offset, .plen] } 1 (.access (.regWrite 0 0x0014)) (session 0x1021) = false
      ∧ moveAllowed true prepared 1 (.access (.regWrite 0 0x0024)) ((session 0x1021).setReg .plen 2) = false
      ∧ moveAllowed true { prepared with phase := .outstanding } 1 (.access (.regWrite 0 0x0014)) (session 0x1021) = false
      ∧ moveAllowed true prepared 1 (.access (.regWrite 0 0x0024)) (withPay [1] 0) = false
      ∧ moveAllowed false prepared 1 (.access (.regWrite 0 0x0024)) (withPay [1] 0) = true
      ∧ moveAllowed true { prepared with holder := some 2 } 1 (.access (.regWrite 0 0x0014)) (session 0x1021) = false := by
  decide +kernel

/-- R163, before PARSE and before PCHK. -/
theorem test_contract_receive :
    moveAllowed true { prepared with header := [7, 6, 5, 4, 3, 2, 1, 0] } 1 (.access (.regWrite 0 0x0005)) (session 0x1021) = true
      ∧ moveAllowed true { prepared with header := [7, 6, 5, 4, 3, 2, 1] } 1 (.access (.regWrite 0 0x0005)) (session 0x1021) = false
      ∧ moveAllowed true { prepared with operands := [.trailer, .plen] } 1 (.access (.regWrite 0 0x0006)) (withPay [1, 2] 3) = true
      ∧ moveAllowed true prepared 1 (.access (.regWrite 0 0x0006)) (withPay [1, 2] 3) = false := by
  decide +kernel

/-- R163, after BUILD and after PARSE: ERR is read first. -/
theorem test_contract_status :
    moveAllowed true { prepared with phase := .built } 1 (.access (.regWrite 0 0x0002)) (session 0x1021) = false
      ∧ moveAllowed true { prepared with phase := .built } 1 (.transmit [] 0) (session 0x1021) = false
      ∧ (({ prepared with phase := .built } : HostRecord).after 1 (.access (.regRead 1)) (session 0x1021)).phase = .ready
      ∧ moveAllowed true { prepared with phase := .ready } 1 (.transmit [0] 1) (session 0x1021) = false
      ∧ (({ prepared with phase := .transmitted 3 } : HostRecord).after 1 .compareCount (session 0x1021)).phase = .idle
      ∧ (({ prepared with phase := .transmitted 0 } : HostRecord).after 1 .compareCount (session 0x1021)).phase = .outstanding
      ∧ moveAllowed true { prepared with last := some .parse } 1 .useHeader (session 0x1021) = false
      ∧ (({ prepared with last := some .parse } : HostRecord).after 1 (.access (.regRead 1)) (session 0x1021)).headerChecked = true := by
  decide +kernel

/-- R163: RX, PAY and RW registers may be written at any time, also before the count is compared; no PARSE and no end of the exchange then. -/
theorem test_contract_uncompared :
    moveAllowed true { prepared with phase := .transmitted 8 } 1 (.access (.byteWrite .rx 0 7)) (session 0x1021) = true
      ∧ moveAllowed true { prepared with phase := .transmitted 8 } 1 (.access (.regWrite 11 7)) (session 0x1021) = true
      ∧ moveAllowed true { prepared with phase := .transmitted 8, header := [7, 6, 5, 4, 3, 2, 1, 0] } 1 (.access (.regWrite 0 0x0005))
          (session 0x1021) = false
      ∧ moveAllowed true { prepared with phase := .transmitted 8 } 1 .endExchange (session 0x1021) = false := by
  decide +kernel

/-- A STATUS read after a PARSE, a frame sent and compared, and an allowed write. -/
theorem witness_HostRecordFollowsTheMoves :
    HostMove.access (.regRead 1) ≠ .access .hardReset ∧ ReadsStatus prepared 1 (.access (.regRead 1)) ∧ prepared.holder = none
      ∧ Issues (.access (.regWrite 0 0x0005)) .parse ∧ ({ prepared with phase := .built } : HostRecord).phase = .built
      ∧ errField ((session 0x1021).reg .status) = 0 ∧ ({ prepared with phase := .transmitted 8 } : HostRecord).phase = .transmitted 8
      ∧ moveAllowed true { prepared with phase := .outstanding } 1 (.access (.byteWrite .rx 0 7)) (session 0x1021) = true
      ∧ isHostRead (.byteWrite .rx 0 7) = false := by
  refine ⟨by decide, ⟨rfl, .inl rfl⟩, rfl, ⟨0x0005, rfl, rfl⟩, rfl, by decide +kernel, rfl, by decide +kernel, rfl⟩

/-- One allowed move for each row. -/
theorem witness_HostContractRows :
    moveAllowed true prepared 1 (.access (.regWrite 0 0x0014)) (session 0x1021) = true ∧ decode 0x0014 = .op (.build .read)
      ∧ moveAllowed true { prepared with header := [7, 6, 5, 4, 3, 2, 1, 0] } 1 (.access (.regWrite 0 0x0005)) (session 0x1021) = true
      ∧ moveAllowed true { prepared with operands := [.trailer, .plen] } 1 (.access (.regWrite 0 0x0006)) (withPay [1, 2] 3) = true
      ∧ moveAllowed true { prepared with phase := .ready } 1 (.transmit [] 0) (session 0x1021) = true
      ∧ moveAllowed true { prepared with headerChecked := true } 1 .useHeader (session 0x1021) = true
      ∧ moveAllowed true prepared 1 .endExchange (session 0x1021) = true
      ∧ moveAllowed true { prepared with phase := .transmitted 0 } 1 .compareCount (session 0x1021) = true
      ∧ moveAllowed true { prepared with holder := some 2 } 1 (.access (.regRead 19)) (session 0x1021) = true
      ∧ isHostRead (.regRead 19) = true ∧ prepared.holder = none := by
  refine ⟨by decide +kernel, rfl, by decide +kernel, by decide +kernel, by decide +kernel, by decide +kernel, by decide +kernel,
    by decide +kernel, by decide +kernel, rfl, rfl⟩

/-- A host that has issued INIT agrees with the session it made. -/
theorem prepared_agrees : RecordAgrees prepared (session 0x1021) := by
  refine ⟨fun _ => ⟨session_hasSession _, by decide +kernel⟩, ?_, ?_, ?_⟩ <;> simp [prepared]

theorem witness_ContractKeepsRecordAndBlockInStep :
    RecordAgrees prepared (session 0x1021) ∧ moveAllowed true prepared 1 (.access (.regWrite 0 0x0014)) (session 0x1021) = true :=
  ⟨prepared_agrees, by decide +kernel⟩

theorem witness_ContractReadsNothingUnwritten :
    RecordAgrees prepared (session 0x1021) ∧ decode 0x0014 = .op (.build .read)
      ∧ moveAllowed true prepared 1 (.access (.regWrite 0 0x0014)) (session 0x1021) = true
      ∧ RecordAgrees { prepared with phase := .ready } (session 0x1021)
      ∧ moveAllowed true { prepared with phase := .ready } 1 (.transmit [] 0) (session 0x1021) = true := by
  refine ⟨prepared_agrees, rfl, by decide +kernel, ⟨prepared_agrees.session, by simp [prepared], by simp, fun _ _ => ?_⟩, by decide +kernel⟩
  intro i hi
  exact absurd hi (by rw [show ((session 0x1021).hostReg .txlen).toNat = 0 by decide +kernel]; omega)

theorem witness_ExchangeKeepsTheContract :
    (writeRequest 7 0 [0x0F, 0x00]).wf = true ∧ (writeRequest 7 0 [0x0F, 0x00]).payload.length % 2 = 0 ∧ prepared.created = true
      ∧ prepared.phase = .idle ∧ prepared.holder = none := by
  decide

end Sys2Proof.Tests
end

section
/-! SUPPORT. What an operation and an access can do, said once: an operation ends in `finish` of its code on its own work, an access is a reset, a command, one write, or nothing but a reply. -/

namespace Sys2Proof.Machine

/-! ### The bits of STATUS -/

/-- The codes the block itself produces (spec/60_exceptions.md R170). -/
abbrev ResultCode.Produced (c : ResultCode) : Prop := c.code ∈ ([0, 1, 4, 5, 12, 13] : List (BitVec 4))

/-- A result code leaves the bits of STATUS outside ERR and SESSION alone. -/
@[simp] theorem setErr_undefinedBits (v : Word) (c : BitVec 4) : setErr v c &&& 0xFFE0#16 = v &&& 0xFFE0#16 := by
  have hc : c.zeroExtend 16 &&& 0xFFE0#16 = 0#16 := by revert c; decide
  have hm : v &&& 0xFFF0#16 &&& 0xFFE0#16 = v &&& 0xFFE0#16 := by rw [BitVec.and_assoc]; rfl
  rw [setErr, BitVec.and_or_distrib_right, hm, hc, BitVec.or_zero]

/-- SESSION set leaves the bits of STATUS outside ERR and SESSION alone. -/
@[simp] theorem setSession_undefinedBits (v : Word) : setSession v &&& 0xFFE0#16 = v &&& 0xFFE0#16 := by
  rw [setSession, BitVec.and_or_distrib_right, show 0x0010#16 &&& 0xFFE0#16 = 0#16 from rfl, BitVec.or_zero]

/-- SESSION set leaves ERR alone. -/
@[simp] theorem errField_setSession (v : Word) : errField (setSession v) = errField v := by
  rw [errField, setSession, BitVec.extractLsb'_or]
  exact BitVec.or_zero

/-! ### The operations -/

/-- What operation `i` does before its `finish`, its session check passed. -/
def workOf (i : Instr) (s : State) : State :=
  match i with
  | .init => createSession s
  | .crcclr => s.setReg .acc 0
  | .crcfold b => s.setReg .acc (foldByte s.table (s.reg .acc) b)
  | .build .unused => s.advanceSeq
  | .build ty => buildPayload (buildHeader ty s.advanceSeq)
  | .parse => extractHeader s
  | .pchk => s.setReg .pcsum (s.checksum s.payload)

/-- The code operation `i` finishes with, its session check passed. -/
def codeOf (i : Instr) (s : State) : ResultCode :=
  match i with
  | .build .unused => .invalidAccessType
  | .parse =>
    if s.checksum s.responseHeader = joinBytes (s.byteAt .rx 6) (s.byteAt .rx 7) then .ok else .headerChecksumMismatch
  | .pchk => if s.checksum s.payload = s.reg .trailer then .ok else .payloadChecksumMismatch
  | _ => .ok

/-- With its session check passed an operation does its work and finishes with its code. -/
theorem exec_eq_finish_workOf {i : Instr} {s : State} (h : i = .init ∨ s.hasSession = true) :
    exec i s = .next (finish (codeOf i s) (workOf i s)) := by
  cases i with
  | init => rfl
  | crcclr | crcfold b => exact congrArg _ (withSession_of_session (h.resolve_left nofun) _)
  | build ty => cases ty <;> exact congrArg _ (withSession_of_session (h.resolve_left nofun) _)
  | parse => exact execParse_of_session (h.resolve_left nofun)
  | pchk => exact execPchk_of_session (h.resolve_left nofun)

/-- Without a session every operation but INIT only reports it (spec/60_exceptions.md R171). -/
theorem exec_of_noSession {i : Instr} {s : State} (hi : i ≠ .init) (h : s.hasSession = false) :
    exec i s = .next (finish .noSession s) := by
  cases i with
  | init => exact absurd rfl hi
  | crcclr | crcfold b | build ty | parse | pchk => exact congrArg _ (withSession_of_none h _)

/-- All an operation can do. -/
theorem exec_cases {i : Instr} {s t : State} (h : exec i s = .next t) :
    (i ≠ .init ∧ s.hasSession = false ∧ t = finish .noSession s)
      ∨ ((i = .init ∨ s.hasSession = true) ∧ t = finish (codeOf i s) (workOf i s)) := by
  by_cases hp : i = .init ∨ s.hasSession = true
  · rw [exec_eq_finish_workOf hp] at h
    cases h; exact .inr ⟨hp, rfl⟩
  · obtain ⟨hi, hs⟩ := not_or.mp hp
    rw [exec_of_noSession hi (Bool.eq_false_iff.mpr hs)] at h
    cases h; exact .inl ⟨hi, Bool.eq_false_iff.mpr hs, rfl⟩

/-- An operation's code is one the block produces. -/
theorem codeOf_produced (i : Instr) (s : State) : (codeOf i s).Produced := by
  cases i with
  | init | crcclr | crcfold b => simp only [codeOf]; decide
  | build ty => cases ty <;> simp only [codeOf] <;> decide
  | parse | pchk => simp only [codeOf]; split <;> decide

/-- The work of an operation leaves STATUS alone; INIT's sets SESSION. -/
theorem workOf_status (i : Instr) (s : State) :
    (workOf i s).reg .status = if i = .init then setSession (s.reg .status) else s.reg .status := by
  cases i with
  | init => simp [workOf, createSession]
  | crcclr | crcfold b | pchk => simp [workOf]
  | parse => simp [workOf, extractHeader_reg]
  | build ty =>
    have hb : (buildPayload (buildHeader ty s.advanceSeq)).reg .status = s.reg .status := by
      simp only [buildPayload]; split <;> simp [buildHeader]
    cases ty <;> simp [workOf, hb]

/-! ### The command -/

theorem runCommand_of_op {w : Word} {i : Instr} (h : decode w = .op i) (s : State) : runCommand w s = exec i (s.setReg .cmd w) := by
  simp [runCommand, h]

theorem runCommand_of_illegal {w : Word} {r : IllegalReason} (h : decode w = .illegal r) (s : State) :
    runCommand w s = .next (finish .illegalCommand (s.setReg .cmd w)) := by
  simp [runCommand, h]

/-- STATUS after a command: ERR a produced code, SESSION set if it was or if the word is INIT's (spec/10_state.md R14). -/
theorem runCommand_status {w : Word} {s t : State} (h : runCommand w s = .next t) :
    ∃ c : ResultCode, c.Produced ∧
      t.reg .status = setErr (if decode w = .op .init then setSession (s.reg .status) else s.reg .status) c.code := by
  cases hd : decode w with
  | illegal r =>
    rw [runCommand_of_illegal hd] at h
    cases h
    exact ⟨.illegalCommand, by decide, by simp⟩
  | op i =>
    rw [runCommand_of_op hd] at h
    obtain ⟨hi, -, rfl⟩ | ⟨-, rfl⟩ := exec_cases h
    · exact ⟨.noSession, by decide, by simp [hi]⟩
    · exact ⟨codeOf i (s.setReg .cmd w), codeOf_produced i _, by simp [workOf_status]⟩

/-! ### The accesses -/

/-- What an access that answers does: run a command, write one RW register, write one byte of PAY or RX, reset the block, or nothing but set the reply. -/
inductive AccessEffect (s : State) : HostEvent → State → Prop
  | command {w : Word} {t : State} (h : runCommand w (s.setReply none) = .next t) : AccessEffect s (.regWrite 0 w) t
  | register {r : Reg} {v : Word} (h : regAccess r = .rw) :
      AccessEffect s (.regWrite (regNumber r) v) ((s.setReply none).setReg r (v &&& regMask r))
  | byte {sp : ByteSpace} {i : Nat} {v : Byte} (hw : hostWritable sp = true) (hi : i < sp.size) :
      AccessEffect s (.byteWrite sp i v) ((s.setReply none).setBytes sp (Memory.write (s.bytes sp) i v))
  | reply {e : HostEvent} {x : Option Reply} (hr : e ≠ .hardReset) (hc : ∀ w, e ≠ .regWrite 0 w) : AccessEffect s e (s.setReply x)
  | hardReset : AccessEffect s .hardReset (Machine.hardReset s)

/-- A write of a register that exists. -/
theorem regWrite_effect {n : Nat} {r : Reg} (hn : regOfNumber n = some r) {v : Word} {s t : State}
    (h : hostRegWrite n v (s.setReply none) = .next t) : AccessEffect s (.regWrite n v) t := by
  obtain ⟨rfl, -⟩ := regOfNumber_eq_some hn
  simp only [hostRegWrite, hn] at h
  by_cases hr : r = .cmd
  · subst hr
    exact .command h
  · have hc : ∀ w, HostEvent.regWrite (regNumber r) v ≠ .regWrite 0 w := fun w he =>
      hr (regNumber_inj.mp (HostEvent.regWrite.inj he).1)
    rw [if_neg hr] at h
    cases h
    cases ha : regAccess r with
    | rw => simpa only [State.hostSetReg, ha] using AccessEffect.register ha
    | ro | wt =>
      simp only [State.hostSetReg, ha]
      exact .reply nofun hc

/-- Every access that answers has one of the effects. -/
theorem access_effect {e : HostEvent} {s t : State} (h : access e s = .next t) : AccessEffect s e t := by
  cases e with
  | regRead n =>
    simp only [access, hostRegRead] at h
    split at h <;> cases h
    exact .reply nofun nofun
  | regWrite n v =>
    cases hn : regOfNumber n with
    | none => simp [access, hostRegWrite, hn] at h
    | some r => exact regWrite_effect hn h
  | tblRead i | tblWrite i v | byteRead sp i =>
    simp only [access, hostTblRead, hostTblWrite, hostByteRead] at h
    split at h <;> cases h
    exact .reply nofun nofun
  | byteWrite sp i v =>
    simp only [access, hostByteWrite] at h
    split at h <;> cases h
    split
    · exact .byte ‹_› ‹_›
    · exact .reply nofun nofun
  | hardReset => cases h; exact .hardReset

/-- The registers the host may write are none that only sessions write. -/
theorem rw_not_session {r : Reg} (h : regAccess r = .rw) : r ≠ .status ∧ r ∉ sessionRegs := by
  revert h; cases r <;> decide

/-- STATUS after any access but a command or the hard reset is as it was (spec/10_state.md R14). -/
theorem access_status_unchanged {e : HostEvent} {s t : State} (h : access e s = .next t) (hr : e ≠ .hardReset)
    (hc : ∀ w, e ≠ .regWrite 0 w) : t.reg .status = s.reg .status := by
  cases access_effect h with
  | command => exact absurd rfl (hc _)
  | register hrw => simp [(rw_not_session hrw).1.symm]
  | byte => simp
  | reply => simp
  | hardReset => exact absurd rfl hr

/-- A step with an event pending is that event's access. -/
theorem step_of_pending {s : State} {e : HostEvent} {rest : List HostEvent} (h : s.pending = e :: rest) :
    Machine.step s = access e (s.setPending rest) := by
  simp [Machine.step, h]

end Sys2Proof.Machine
end

section
/-! SUPPORT. What keeps the invariant: each kind of state update under what it asks, then each operation's work, a command, an access. -/

namespace Sys2Proof.Machine

/-! ### The values that are stored -/

/-- A number of `k` bits has none of the bits above them. -/
theorem undefinedBits_zero_of_lt {v : Word} {k : Nat} (h : v.toNat < 2 ^ k) : v &&& ~~~(BitVec.ofNat 16 (2 ^ k - 1)) = 0 := by
  apply BitVec.eq_of_getLsbD_eq
  intro i hi
  by_cases hk : i < k
  · simp [BitVec.getLsbD_ofNat, Nat.testBit_two_pow_sub_one, hk, hi]
  · have hv : v.getLsbD i = false :=
      Nat.testBit_lt_two_pow (h.trans_le (Nat.pow_le_pow_right Nat.two_pos (Nat.le_of_not_lt hk)))
    simp [hv]

/-- A masked value has none of the bits outside the mask. -/
theorem undefinedBits_and_mask (v m : Word) : v &&& m &&& ~~~m = 0 := by
  rw [BitVec.and_assoc, BitVec.and_not_self]; exact BitVec.and_zero

/-- A value of a register all of whose 16 bits are defined. -/
theorem undefinedBits_of_fullMask (v : Word) : v &&& ~~~0xFFFF#16 = 0 := BitVec.and_zero

/-- A byte in a register of 8 defined bits. -/
theorem undefinedBits_zeroExtend_byte (b : Byte) : b.zeroExtend 16 &&& ~~~0x00FF#16 = 0 :=
  undefinedBits_zero_of_lt (k := 8) (by simp; omega)

/-- RAW is the control byte as received (spec/10_state.md R28). -/
theorem loByte_splitControl (layout : CtrlLayout) (c : Byte) : loByte (splitControl layout c) = c := by
  apply BitVec.eq_of_getLsbD_eq
  intro i hi
  simp only [loByte, splitControl, BitVec.getLsbD_extractLsb', BitVec.getLsbD_append, Nat.zero_add]
  simp [hi, show i < 10 by omega, show i < 14 by omega]

/-! ### The contents of the buffers -/

/-- After a list of writes an element is written where the list reaches, and where it was. -/
theorem Memory.isSome_read?_writeList {width : Nat} (m : Memory width) (vs : List (BitVec width)) (i j : Nat) :
    (Memory.read? (Memory.writeList m i vs) j).isSome = true
      ↔ (i ≤ j ∧ j < i + vs.length) ∨ (Memory.read? m j).isSome = true := by
  rw [Memory.read?_writeList]
  split
  · simp; omega
  · simp [*]

/-- A table listed entry by entry from `lo` on rises. -/
theorem Memory.risingFrom_map_range' {width : Nat} (f : Nat → BitVec width) (n : Nat) :
    ∀ lo, Memory.risingFrom lo ((List.range' lo n).map fun i => (i, f i)) = true := by
  induction n with
  | zero => intro lo; rfl
  | succ n ih => intro lo; simp [List.range'_succ, Memory.risingFrom, ih]

theorem wf_buildTable (p : Word) : Memory.wf (buildTable p) = true := by
  rw [Memory.wf, buildTable, List.range_eq_range']
  exact Memory.risingFrom_map_range' _ _ 0

theorem within_buildTable (p : Word) : Memory.within Config.tblSize (buildTable p) = true := by
  simp [Memory.within, buildTable]

/-! ### The invariant under the updates of the state -/

/-- The invariant speaks of the registers and the buffers alone. -/
theorem State.Inv.of_same {s t : State} (h : s.Inv) (hr : ∀ r, t.reg r = s.reg r) (ht : t.tbl = s.tbl)
    (hb : ∀ sp, t.bytes sp = s.bytes sp) : t.Inv := by
  obtain ⟨hz, hbuf, herr, htbl, hfresh, htx, hctl⟩ := h
  constructor
  · simpa only [State.HardwiredZero, hr] using hz
  · simpa only [State.BuffersCanonical, ht, hb] using hbuf
  · simpa only [State.ErrProduced, hr] using herr
  · simpa only [State.SessionTable, State.hasSession, hr, ht] using htbl
  · simpa only [State.FreshWithoutSession, State.hasSession, hr, ht, hb] using hfresh
  · simpa only [State.FrameInTx, hr, hb] using htx
  · simpa only [State.ControlSplit, hr] using hctl

/-- Only a write of STATUS can change whether a session exists. -/
@[simp] theorem hasSession_setReg {s : State} {r : Reg} (h : r ≠ .status) (v : Word) : (s.setReg r v).hasSession = s.hasSession := by
  simp [State.hasSession, h.symm]

@[simp] theorem hasSession_setBytes (s : State) (sp : ByteSpace) (m : Memory 8) : (s.setBytes sp m).hasSession = s.hasSession := by
  simp [State.hasSession]

/-- A value TXLEN may take: no frame, a header, or a header and a payload (spec/10_state.md R24), its bytes in TX. -/
def State.FrameOfLength (s : State) (v : Word) : Prop :=
  (v.toNat = 0 ∨ v.toNat = 8 ∨ (11 ≤ v.toNat ∧ v.toNat ≤ 521)) ∧ ∀ i < v.toNat, (Memory.read? (s.bytes .tx) i).isSome = true

theorem frameInTx_iff (s : State) : s.FrameInTx ↔ s.FrameOfLength (s.reg .txlen) := Iff.rfl

/-- A register other than STATUS takes a value of its own bits; one that only sessions write, in a session; TXLEN a frame's length; RHDR_C a split control byte. -/
theorem State.Inv.setReg {s : State} (h : s.Inv) {r : Reg} {v : Word} (hbits : v &&& ~~~(regMask r) = 0) (hst : r ≠ .status)
    (hses : s.hasSession = true ∨ r ∉ sessionRegs) (htxlen : r = .txlen → s.FrameOfLength v)
    (hctrl : r = .rhdrC → v = splitControl Config.ctrlLayout (loByte v)) : (s.setReg r v).Inv := by
  obtain ⟨hz, hbuf, herr, htbl, hfresh, htx, hctl⟩ := h
  constructor
  · intro q
    by_cases hq : q = r
    · subst hq; simpa using hbits
    · simpa [hq] using hz q
  · simpa only [State.BuffersCanonical, setReg_tbl, setReg_bytes] using hbuf
  · simpa [State.ErrProduced, hst.symm] using herr
  · simpa [State.SessionTable, hst] using htbl
  · intro hn
    rw [hasSession_setReg hst] at hn
    obtain ⟨h1, h2, h3⟩ := hfresh hn
    refine ⟨by simpa using h1, by simpa using h2, fun q hq => ?_⟩
    have hr : r ∉ sessionRegs := hses.resolve_left (by simp [hn])
    have hqr : q ≠ r := fun he => hr (he ▸ hq)
    simpa [hqr] using h3 q hq
  · by_cases hr : r = .txlen
    · subst hr; simpa [frameInTx_iff, State.FrameOfLength] using htxlen rfl
    · simpa [frameInTx_iff, State.FrameOfLength, Ne.symm hr] using htx
  · by_cases hr : r = .rhdrC
    · subst hr; simpa [State.ControlSplit] using hctrl rfl
    · simpa [State.ControlSplit, Ne.symm hr] using hctl

/-- In a session a register of 16 defined bits other than RHDR_C takes any value. -/
theorem State.Inv.setWide {s : State} (h : s.Inv) (hs : s.hasSession = true) (r : Reg) (hr : regMask r = 0xFFFF#16)
    (hc : r ≠ .rhdrC) (v : Word) : (s.setReg r v).Inv :=
  h.setReg (hr ▸ undefinedBits_of_fullMask v) (fun he => absurd (he ▸ hr) (by decide)) (.inl hs)
    (fun he => absurd (he ▸ hr) (by decide)) (fun he => absurd he hc)

/-- A byte buffer takes canonical contents within its size; TX, in a session and with no element lost. -/
theorem State.Inv.setBytes {s : State} (h : s.Inv) {sp : ByteSpace} {m : Memory 8} (hwf : Memory.wf m = true)
    (hin : Memory.within sp.size m = true)
    (htx : sp = .tx → s.hasSession = true ∧ ∀ i, (Memory.read? (s.bytes .tx) i).isSome = true → (Memory.read? m i).isSome = true) :
    (s.setBytes sp m).Inv := by
  obtain ⟨hz, ⟨hbt, hbw, hbs⟩, herr, htbl, hfresh, ⟨hlen, hwritten⟩, hctl⟩ := h
  constructor
  · simpa [State.HardwiredZero] using hz
  · refine ⟨by simpa using hbt, by simpa using hbw, fun sq => ?_⟩
    by_cases hq : sq = sp
    · subst hq; simpa using ⟨hwf, hin⟩
    · simpa [hq] using hbs sq
  · simpa [State.ErrProduced] using herr
  · simpa [State.SessionTable] using htbl
  · intro hn
    rw [hasSession_setBytes] at hn
    have hsp : ByteSpace.tx ≠ sp := fun he => by simp [(htx he.symm).1] at hn
    simpa [hsp] using hfresh hn
  · refine ⟨by simpa using hlen, fun i hi => ?_⟩
    rw [reg_setBytes] at hi
    by_cases hsp : sp = .tx
    · subst hsp; simpa using (htx rfl).2 i (hwritten i hi)
    · simpa [Ne.symm hsp] using hwritten i hi
  · simpa [State.ControlSplit] using hctl

/-- The end of an operation keeps the invariant. -/
theorem State.Inv.finish {s : State} (h : s.Inv) {c : ResultCode} (hc : c.Produced) : (Machine.finish c s).Inv := by
  obtain ⟨hz, hbuf, herr, htbl, hfresh, htx, hctl⟩ := h
  constructor
  · intro q
    by_cases hq : q = .status
    · subst hq; simpa [regMask] using hz .status
    · simpa [hq] using hz q
  · simpa [State.BuffersCanonical] using hbuf
  · simpa [State.ErrProduced, ResultCode.Produced] using hc
  · simpa [State.SessionTable] using htbl
  · intro hn
    rw [hasSession_finish] at hn
    obtain ⟨h1, h2, h3⟩ := hfresh hn
    refine ⟨by simpa using h1, by simpa using h2, fun q hq => ?_⟩
    have hqs : q ≠ .status := fun he => absurd (he ▸ hq) (by decide)
    simpa [hqs] using h3 q hq
  · simpa [State.FrameInTx] using htx
  · simpa [State.ControlSplit] using hctl

/-! ### The invariant under the work of the operations -/

/-- The session INIT makes meets the invariant. -/
theorem State.Inv.createSession {s : State} (h : s.Inv) : (Machine.createSession s).Inv := by
  have hs : (Machine.createSession s).hasSession = true := by simp [State.hasSession, Machine.createSession]
  obtain ⟨hz, ⟨-, -, hbs⟩, herr, -, -, htx, hctl⟩ := h
  constructor
  · intro q
    cases q with
    | status => simpa [Machine.createSession, regMask] using hz .status
    | dest => simpa [Machine.createSession, regMask] using undefinedBits_zeroExtend_byte (loByte (s.reg .addr))
    | seq | acc => simp [Machine.createSession]
    | _ => simpa [Machine.createSession] using hz _
  · exact ⟨by simpa using wf_buildTable _, by simpa using within_buildTable _, by simpa using hbs⟩
  · simpa [State.ErrProduced, Machine.createSession] using herr
  · exact fun _ => ⟨s.reg .poly, createSession_tbl s⟩
  · intro hn; simp [hs] at hn
  · simpa [State.FrameInTx, Machine.createSession] using htx
  · simpa [State.ControlSplit, Machine.createSession] using hctl

theorem State.Inv.advanceSeq {s : State} (h : s.Inv) (hs : s.hasSession = true) : s.advanceSeq.Inv :=
  h.setReg (undefinedBits_zero_of_lt (k := 4) (by simp; omega)) nofun (.inl hs) nofun nofun

@[simp] theorem hasSession_advanceSeq (s : State) : s.advanceSeq.hasSession = s.hasSession := by simp [State.hasSession]

/-- Bytes stored in TX in a session, all inside it, keep the invariant. -/
theorem State.Inv.writeTx {s : State} (h : s.Inv) (hs : s.hasSession = true) {i : Nat} {vs : List Byte} (hi : i + vs.length ≤ 521) :
    (s.setBytes .tx (Memory.writeList (s.bytes .tx) i vs)).Inv := by
  obtain ⟨hwf, hin⟩ := h.buffersCanonical.2.2 .tx
  exact h.setBytes (Memory.wf_writeList _ _ _ hwf) (Memory.within_writeList _ _ _ _ hin hi)
    fun _ => ⟨hs, fun j hj => (Memory.isSome_read?_writeList _ _ _ _).mpr (.inr hj)⟩

theorem length_header (s : State) (ty : AccessType) : (s.commandHeader ty ++ bigEndian (s.checksum (s.commandHeader ty))).length = 8 := rfl

@[simp] theorem hasSession_buildHeader (ty : AccessType) (s : State) : (buildHeader ty s).hasSession = s.hasSession := by
  simp [buildHeader]

theorem State.Inv.buildHeader {s : State} (h : s.Inv) (hs : s.hasSession = true) (ty : AccessType) : (Machine.buildHeader ty s).Inv := by
  have hlen := length_header s ty
  simp only [Machine.buildHeader]
  exact (h.writeTx hs (hlen ▸ by decide)).setWide (by simpa using hs) .hcsum rfl nofun _

/-- The header is in TX once it is built. -/
theorem buildHeader_written (ty : AccessType) (s : State) {i : Nat} (hi : i < 8) :
    (Memory.read? ((buildHeader ty s).bytes .tx) i).isSome = true := by
  simp only [buildHeader, setReg_bytes, bytes_setBytes, if_true]
  exact (Memory.isSome_read?_writeList _ _ _ _).mpr (.inl (by rw [length_header]; omega))

/-- The payload part keeps the invariant once the header is in TX. -/
theorem State.Inv.buildPayload {s : State} (h : s.Inv) (hs : s.hasSession = true)
    (hhdr : ∀ i < 8, (Memory.read? (s.bytes .tx) i).isSome = true) : (Machine.buildPayload s).Inv := by
  have hlen := payloadLen_le s
  have htx := txlen_toNat s
  simp only [Machine.buildPayload]
  split
  · have hp : (s.payload ++ bigEndian (s.checksum s.payload)).length = s.payloadLen + 2 := by simp [bigEndian]
    have hw := h.writeTx hs (i := 8) (vs := s.payload ++ bigEndian (s.checksum s.payload)) (by omega)
    have hpc := hw.setWide (by simpa using hs) .pcsum rfl nofun (s.checksum s.payload)
    refine hpc.setReg (undefinedBits_zero_of_lt (k := 10) (by omega)) nofun (.inl (by simpa using hs)) (fun _ => ?_) nofun
    refine ⟨by omega, fun i hi => ?_⟩
    simp only [setReg_bytes, bytes_setBytes, if_true, Memory.isSome_read?_writeList]
    by_cases h8 : i < 8
    · exact .inr (hhdr i h8)
    · exact .inl (by omega)
  · exact h.setReg rfl nofun (.inl hs) (fun _ => ⟨.inr (.inl rfl), hhdr⟩) nofun

/-- The fields of the response header in the result registers. -/
theorem State.Inv.extractHeader {s : State} (h : s.Inv) (hs : s.hasSession = true) : (Machine.extractHeader s).Inv := by
  have hA := h.setWide hs .rhdrA rfl nofun (joinBytes (s.byteAt .rx 0) (s.byteAt .rx 1))
  have hC := hA.setReg (r := .rhdrC) (undefinedBits_of_fullMask (splitControl Config.ctrlLayout (s.byteAt .rx 2))) nofun
    (.inl (by simpa using hs)) nofun fun _ => by rw [loByte_splitControl]
  have hS := hC.setWide (by simpa using hs) .rhdrS rfl nofun (joinBytes (s.byteAt .rx 3) (s.byteAt .rx 4))
  have hL := hS.setReg (r := .rhdrL) (undefinedBits_zeroExtend_byte (s.byteAt .rx 5)) nofun (.inl (by simpa using hs)) nofun nofun
  have hK := hL.setWide (by simpa using hs) .rhdrK rfl nofun (joinBytes (s.byteAt .rx 6) (s.byteAt .rx 7))
  exact hK.setWide (by simpa using hs) .hcsum rfl nofun (s.checksum s.responseHeader)

/-- An operation whose session check passed does its work inside the invariant. -/
theorem State.Inv.workOf {s : State} (h : s.Inv) {i : Instr} (hs : i = .init ∨ s.hasSession = true) : (Machine.workOf i s).Inv := by
  cases i with
  | init => exact h.createSession
  | crcclr | crcfold b => exact h.setWide (hs.resolve_left nofun) .acc rfl nofun _
  | pchk => exact h.setWide (hs.resolve_left nofun) .pcsum rfl nofun _
  | parse => exact h.extractHeader (hs.resolve_left nofun)
  | build ty =>
    have hses := hs.resolve_left nofun
    have hadv := h.advanceSeq hses
    cases ty with
    | unused => exact hadv
    | read | write | readWrite =>
      exact (hadv.buildHeader (by simpa using hses) _).buildPayload (by simpa using hses) fun i hi => buildHeader_written _ _ hi

/-! ### The invariant under commands, accesses and the reset -/

theorem exec_keeps_inv {i : Instr} {s t : State} (h : s.Inv) (he : exec i s = .next t) : t.Inv := by
  obtain ⟨-, -, rfl⟩ | ⟨hs, rfl⟩ := exec_cases he
  · exact h.finish (by decide)
  · exact (h.workOf hs).finish (codeOf_produced i s)

theorem runCommand_keeps_inv {w : Word} {s t : State} (h : s.Inv) (hw : runCommand w s = .next t) : t.Inv := by
  have hcmd : (s.setReg .cmd w).Inv := h.setReg (undefinedBits_of_fullMask w) nofun (.inr (by decide)) nofun nofun
  cases hd : decode w with
  | illegal r =>
    rw [runCommand_of_illegal hd] at hw
    cases hw
    exact hcmd.finish (by decide)
  | op i => rw [runCommand_of_op hd] at hw; exact exec_keeps_inv hcmd hw

theorem reset_inv : State.reset.Inv := by
  constructor
  · intro r; cases r <;> decide
  · exact ⟨rfl, rfl, fun sp => by cases sp <;> exact ⟨rfl, rfl⟩⟩
  · show errField 0 ∈ _; decide
  · intro h; exact absurd h (by decide)
  · intro _
    exact ⟨rfl, rfl, by decide⟩
  · exact ⟨.inl rfl, fun i hi => absurd hi (Nat.not_lt_zero i)⟩
  · show (0 : Word) = splitControl Config.ctrlLayout (loByte 0); decide

theorem access_keeps_inv {e : HostEvent} {s t : State} (h : s.Inv) (ha : access e s = .next t) : t.Inv := by
  have hreply : ∀ x, (s.setReply x).Inv := fun x => h.of_same (reg_setReply s x) rfl (setReply_bytes s x)
  cases access_effect ha with
  | command hw => exact runCommand_keeps_inv (hreply none) hw
  | @register r v hrw =>
    obtain ⟨hst, hses⟩ := rw_not_session hrw
    exact (hreply none).setReg (undefinedBits_and_mask v _) hst (.inr hses)
      (fun he => absurd (he ▸ hses) (by decide)) (fun he => absurd (he ▸ hses) (by decide))
  | @byte sp i v hw hi =>
    obtain ⟨hwf, hin⟩ := h.buffersCanonical.2.2 sp
    exact (hreply none).setBytes (Memory.wf_write _ _ _ hwf) (Memory.within_write _ _ _ _ hin hi)
      fun he => absurd (he ▸ hw) (by decide)
  | reply => exact hreply _
  | hardReset => exact reset_inv.of_same (fun r => by cases r <;> rfl) rfl fun sp => by cases sp <;> rfl

end Sys2Proof.Machine
end

section
/-! The statements of the state, the step and the reset, settled. -/

namespace Sys2Proof.Machine

open Sys2Proof.Statement

/-- Settles O17: a step is no change or one access, and every access keeps the invariant. -/
theorem stepKeepsInv : Obligations.StepKeepsInv := by
  intro s t h hstep
  obtain ⟨-, rfl⟩ | ⟨e, rest, -, ha⟩ := step_cases hstep
  · exact h
  · exact access_keeps_inv (h.of_same (reg_setPending s rest) rfl (setPending_bytes s rest)) ha

/-- Settles O39, by the kind of the event: a reset, a command, or an access that leaves STATUS alone. -/
theorem statusHoldsTheLastResult : Obligations.StatusHoldsTheLastResult := by
  refine ⟨rfl, fun s t e rest hp hstep => ?_⟩
  rw [step_of_pending hp] at hstep
  by_cases hr : e = .hardReset
  · subst hr
    cases hstep
    exact ⟨fun _ => rfl, fun h => absurd rfl h, nofun, fun _ => BitVec.zero_and⟩
  by_cases hc : ∃ w, e = .regWrite 0 w
  · obtain ⟨w, rfl⟩ := hc
    obtain ⟨c, hcode, hst⟩ := runCommand_status (w := w) hstep
    refine ⟨nofun, fun _ h => absurd rfl (h w), ?_, ?_⟩
    · rintro _ ⟨⟩
      refine ⟨by rw [hst, errField_setErr]; exact hcode, ?_⟩
      by_cases hi : decode w = .op .init <;> simp [State.hasSession, hst, hi]
    · intro hz
      by_cases hi : decode w = .op .init <;> simpa [hst, hi] using hz
  · have hc := not_exists.mp hc
    have hst : t.reg .status = s.reg .status := by simpa using access_status_unchanged hstep hr hc
    exact ⟨fun h => absurd h hr, fun _ _ => hst, fun w h => absurd h (hc w), fun hz => by rwa [hst]⟩

/-- A step with a legal word's CMD write pending is the operation on the state with the word in CMD (spec/10_state.md R13). -/
theorem step_of_pending_command {s : State} {rest : List HostEvent} {w : Word} {i : Instr} (hp : s.pending = .regWrite 0 w :: rest)
    (hd : decode w = .op i) : Machine.step s = exec i ((taken s rest).setReg .cmd w) := by
  rw [step_of_pending hp]
  exact runCommand_of_op hd _

/-- Settles O5: `withFetchWord` is the case of a CMD write put in front of what is pending. -/
theorem stepRunsTheWrittenCommand : Obligations.StepRunsTheWrittenCommand := by
  refine ⟨fun s rest w i => step_of_pending_command, fun s w i hw hd => ?_⟩
  have hp : (s.withFetchWord 16 w).pending = .regWrite 0 (BitVec.ofNat 16 w) :: s.pending := by
    simp [State.withFetchWord, Nat.mod_eq_of_lt hw]
  exact step_of_pending_command hp hd

/-- Settles O14: every buffer of the reset state is empty, so each element reads as its free value. -/
theorem resetValues : Obligations.ResetValues := by
  have hbytes : ∀ sp, State.reset.bytes sp = [] := fun sp => by cases sp <;> rfl
  refine ⟨fun r => by cases r <;> rfl, fun _ => rfl, fun sp i => ?_, fun _ => rfl, fun sp i => ?_⟩
  · rw [hbytes]; rfl
  · rw [State.byteAt, hbytes]; rfl

/-- Settles O16: by the reset values of spec/10_state.md R39, clause by clause. -/
theorem resetMeetsInv : Obligations.ResetMeetsInv := reset_inv

end Sys2Proof.Machine
end

section
/-! SUPPORT. The host port: what each access to a register or an element that exists leaves (spec/20_memory.md R41 to R44). -/

namespace Sys2Proof.Machine

theorem access_regRead {n : Nat} {r : Reg} (hn : regOfNumber n = some r) (s : State) :
    access (.regRead n) s = .next (s.setReply (some (.word (s.reg r &&& regMask r)))) := by
  simp [access, hostRegRead, hn, State.hostReg]

theorem access_regWrite_of_rw {n : Nat} {r : Reg} (hn : regOfNumber n = some r) (ha : regAccess r = .rw) (v : Word) (s : State) :
    access (.regWrite n v) s = .next ((s.setReply none).setReg r (v &&& regMask r)) := by
  have hc : r ≠ .cmd := fun h => by simp [h, regAccess] at ha
  simp [access, hostRegWrite, hn, hc, State.hostSetReg, ha]

theorem access_regWrite_of_ro {n : Nat} {r : Reg} (hn : regOfNumber n = some r) (ha : regAccess r = .ro) (v : Word) (s : State) :
    access (.regWrite n v) s = .next (s.setReply none) := by
  have hc : r ≠ .cmd := fun h => by simp [h, regAccess] at ha
  simp [access, hostRegWrite, hn, hc, State.hostSetReg, ha]

theorem access_regWrite_cmd (v : Word) (s : State) : access (.regWrite 0 v) s = runCommand v (s.setReply none) := rfl

theorem access_tblRead {i : Nat} (hi : i < 256) (s : State) : access (.tblRead i) s = .next (s.setReply (some (.word (s.tblAt i)))) :=
  if_pos hi

theorem access_tblWrite {i : Nat} (hi : i < 256) (v : Word) (s : State) : access (.tblWrite i v) s = .next (s.setReply none) :=
  if_pos hi

theorem access_byteRead {sp : ByteSpace} {i : Nat} (hi : i < sp.size) (s : State) :
    access (.byteRead sp i) s = .next (s.setReply (some (.byte (s.byteAt sp i)))) :=
  if_pos hi

theorem access_byteWrite_of_writable {sp : ByteSpace} {i : Nat} (hi : i < sp.size) (hw : hostWritable sp = true) (v : Byte) (s : State) :
    access (.byteWrite sp i v) s = .next ((s.setReply none).setBytes sp (Memory.write (s.bytes sp) i v)) := by
  simp [access, hostByteWrite, hi, hw]

theorem access_byteWrite_of_readOnly {sp : ByteSpace} {i : Nat} (hi : i < sp.size) (hw : hostWritable sp = false) (v : Byte) (s : State) :
    access (.byteWrite sp i v) s = .next (s.setReply none) := by
  simp [access, hostByteWrite, hi, hw]

/-- What a byte stored in a buffer leaves each element of each buffer at. -/
theorem byteAt_setBytes_write (s : State) (sp sq : ByteSpace) (i j : Nat) (v : Byte) :
    (s.setBytes sp (Memory.write (s.bytes sp) i v)).byteAt sq j = if sq = sp ∧ j = i then v else s.byteAt sq j := by
  by_cases hq : sq = sp
  · subst hq
    by_cases hj : j = i <;> simp [Memory.read?_write, hj, State.byteAt]
  · simp [hq]

/-! ### Accesses to what does not exist (spec/20_memory.md R45) -/

theorem access_register_refused {n : Nat} (h : 20 ≤ n) (s : State) :
    access (.regRead n) s = .refused (.noSuchRegister n) ∧ ∀ v, access (.regWrite n v) s = .refused (.noSuchRegister n) := by
  simp [access, hostRegRead, hostRegWrite, regOfNumber_of_ge h]

theorem access_tbl_refused {i : Nat} (h : 256 ≤ i) (s : State) :
    access (.tblRead i) s = .refused (.noSuchEntry i) ∧ ∀ v, access (.tblWrite i v) s = .refused (.noSuchEntry i) :=
  ⟨if_neg (Nat.not_lt.mpr h), fun _ => if_neg (Nat.not_lt.mpr h)⟩

theorem access_byte_refused {sp : ByteSpace} {i : Nat} (h : sp.size ≤ i) (s : State) :
    access (.byteRead sp i) s = .refused (.noSuchByte sp i) ∧ ∀ v, access (.byteWrite sp i v) s = .refused (.noSuchByte sp i) :=
  ⟨if_neg (Nat.not_lt.mpr h), fun _ => if_neg (Nat.not_lt.mpr h)⟩

end Sys2Proof.Machine
end

section
/-! The statements of the host port, settled, with the tables they write out tied to the model's register file. -/

namespace Sys2Proof.Machine

open Sys2Proof.Statement

/-! ### The register tables of the statements -/

theorem registerTable_getElem? {n : Nat} {r : Reg} {bits : Word} (h : registerTable[n]? = some (r, bits)) :
    regOfNumber n = some r ∧ regMask r = bits := by
  have hall : ∀ x ∈ registerTable.zipIdx, regOfNumber x.2 = some x.1.1 ∧ regMask x.1.1 = x.1.2 := by decide
  exact hall ((r, bits), n) (List.mem_zipIdx_iff_getElem?.mpr h)

theorem mem_rwRegisters {n : Nat} {r : Reg} {bits : Word} (h : (n, r, bits) ∈ rwRegisters) :
    regOfNumber n = some r ∧ regAccess r = .rw ∧ regMask r = bits := by
  have hall : ∀ x ∈ rwRegisters, regOfNumber x.1 = some x.2.1 ∧ regAccess x.2.1 = .rw ∧ regMask x.2.1 = x.2.2 := by decide
  exact hall _ h

theorem mem_roNumbers {n : Nat} (h : n ∈ roNumbers) : ∃ r, regOfNumber n = some r ∧ regAccess r = .ro := by
  have hall : ∀ k ∈ roNumbers, (regOfNumber k).map regAccess = some .ro := by decide
  exact Option.map_eq_some_iff.mp (hall n h)

/-! ### Frames -/

theorem blockOnly_refl (rs : List Reg) (s : State) : BlockOnly rs s s := ⟨fun _ _ => rfl, rfl, fun _ => rfl, rfl⟩

theorem blockOnly_setReply (rs : List Reg) (s : State) (x : Option Reply) : BlockOnly rs s (s.setReply x) := by
  simp [BlockOnly]

/-- One more register written is one more register in the frame. -/
theorem blockOnly_setReg {rs : List Reg} {s t : State} (h : BlockOnly rs s t) {r : Reg} (hr : r ∈ rs) (v : Word) :
    BlockOnly rs s (t.setReg r v) := by
  obtain ⟨hreg, htbl, hbytes, hresets⟩ := h
  refine ⟨fun q hq => ?_, by simpa using htbl, by simpa using hbytes, by simpa using hresets⟩
  have hqr : q ≠ r := fun he => hq (he ▸ hr)
  simpa [hqr] using hreg q hq

theorem illegalWord_iff {w : Word} : illegalWord w = true ↔ ∃ r, decode w = .illegal r := by
  unfold illegalWord
  split <;> simp [*]

/-- What an Illegal word's command leaves (spec/60_exceptions.md R172). -/
theorem runCommand_illegal_frame {v : Word} (h : illegalWord v = true) (s : State) :
    ∃ t, runCommand v s = .next t ∧ t.reg .cmd = v ∧ t.reg .status = statusWith s 12 ∧ BlockOnly [.cmd, .status] s t := by
  obtain ⟨r, hd⟩ := illegalWord_iff.mp h
  refine ⟨_, runCommand_of_illegal hd s, by simp, by simp [statusWith, setErr, ResultCode.code], ?_⟩
  exact blockOnly_setReg (blockOnly_setReg (blockOnly_refl _ s) (by decide) v) (by decide) _

/-! ### The obligations -/

/-- Settles O8: the table's row of a number is the model's register with its mask. -/
theorem regReadReturnsTheRegister : Obligations.RegReadReturnsTheRegister := by
  intro n r bits h s
  obtain ⟨hn, rfl⟩ := registerTable_getElem? h
  exact access_regRead hn s

/-- Settles O9: by the access right of the register, and for CMD by what the word decodes to. -/
theorem regWriteObeysAccessRights : Obligations.RegWriteObeysAccessRights := by
  refine ⟨fun n r bits h s v => ?_, fun n h s v => ?_, fun s v i hd => ?_, fun s v h => ?_⟩
  · obtain ⟨hn, ha, rfl⟩ := mem_rwRegisters h
    exact ⟨_, access_regWrite_of_rw hn ha v s, by simp, blockOnly_setReg (blockOnly_setReply _ s none) (List.mem_singleton_self r) _⟩
  · obtain ⟨r, hn, ha⟩ := mem_roNumbers h
    exact ⟨_, access_regWrite_of_ro hn ha v s, blockOnly_setReply _ s none⟩
  · rw [access_regWrite_cmd, runCommand_of_op hd]
  · obtain ⟨t, ht, hcmd, hst, hframe⟩ := runCommand_illegal_frame h (s.setReply none)
    rw [access_regWrite_cmd]
    exact ⟨t, ht, hcmd, by simpa [statusWith] using hst, by simpa [BlockOnly] using hframe⟩

/-- Settles O10: the access replies with the element, which is the written value or else the free one. -/
theorem bufReadReturnsTheElement : Obligations.BufReadReturnsTheElement := by
  intro s
  refine ⟨fun i hi => access_tblRead hi s, fun i hi => access_byteRead hi s, fun i hi => access_byteRead hi s,
    fun i hi => access_byteRead hi s, fun i v h => ?_, fun i h => ?_, fun sp i v h => ?_, fun sp i h => ?_⟩
  · simp [State.tblAt, h]
  · simp [State.tblAt, h]
  · simp [State.byteAt, h]
  · simp [State.byteAt, h]

/-- Settles O11: PAY and RX take the one write, TBL and TX only lose the reply. -/
theorem bufWriteStoresOneByte : Obligations.BufWriteStoresOneByte := by
  refine ⟨fun sp i v s h => ?_, fun i hi v s => ⟨_, access_tblWrite hi v s, blockOnly_setReply _ s none⟩,
    fun i hi v s => ⟨_, access_byteWrite_of_readOnly hi rfl v s, blockOnly_setReply _ s none⟩⟩
  obtain ⟨hi, hw⟩ : i < sp.size ∧ hostWritable sp = true := by
    rcases h with ⟨rfl, hi⟩ | ⟨rfl, hi⟩ <;> exact ⟨hi, rfl⟩
  have hbyte := byteAt_setBytes_write (s.setReply none) sp sp i
  rw [setReply_bytes] at hbyte
  refine ⟨_, access_byteWrite_of_writable hi hw v s, by simp [hbyte], fun j hj => by simp [hbyte, hj],
    fun sq hq => by simp [hq], by simp, by simp, by simp, by simp⟩

/-- Settles O12: every access looks its register or element up before it does anything. -/
theorem nonexistentElementsAreRefused : Obligations.NonexistentElementsAreRefused := by
  intro s
  refine ⟨fun n h => access_register_refused h s, fun i h => access_tbl_refused h s, fun sp i h => access_byte_refused ?_ s⟩
  rcases h with ⟨rfl, hi⟩ | ⟨rfl, hi⟩ | ⟨rfl, hi⟩ <;> exact hi

end Sys2Proof.Machine
end

section
/-! SUPPORT. The write footprint (spec/20_memory.md R59): what the work of an operation leaves alone, and so what the operation does. -/

namespace Sys2Proof.Machine

open Sys2Proof.Statement

theorem status_mem_regsWritten (i : Instr) : Reg.status ∈ regsWritten i := by cases i <;> simp [regsWritten]

/-- With a legal access type the work of BUILD and its `finish` end in `builtState`. -/
theorem finish_workOf_build {ty : AccessType} (h : ty ≠ .unused) (s : State) : finish .ok (workOf (.build ty) s) = builtState ty s := by
  cases ty with
  | unused => exact absurd rfl h
  | read | write | readWrite => rfl

/-- A register but STATUS after the work of a legal BUILD. -/
theorem workOf_build_reg {ty : AccessType} (h : ty ≠ .unused) (s : State) {r : Reg} (hr : r ≠ .status) :
    (workOf (.build ty) s).reg r = (builtState ty s).reg r := by
  simp [← finish_workOf_build h, hr]

theorem workOf_reg_of_not_written {i : Instr} {r : Reg} (h : r ∉ regsWritten i) (s : State) : (workOf i s).reg r = s.reg r := by
  cases i with
  | init | crcclr | crcfold b | pchk => simp_all [regsWritten, workOf, createSession]
  | parse =>
    simp only [workOf, extractHeader_reg]
    cases r <;> simp_all [regsWritten]
  | build ty =>
    by_cases hty : ty = .unused
    · subst hty; simp_all [regsWritten, workOf]
    · have hst : r ≠ .status := fun he => h (he ▸ status_mem_regsWritten _)
      rw [workOf_build_reg hty s hst, built_reg]
      cases r <;> simp_all [regsWritten]

/-- Of the byte buffers only TX is written, and that by a BUILD with a legal access type. -/
theorem workOf_bytes {i : Instr} {sp : ByteSpace} (h : sp = .tx → ∀ ty, i = .build ty → ty = .unused) (s : State) :
    (workOf i s).bytes sp = s.bytes sp := by
  cases i with
  | init | crcclr | crcfold b | parse | pchk => simp [workOf]
  | build ty =>
    by_cases hty : ty = .unused
    · subst hty; simp [workOf]
    · have hsp : sp ≠ .tx := fun he => hty (h he ty rfl)
      rw [← finish_bytes .ok, finish_workOf_build hty]
      obtain ⟨-, hpay, hrx, -⟩ := built_rest s ty
      cases sp with
      | pay => exact hpay
      | rx => exact hrx
      | tx => exact absurd rfl hsp

theorem workOf_build_rest (ty : AccessType) (s : State) :
    (workOf (.build ty) s).tbl = s.tbl ∧ (workOf (.build ty) s).pending = s.pending ∧ (workOf (.build ty) s).reply = s.reply
      ∧ (workOf (.build ty) s).resets = s.resets := by
  by_cases hty : ty = .unused
  · subst hty; simp [workOf]
  · have h := built_rest s ty
    simp only [← finish_workOf_build hty, finish_tbl, finish_pending, finish_reply, finish_resets] at h
    obtain ⟨htbl, -, -, hmodel⟩ := h
    exact ⟨htbl, hmodel⟩

theorem workOf_tbl {i : Instr} (h : i ≠ .init) (s : State) : (workOf i s).tbl = s.tbl := by
  cases i with
  | init => exact absurd rfl h
  | crcclr | crcfold b | parse | pchk => simp [workOf]
  | build ty => exact (workOf_build_rest ty s).1

/-- The model's own fields are not an operation's to write. -/
theorem workOf_model (i : Instr) (s : State) :
    (workOf i s).pending = s.pending ∧ (workOf i s).reply = s.reply ∧ (workOf i s).resets = s.resets := by
  cases i with
  | init | crcclr | crcfold b | parse | pchk => simp [workOf]
  | build ty => exact (workOf_build_rest ty s).2

/-- The work of an operation keeps the session, INIT's makes one. -/
theorem hasSession_workOf (i : Instr) (s : State) : (workOf i s).hasSession = (s.hasSession || decide (i = .init)) := by
  by_cases hi : i = .init <;> simp [State.hasSession, workOf_status, hi]

/-- BUILD stores nothing in TX from 10 + PLEN on. -/
theorem read?_built_tx_beyond {s : State} {k : Nat} (ty : AccessType) (h : 10 + s.payloadLen ≤ k) :
    Memory.read? ((builtState ty s).bytes .tx) k = Memory.read? (s.bytes .tx) k := by
  have hhdr : (newHeader s ty ++ bigEndian (s.checksum (newHeader s ty))).length = 8 := rfl
  have hpay : (s.payload ++ bigEndian (s.checksum s.payload)).length = s.payloadLen + 2 := by simp [bigEndian]
  rw [built_txData]
  split
  · rw [Memory.read?_writeList, if_neg (by omega)]
  · rw [Memory.read?_writeList, if_neg (by omega), Memory.read?_writeList, if_neg (by omega)]

theorem read?_workOf_tx_beyond {s : State} {k : Nat} (i : Instr) (h : 10 + s.payloadLen ≤ k) :
    Memory.read? ((workOf i s).bytes .tx) k = Memory.read? (s.bytes .tx) k := by
  by_cases hno : ∀ ty, i = .build ty → ty = .unused
  · rw [workOf_bytes fun _ => hno]
  · obtain ⟨ty, rfl, hty⟩ : ∃ ty, i = .build ty ∧ ty ≠ .unused := by simpa using hno
    rw [← finish_bytes .ok, finish_workOf_build hty, read?_built_tx_beyond ty h]

/-- A built table lists no element from 256 on. -/
theorem read?_buildTable_of_ge (p : Word) {k : Nat} (h : 256 ≤ k) : Memory.read? (buildTable p) k = none := by
  have hmap : ∀ l : List Nat, k ∉ l → ∀ f : Nat → Word, Memory.read? (l.map fun i => (i, f i)) k = none := by
    intro l hk f
    induction l with
    | nil => rfl
    | cons j l ih => simp_all [Memory.read?, eq_comm]
  exact hmap _ (by simpa [Config.tblSize] using h) _

/-- What neither `finish` nor an operation's work touches, the operation leaves as it was, session or not. -/
theorem exec_keeps {α : Sort _} (f : State → α) {i : Instr} {s t : State} (h : exec i s = .next t)
    (hfinish : ∀ c u, f (finish c u) = f u) (hwork : f (workOf i s) = f s) : f t = f s := by
  obtain ⟨-, -, rfl⟩ | ⟨-, rfl⟩ := exec_cases h
  · exact hfinish _ _
  · exact (hfinish _ _).trans hwork

theorem exec_reg_of_not_written {i : Instr} {s t : State} (h : exec i s = .next t) {r : Reg} (hr : r ∉ regsWritten i) :
    t.reg r = s.reg r := by
  have hst : r ≠ .status := fun he => hr (he ▸ status_mem_regsWritten i)
  exact exec_keeps (·.reg r) h (fun c u => by simp [hst]) (workOf_reg_of_not_written hr s)

theorem exec_bytes {i : Instr} {s t : State} (h : exec i s = .next t) {sp : ByteSpace}
    (hsp : sp = .tx → ∀ ty, i = .build ty → ty = .unused) :
    t.bytes sp = s.bytes sp :=
  exec_keeps (·.bytes sp) h (fun c u => finish_bytes c u sp) (workOf_bytes hsp s)

theorem exec_tbl {i : Instr} {s t : State} (h : exec i s = .next t) (hi : i ≠ .init) : t.tbl = s.tbl :=
  exec_keeps State.tbl h finish_tbl (workOf_tbl hi s)

theorem exec_resets {i : Instr} {s t : State} (h : exec i s = .next t) : t.resets = s.resets :=
  exec_keeps State.resets h finish_resets (workOf_model i s).2.2

end Sys2Proof.Machine
end

section
/-! SUPPORT. The read footprint (spec/20_memory.md R59): two states that agree on what an operation reads, and what its work and its code then agree on. -/

namespace Sys2Proof.Machine

open Sys2Proof.Statement

/-- The states agree on SESSION and on all that operation `i` reads. -/
structure ReadsAgree (i : Instr) (s s' : State) : Prop where
  session : s'.hasSession = s.hasSession
  regs : ∀ r ∈ regsRead i, s'.reg r = s.reg r
  tbl : ∀ k, tableIndexRead i s k → s'.tblAt k = s.tblAt k
  pay : readsPayload i = true → ∀ k < len9 (s.reg .plen), s'.byteAt .pay k = s.byteAt .pay k
  rx : readsRx i = true → ∀ k < 8, s'.byteAt .rx k = s.byteAt .rx k

namespace ReadsAgree

/-- A register the operation does not read may differ. -/
theorem of_setReg {i : Instr} {r : Reg} (hr : r ∉ regsRead i) (hst : r ≠ .status) (s : State) (v : Word) :
    ReadsAgree i s (s.setReg r v) where
  session := hasSession_setReg hst v
  regs q hq := by
    have hqr : q ≠ r := fun he => hr (he ▸ hq)
    simp [hqr]
  tbl k _ := tblAt_setReg s r v k
  pay _ k _ := byteAt_setReg s r v .pay k
  rx _ k _ := byteAt_setReg s r v .rx k

variable {i : Instr} {s s' : State} (h : ReadsAgree i s s')
include h

theorem payloadLen (hplen : Reg.plen ∈ regsRead i) : s'.payloadLen = s.payloadLen := by
  simp [State.payloadLen, h.regs _ hplen]

theorem payload (hplen : Reg.plen ∈ regsRead i) (hpay : readsPayload i = true) : s'.payload = s.payload := by
  rw [payload_eq, payload_eq, h.payloadLen hplen]
  refine List.map_congr_left fun k hk => h.pay hpay k ?_
  simpa [payloadLen_eq, len9] using hk

theorem checksum (htbl : ∀ k < 256, tableIndexRead i s k) : s'.checksum = s.checksum := by
  have htable : s'.table = s.table := funext fun b => h.tbl _ (htbl _ b.isLt)
  funext l
  simp [State.checksum, htable]

theorem responseHeader (hrx : readsRx i = true) : s'.responseHeader = s.responseHeader := by
  rw [responseHeader_eq, responseHeader_eq]
  refine List.map_congr_left fun k hk => h.rx hrx k ?_
  have := List.mem_range.mp hk
  omega

/-- The code an operation finishes with depends only on what it reads. -/
theorem codeOf : codeOf i s' = codeOf i s := by
  cases i with
  | init | crcclr | crcfold b => rfl
  | build ty => cases ty <;> rfl
  | parse =>
    simp only [Machine.codeOf, h.checksum fun _ hk => hk, h.responseHeader rfl, h.rx rfl 6 (by omega), h.rx rfl 7 (by omega)]
  | pchk =>
    simp only [Machine.codeOf, h.checksum fun _ hk => hk, h.payload (by decide) rfl, h.regs .trailer (by decide)]

end ReadsAgree

/-- BUILD frames the same header. -/
theorem ReadsAgree.newHeader {ty : AccessType} {s s' : State} (h : ReadsAgree (.build ty) s s') :
    Machine.newHeader s' ty = Machine.newHeader s ty := by
  have hreg : ∀ r ∈ regsRead (.build ty), s'.reg r = s.reg r := h.regs
  simp only [regsRead, List.forall_mem_cons] at hreg
  obtain ⟨hseq, hdest, hindex, hoffset, hrlen, hplen, -⟩ := hreg
  simp only [Machine.newHeader, State.seqField, State.wordCount, hseq, hdest, hindex, hoffset, hrlen, hplen]

/-- CRCFOLD #b looks up the same table element. -/
theorem ReadsAgree.fold {b : Byte} {s s' : State} (h : ReadsAgree (.crcfold b) s s') :
    foldByte s'.table (s'.reg .acc) b = foldByte s.table (s.reg .acc) b := by
  have hidx : (hiByte (s.reg .acc) ^^^ b).toNat = (s.reg .acc).toNat / 256 ^^^ b.toNat := by
    rw [BitVec.toNat_xor, hiByte_toNat]
  simp only [foldByte, State.table, h.regs .acc (List.mem_singleton_self _)]
  rw [h.tbl _ hidx]

/-- In each of the two states: the same value, or the value the state had. -/
def SameOrKept {α : Type} (f : State → α) (s s' t t' : State) : Prop := f t' = f t ∨ (f t = f s ∧ f t' = f s')

/-- Each register but STATUS after the work of BUILD: PCSUM is kept when there is no payload. -/
theorem ReadsAgree.workOf_build_reg {ty : AccessType} {s s' : State} (h : ReadsAgree (.build ty) s s') {r : Reg}
    (hr : r ∈ regsWritten (.build ty)) (hst : r ≠ .status) :
    SameOrKept (·.reg r) s s' (workOf (.build ty) s) (workOf (.build ty) s') := by
  have hseq : s'.seqField = s.seqField := by simp [State.seqField, h.regs .seq (by simp [regsRead])]
  have hlen := h.payloadLen (by simp [regsRead])
  have hpay := h.payload (by simp [regsRead]) rfl
  have hsum := h.checksum fun _ hk => hk
  simp only [regsWritten, List.mem_cons, List.not_mem_nil, or_false, hst] at hr
  by_cases hty : ty = .unused
  · subst hty
    rcases hr with rfl | rfl | rfl | rfl <;> simp [SameOrKept, workOf, hseq]
  · simp only [SameOrKept, Machine.workOf_build_reg hty _ hst, built_reg]
    rcases hr with rfl | rfl | rfl | rfl
    · exact .inl (by rw [hseq])
    · exact .inl (by rw [hlen])
    · exact .inl (by rw [hsum, h.newHeader])
    · by_cases hn : s.payloadLen = 0 <;> simp [hlen, hn, hsum, hpay]

/-- Each register but STATUS after the work of an operation. -/
theorem ReadsAgree.workOf_reg {i : Instr} {s s' : State} (h : ReadsAgree i s s') {r : Reg} (hst : r ≠ .status) :
    SameOrKept (·.reg r) s s' (workOf i s) (workOf i s') := by
  by_cases hr : r ∈ regsWritten i
  swap
  · exact .inr ⟨workOf_reg_of_not_written hr s, workOf_reg_of_not_written hr s'⟩
  cases i with
  | build ty => exact h.workOf_build_reg hr hst
  | init =>
    have haddr := h.regs .addr (by decide)
    left
    simp only [regsWritten, List.mem_cons, List.not_mem_nil, or_false, hst] at hr
    rcases hr with rfl | rfl | rfl <;> simp [workOf, createSession, haddr]
  | crcclr =>
    left
    simp only [regsWritten, List.mem_cons, List.not_mem_nil, or_false, hst] at hr
    subst hr; simp [workOf]
  | crcfold b =>
    left
    simp only [regsWritten, List.mem_cons, List.not_mem_nil, or_false, hst] at hr
    subst hr; simp [workOf, h.fold]
  | parse =>
    have hrx := h.rx rfl
    left
    simp only [regsWritten, List.mem_cons, List.not_mem_nil, or_false, hst] at hr
    rcases hr with rfl | rfl | rfl | rfl | rfl | rfl <;>
      simp [workOf, extractHeader_reg, hrx, h.checksum fun _ hk => hk, h.responseHeader rfl]
  | pchk =>
    left
    simp only [regsWritten, List.mem_cons, List.not_mem_nil, or_false, hst] at hr
    subst hr; simp [workOf, h.checksum fun _ hk => hk, h.payload (by decide) rfl]

/-- Each element of TBL after the work of an operation: INIT rebuilds all 256, no other writes one. -/
theorem ReadsAgree.workOf_tblAt {i : Instr} {s s' : State} (h : ReadsAgree i s s') {k : Nat} (hk : k < 256) :
    SameOrKept (·.tblAt k) s s' (workOf i s) (workOf i s') := by
  by_cases hi : i = .init
  · subst hi
    left
    simp only [workOf, State.tblAt, createSession_tbl, h.regs .poly (by decide), read?_buildTable _ k hk, Option.getD_some]
  · right
    simp [State.tblAt, workOf_tbl hi, workOf_model]

/-- Each byte of TX after the work of an operation: a frame is the same in both, and the rest of TX is kept. -/
theorem ReadsAgree.workOf_tx {i : Instr} {s s' : State} (h : ReadsAgree i s s') (k : Nat) :
    SameOrKept (·.byteAt .tx k) s s' (workOf i s) (workOf i s') := by
  by_cases hno : ∀ ty, i = .build ty → ty = .unused
  · right
    simp [State.byteAt, workOf_bytes fun _ => hno, workOf_model]
  · obtain ⟨ty, rfl, hty⟩ : ∃ ty, i = .build ty ∧ ty ≠ .unused := by simpa using hno
    have htx : ∀ u, (workOf (.build ty) u).byteAt .tx k = (builtState ty u).byteAt .tx k := fun u => by
      rw [← finish_workOf_build hty, finish_byteAt]
    simp only [SameOrKept, htx, built_tx, h.payloadLen (by simp [regsRead]), h.payload (by simp [regsRead]) rfl,
      h.checksum fun _ hk => hk, h.newHeader]
    split
    · exact .inl rfl
    · split
      · exact .inl rfl
      · exact .inr ⟨rfl, rfl⟩

end Sys2Proof.Machine
end

section
/-! SUPPORT. A register an operation neither reads nor writes: writing it before or after the operation is the same. -/

namespace Sys2Proof.Machine

open Sys2Proof.Statement

/-- Writes of two registers commute. -/
theorem setReg_comm {r q : Reg} (h : r ≠ q) (s : State) (v w : Word) :
    (s.setReg r v).setReg q w = (s.setReg q w).setReg r v := by
  refine State.ext_regs (fun p => ?_) (by simp) (fun sp => by simp) (by simp) (by simp) (by simp)
  by_cases hp : p = q
  · simp [hp, h.symm]
  · simp [hp]

theorem setBytes_setReg (s : State) (r : Reg) (v : Word) (sp : ByteSpace) (m : Memory 8) :
    (s.setReg r v).setBytes sp m = (s.setBytes sp m).setReg r v := by
  cases sp <;> cases r <;> rfl

theorem setTbl_setReg (s : State) (r : Reg) (v : Word) (m : Memory 16) : (s.setReg r v).setTbl m = (s.setTbl m).setReg r v := by
  cases r <;> rfl

theorem finish_setReg {r : Reg} (h : r ≠ .status) (c : ResultCode) (s : State) (v : Word) :
    finish c (s.setReg r v) = (finish c s).setReg r v := by
  simp only [finish, setReg_comm h, reg_setReg, if_neg h.symm]

theorem advanceSeq_setReg {r : Reg} (h : r ≠ .seq) (s : State) (v : Word) : (s.setReg r v).advanceSeq = s.advanceSeq.setReg r v := by
  simp only [State.advanceSeq, State.seqField, setReg_comm h, reg_setReg, if_neg h.symm]

theorem createSession_setReg {r : Reg} (hread : r ∉ regsRead .init) (hwritten : r ∉ regsWritten .init) (s : State) (v : Word) :
    createSession (s.setReg r v) = (createSession s).setReg r v := by
  simp only [regsRead, regsWritten, List.mem_cons, List.not_mem_nil, or_false, not_or] at hread hwritten
  obtain ⟨hpoly, haddr⟩ := hread
  obtain ⟨hdest, hseq, hacc, hstatus⟩ := hwritten
  simp [createSession, setTbl_setReg, setReg_comm hdest, setReg_comm hseq, setReg_comm hacc, setReg_comm hstatus,
    Ne.symm hpoly, Ne.symm haddr, Ne.symm hstatus]

theorem buildHeader_setReg {r : Reg} {ty : AccessType} (hread : r ∉ regsRead (.build ty)) (hwritten : r ∉ regsWritten (.build ty))
    (s : State) (v : Word) : buildHeader ty (s.setReg r v) = (buildHeader ty s).setReg r v := by
  simp only [regsRead, regsWritten, List.mem_cons, List.not_mem_nil, or_false, not_or] at hread hwritten
  obtain ⟨hseq, hdest, hindex, hoffset, hrlen, hplen⟩ := hread
  obtain ⟨-, -, hhcsum, -, -⟩ := hwritten
  have hhdr : (s.setReg r v).commandHeader ty = s.commandHeader ty := by
    cases ty <;> simp [State.commandHeader, State.seqField, State.wordCount, Ne.symm hseq, Ne.symm hdest, Ne.symm hindex,
      Ne.symm hoffset, Ne.symm hrlen, Ne.symm hplen]
  simp only [buildHeader, hhdr, checksum_setReg, setReg_bytes, setBytes_setReg, setReg_comm hhcsum]

theorem buildPayload_setReg {r : Reg} {ty : AccessType} (hread : r ∉ regsRead (.build ty)) (hwritten : r ∉ regsWritten (.build ty))
    (s : State) (v : Word) : buildPayload (s.setReg r v) = (buildPayload s).setReg r v := by
  simp only [regsRead, regsWritten, List.mem_cons, List.not_mem_nil, or_false, not_or] at hread hwritten
  obtain ⟨-, -, -, -, -, hplen⟩ := hread
  obtain ⟨-, htxlen, -, hpcsum, -⟩ := hwritten
  have hlen : (s.setReg r v).payloadLen = s.payloadLen := by simp [hplen]
  have hpay : (s.setReg r v).payload = s.payload := by simp [payload_eq, hlen]
  simp only [buildPayload, hlen, hpay, checksum_setReg, setReg_bytes, setBytes_setReg, setReg_comm htxlen, setReg_comm hpcsum]
  split <;> rfl

theorem extractHeader_setReg {r : Reg} (hwritten : r ∉ regsWritten .parse) (s : State) (v : Word) :
    extractHeader (s.setReg r v) = (extractHeader s).setReg r v := by
  simp only [regsWritten, List.mem_cons, List.not_mem_nil, or_false, not_or] at hwritten
  obtain ⟨hA, hC, hS, hL, hK, hhcsum, -⟩ := hwritten
  have hhdr : (s.setReg r v).responseHeader = s.responseHeader := by simp [responseHeader_eq]
  simp only [extractHeader, hhdr, byteAt_setReg, checksum_setReg, setReg_comm hA, setReg_comm hC, setReg_comm hS, setReg_comm hL,
    setReg_comm hK, setReg_comm hhcsum]

theorem workOf_setReg {i : Instr} {r : Reg} (hread : r ∉ regsRead i) (hwritten : r ∉ regsWritten i) (s : State) (v : Word) :
    workOf i (s.setReg r v) = (workOf i s).setReg r v := by
  have hst : r ≠ .status := fun he => hwritten (he ▸ status_mem_regsWritten i)
  have hagree := ReadsAgree.of_setReg hread hst s v
  have hne : ∀ q ∈ regsWritten i, r ≠ q := fun q hq he => hwritten (he ▸ hq)
  cases i with
  | init => exact createSession_setReg hread hwritten s v
  | crcclr => exact setReg_comm (hne .acc (by simp [regsWritten])) s v _
  | crcfold b =>
    simp only [workOf, hagree.fold]
    exact setReg_comm (hne .acc (by simp [regsWritten])) s v _
  | parse => exact extractHeader_setReg hwritten s v
  | pchk =>
    simp only [workOf, hagree.payload (by decide) rfl, checksum_setReg]
    exact setReg_comm (hne .pcsum (by simp [regsWritten])) s v _
  | build ty =>
    have hadv := advanceSeq_setReg (hne .seq (by simp [regsWritten])) s v
    cases ty with
    | unused => exact hadv
    | read | write | readWrite => simp only [workOf, hadv, buildHeader_setReg hread hwritten, buildPayload_setReg hread hwritten]

/-- An operation commutes with a write of a register it neither reads nor writes. -/
theorem exec_setReg {i : Instr} {r : Reg} (hread : r ∉ regsRead i) (hwritten : r ∉ regsWritten i) {s t : State}
    (h : exec i s = .next t) (v : Word) : exec i (s.setReg r v) = .next (t.setReg r v) := by
  have hst : r ≠ .status := fun he => hwritten (he ▸ status_mem_regsWritten i)
  have hses := hasSession_setReg (s := s) hst v
  obtain ⟨hi, hs, rfl⟩ | ⟨hs, rfl⟩ := exec_cases h
  · rw [exec_of_noSession hi (hses.trans hs), finish_setReg hst]
  · rw [exec_eq_finish_workOf (by rwa [hses]), (ReadsAgree.of_setReg hread hst s v).codeOf, workOf_setReg hread hwritten,
      finish_setReg hst]

end Sys2Proof.Machine
end

section
/-! SUPPORT. The table INIT builds, entry by entry, is the shift register of spec/40_checksum.md R90. -/

namespace Sys2Proof.Machine

open Sys2Proof.Statement

theorem shiftRounds_eq_iterate (p : Word) (n : Nat) : ∀ x, shiftRounds p n x = (shiftRound p)^[n] x := by
  induction n with
  | zero => intro x; rfl
  | succ n ih => intro x; exact ih _

theorem shiftRound_eq_msb (p : Word) (x : Word × Word) :
    shiftRound p x = (if (x.2 ^^^ x.1).msb then (x.1 <<< 1) ^^^ p else x.1 <<< 1, x.2 <<< 1) := by
  simp only [shiftRound, topBit_test, BitVec.msb_eq_getLsbD_last]

/-- The model's run of the shift register for one byte is the statements' (spec/40_checksum.md R90). -/
theorem serialFold_eq_shiftRegister (p acc : Word) (b : Byte) : serialFold p acc b = shiftRegister p acc b := by
  have hdata : b.zeroExtend 16 <<< 8 = BitVec.ofNat 16 (256 * b.toNat) := by
    apply BitVec.eq_of_toNat_eq
    simp [Nat.shiftLeft_eq, mul_comm]
  simp only [serialFold, shiftRegister, shiftRounds_eq_iterate, hdata, funext (shiftRound_eq_msb p)]

/-- INIT leaves R90's table for POLY. -/
theorem tblAt_init (s : State) (b : Byte) :
    (finish .ok (createSession s)).tblAt b.toNat = shiftRegister (s.reg .poly) 0 b := by
  have htbl : (finish .ok (createSession s)).tbl = buildTable (s.reg .poly) := by simp
  exact (table_of_built htbl b).trans (serialFold_eq_shiftRegister _ _ _)

/-- INIT copies ADDR[7:0] to DEST. -/
theorem init_dest_toNat (s : State) : ((finish .ok (createSession s)).reg .dest).toNat = (s.reg .addr).toNat % 256 := by
  have := loByte_toNat (s.reg .addr)
  simp only [init_reg, BitVec.truncate_eq_setWidth, BitVec.toNat_setWidth]
  omega

end Sys2Proof.Machine
end

section
/-! The statements of coherence and of the footprints, settled. -/

namespace Sys2Proof.Machine

open Sys2Proof.Statement

/-- Settles O41: what neither `finish` nor the work of an operation writes, the operation keeps. -/
theorem operationsWriteOnlyTheirFootprint : Obligations.OperationsWriteOnlyTheirFootprint := by
  intro i s
  obtain ⟨t, ht⟩ := exec_answers i s
  obtain ⟨hpending, hreply, hresets⟩ := workOf_model i s
  refine ⟨t, ht, fun r hr => exec_reg_of_not_written ht hr, exec_bytes ht nofun, exec_bytes ht nofun, exec_tbl ht, ?_,
    fun hb => exec_bytes ht fun _ ty hi => absurd hi (hb ty), fun k hk => ?_, exec_keeps State.pending ht finish_pending hpending,
    exec_keeps State.reply ht finish_reply hreply, exec_resets ht⟩
  · rintro k hk rfl
    cases ht
    simpa using read?_buildTable_of_ge (s.reg .poly) hk
  · have hk : 10 + s.payloadLen ≤ k := by simpa [payloadLen_eq, len9] using hk
    exact exec_keeps (fun u => Memory.read? (u.bytes .tx) k) ht (fun c u => by simp) (read?_workOf_tx_beyond i hk)

/-- Settles O42: without a session both states only report it; else the works agree element by element and the codes are equal. -/
theorem operationsReadOnlyTheirFootprint : Obligations.OperationsReadOnlyTheirFootprint := by
  intro i s s' hses hregs htbl hpay hrx
  have h : ReadsAgree i s s' := ⟨hses, hregs, htbl, hpay, hrx⟩
  by_cases hs : i = .init ∨ s.hasSession = true
  · refine ⟨_, _, exec_eq_finish_workOf hs, exec_eq_finish_workOf (hses ▸ hs), fun r hr => ?_, fun k hk => ?_, fun k => ?_, ?_, ?_⟩
    · simpa [SameOrKept, hr] using h.workOf_reg hr
    · simpa [SameOrKept] using h.workOf_tblAt hk
    · simpa [SameOrKept] using h.workOf_tx k
    · simp [h.codeOf]
    · simp [hasSession_workOf, hses]
  · obtain ⟨hi, hs⟩ := not_or.mp hs
    have hs := Bool.eq_false_iff.mpr hs
    refine ⟨_, _, exec_of_noSession hi hs, exec_of_noSession hi (hses.trans hs), fun r hr => .inr ?_, fun k _ => .inr ?_,
      fun k => .inr ?_, ?_, ?_⟩
    · simp [hr]
    · simp
    · simp
    · simp
    · simpa using hses

/-- A command other than INIT's keeps TBL and DEST. -/
theorem runCommand_keeps_table_and_dest {w : Word} {s t : State} (h : runCommand w s = .next t) (hw : decode w ≠ .op .init) :
    t.tbl = s.tbl ∧ t.reg .dest = s.reg .dest := by
  cases hd : decode w with
  | illegal r =>
    rw [runCommand_of_illegal hd] at h
    cases h; simp
  | op i =>
    have hi : i ≠ .init := fun he => hw (he ▸ hd)
    have hdest : Reg.dest ∉ regsWritten i := by cases i <;> simp_all [regsWritten]
    rw [runCommand_of_op hd] at h
    exact ⟨by simpa using exec_tbl h hi, by simpa using exec_reg_of_not_written h hdest⟩

/-- An access other than INIT's command and the hard reset keeps TBL and DEST. -/
theorem access_keeps_table_and_dest {e : HostEvent} {s t : State} (h : access e s = .next t) (hr : e ≠ .hardReset)
    (hw : ∀ w, e = .regWrite 0 w → decode w ≠ .op .init) : t.tbl = s.tbl ∧ t.reg .dest = s.reg .dest := by
  cases access_effect h with
  | command hc => simpa using runCommand_keeps_table_and_dest hc (hw _ rfl)
  | @register r v hrw =>
    have hdest : Reg.dest ≠ r := fun he => absurd (he ▸ hrw) (by decide)
    simp [hdest]
  | byte => simp
  | reply => simp
  | hardReset => exact absurd rfl hr

/-- Settles O40: the frame of every other access, an operation that commutes with a write of POLY or ADDR, and what INIT makes of the two. -/
theorem polyAndAddrAreSeenOnlyAtInit : Obligations.PolyAndAddrAreSeenOnlyAtInit := by
  refine ⟨fun s t e rest hp hstep hr hw => ?_, fun i s r v hi hr => ?_, fun s => ⟨_, rfl, tblAt_init s, init_dest_toNat s⟩⟩
  · rw [step_of_pending hp] at hstep
    simpa using access_keeps_table_and_dest hstep hr hw
  · obtain ⟨t, ht⟩ := exec_answers i s
    have huntouched : r ∉ regsRead i ∧ r ∉ regsWritten i := by
      rcases hr with rfl | rfl <;> cases i <;> simp_all [regsRead, regsWritten]
    exact ⟨t, ht, exec_setReg huntouched.1 huntouched.2 ht v⟩

end Sys2Proof.Machine
end

section
/-! SUPPORT. The decoder and the encoder are inverse, and what follows from it: the legal words as numbers, their list, the rows of the opcode map (spec/30_encoding.md R61, R70). -/

namespace Sys2Proof

open Sys2Proof.Statement

/-! ### Decode and encode -/

@[simp] theorem decode_encode (i : Instr) : decode (encode i) = .op i := by
  cases i <;> simp [encode, decode]

/-- In each legal branch of the decoder the fields it asks for are those the encoder writes. -/
theorem encode_of_decode {w : Word} {i : Instr} (h : decode w = .op i) : encode i = w := by
  unfold decode at h
  split_ifs at h with hmbz hinit hclr hfold hbuild hparse hpchk hres <;> cases h
  all_goals have hw := commandWord_of_fields (not_not.mp hmbz)
  · simpa [encode, hinit] using hw
  · simpa [encode, hclr] using hw
  · simpa [encode, hfold] using hw
  · simpa [encode, hbuild] using hw
  · simpa [encode, hparse] using hw
  · simpa [encode, hpchk] using hw

theorem decode_eq_op_iff {w : Word} {i : Instr} : decode w = .op i ↔ w = encode i :=
  ⟨fun h => (encode_of_decode h).symm, fun h => h ▸ decode_encode i⟩

theorem illegal_iff_not_op {w : Word} : (∃ r, decode w = .illegal r) ↔ ∀ i, decode w ≠ .op i := by
  cases decode w <;> simp

/-! ### The legal words as numbers -/

/-- The number of an operation's command word (spec/30_encoding.md R61). -/
theorem encode_toNat (i : Instr) :
    (encode i).toNat =
      match i with
      | .init => 1
      | .crcclr => 2
      | .crcfold b => 256 * b.toNat + 3
      | .build ty => 16 * ty.code.toNat + 4
      | .parse => 5
      | .pchk => 6 := by
  cases i <;> simp [encode, commandWord_toNat]

theorem decode_eq_op_iff_toNat {w : Word} {i : Instr} : decode w = .op i ↔ w.toNat = (encode i).toNat := by
  rw [decode_eq_op_iff, BitVec.toNat_inj]

/-- Whatever decodes to an operation is in one of the numbered cases of spec/30_encoding.md R61. -/
theorem case_of_legal {w : Word} {i : Instr} (h : decode w = .op i) :
    w.toNat / 64 % 4 = 0
      ∧ ((w.toNat % 16 = 1 ∧ w.toNat / 16 % 4 = 0 ∧ w.toNat / 256 = 0)
        ∨ (w.toNat % 16 = 2 ∧ w.toNat / 16 % 4 = 0 ∧ w.toNat / 256 = 0)
        ∨ (w.toNat % 16 = 3 ∧ w.toNat / 16 % 4 = 0)
        ∨ (w.toNat % 16 = 4 ∧ w.toNat / 256 = 0)
        ∨ (w.toNat % 16 = 5 ∧ w.toNat / 16 % 4 = 0 ∧ w.toNat / 256 = 0)
        ∨ (w.toNat % 16 = 6 ∧ w.toNat / 16 % 4 = 0 ∧ w.toNat / 256 = 0)) := by
  rw [decode_eq_op_iff_toNat, encode_toNat] at h
  cases i with
  | build ty => have := ty.code.isLt; simp only at h; omega
  | init | crcclr | crcfold b | parse | pchk => simp only at h; omega

/-- Every encoding is in the list: CRCFOLD's at its operand's place, BUILD's among the four. -/
theorem encode_mem_legalWords (i : Instr) : encode i ∈ legalWords := by
  cases i with
  | crcfold b =>
    have hb : BitVec.ofNat 16 (3 + 256 * b.toNat) = encode (.crcfold b) := by
      apply BitVec.eq_of_toNat_eq
      have := b.isLt
      simp only [BitVec.toNat_ofNat, encode_toNat]
      omega
    have hmem : encode (.crcfold b) ∈ (List.range 256).map fun b => BitVec.ofNat 16 (3 + 256 * b) :=
      List.mem_map.mpr ⟨b.toNat, List.mem_range.mpr b.isLt, hb⟩
    simp only [legalWords, List.mem_append]
    exact .inl (.inl (.inr hmem))
  | build ty => cases ty <;> simp [legalWords, encode, commandWord, AccessType.code]
  | init | crcclr | parse | pchk => simp [legalWords, encode, commandWord]

/-- Every listed word is an encoding. -/
theorem encode_of_mem_legalWords {w : Word} (h : w ∈ legalWords) : ∃ i, encode i = w := by
  simp only [legalWords, List.mem_append, List.mem_map, List.mem_range, List.mem_cons, List.not_mem_nil, or_false] at h
  rcases h with ((h | ⟨b, hb, rfl⟩) | h) | h
  · rcases h with rfl | rfl
    · exact ⟨.init, rfl⟩
    · exact ⟨.crcclr, rfl⟩
  · refine ⟨.crcfold (BitVec.ofNat 8 b), BitVec.eq_of_toNat_eq ?_⟩
    simp only [encode_toNat, BitVec.toNat_ofNat]
    omega
  · rcases h with rfl | rfl | rfl | rfl
    · exact ⟨.build .unused, rfl⟩
    · exact ⟨.build .read, rfl⟩
    · exact ⟨.build .write, rfl⟩
    · exact ⟨.build .readWrite, rfl⟩
  · rcases h with rfl | rfl
    · exact ⟨.parse, rfl⟩
    · exact ⟨.pchk, rfl⟩

theorem mem_legalWords_iff {w : Word} : w ∈ legalWords ↔ ∃ i, decode w = .op i := by
  refine ⟨fun h => ?_, fun ⟨i, h⟩ => decode_eq_op_iff.mp h ▸ encode_mem_legalWords i⟩
  obtain ⟨i, rfl⟩ := encode_of_mem_legalWords h
  exact ⟨i, decode_encode i⟩

theorem length_legalWords : legalWords.length = 264 := by simp [legalWords]

/-- CRCFOLD's words differ by multiples of 256, and no other word's low byte is 3. -/
theorem nodup_legalWords : legalWords.Nodup := by
  have hfolds : ((List.range 256).map fun b => BitVec.ofNat 16 (3 + 256 * b)).Nodup := by
    refine List.nodup_range.map_on fun a ha b hb hab => ?_
    have hab := congrArg BitVec.toNat hab
    simp only [List.mem_range, BitVec.toNat_ofNat] at ha hb hab
    omega
  have hne : ∀ {w : Word}, w.toNat % 256 ≠ 3 → ∀ b, BitVec.ofNat 16 (3 + 256 * b) ≠ w := by
    rintro _ hw b rfl
    rw [BitVec.toNat_ofNat] at hw
    omega
  have hout : ∀ w ∈ ([0x0001#16, 0x0002#16, 0x0004#16, 0x0014#16, 0x0024#16, 0x0034#16, 0x0005#16, 0x0006#16] : List Word), ∀ b,
      BitVec.ofNat 16 (3 + 256 * b) ≠ w := fun w hw => hne (by revert w; simp)
  simp only [List.forall_mem_cons] at hout
  simp [legalWords, List.nodup_append, hfolds, hout]

/-! ### The fields of a word under a mask -/

theorem opcField_and (w m : Word) : opcField (w &&& m) = opcField w &&& opcField m := BitVec.extractLsb'_and

theorem immField_eq_ofNat (w : Word) : BitVec.ofNat 8 (w.toNat / 256) = immField w := by
  rw [← immField_toNat, BitVec.ofNat_toNat, BitVec.setWidth_eq]

theorem atField_eq_ofNat (w : Word) : BitVec.ofNat 2 (w.toNat / 16) = atField w := by
  apply BitVec.eq_of_toNat_eq
  rw [atField_toNat, BitVec.toNat_ofNat]

/-- A word is its four fields (spec/30_encoding.md R60). -/
theorem eq_commandWord_iff {w : Word} {imm : Byte} {ty : BitVec 2} {opc : BitVec 4} :
    w = commandWord imm ty opc ↔ immField w = imm ∧ mbzField w = 0 ∧ atField w = ty ∧ opcField w = opc := by
  refine ⟨fun h => by simp [h], fun ⟨himm, hmbz, hty, hopc⟩ => ?_⟩
  rw [← himm, ← hty, ← hopc, commandWord_of_fields hmbz]

/-! A mask of ones, as wide as the field, keeps the field. -/

theorem and_two_bits (x : BitVec 2) : x &&& 3#2 = x := BitVec.and_allOnes
theorem and_four_bits (x : BitVec 4) : x &&& 15#4 = x := BitVec.and_allOnes
theorem and_eight_bits (x : BitVec 8) : x &&& 255#8 = x := BitVec.and_allOnes

end Sys2Proof
end

section
/-! The statements of the encoding, settled. -/

namespace Sys2Proof

open Sys2Proof.Statement

/-- Settles O2: by the operation in one direction, by the decoder's legal branches in the other. -/
theorem decodeEncodeAgree : Obligations.DecodeEncodeAgree :=
  ⟨fun i _ => decode_encode i, fun _ _ => encode_of_decode⟩

/-! ### The ordered procedure -/

/-- Settles O3: a case's fields make the number of its operation's word, and a word that decodes to an operation is in a case. -/
theorem decodeFollowsTheProcedure : Obligations.DecodeFollowsTheProcedure := by
  refine ⟨fun w => ?_, fun w => mem_legalWords_iff.symm, nodup_legalWords, length_legalWords, by simp [length_legalWords],
    fun w x i hw hx => (encode_of_decode hw).symm.trans (encode_of_decode hx)⟩
  have hlt := w.isLt
  intro opc ty mbz imm
  refine ⟨fun hmbz => illegal_iff_not_op.mpr fun i hi => hmbz (case_of_legal hi).1, fun hmbz => ⟨?_, ?_, ?_, ?_, ?_, ?_,
    fun hinit hclr hfold hbuild hparse hpchk => illegal_iff_not_op.mpr fun i hi => by
      rcases (case_of_legal hi).2 with h | h | h | h | h | h
      exacts [hinit h, hclr h, hfold h, hbuild h, hparse h, hpchk h]⟩⟩
  all_goals
    simp only [decode_eq_op_iff_toNat, encode_toNat, code_ofCode, BitVec.toNat_ofNat]
    omega

/-! ### The rows of the opcode map -/

/-- Rows whose masks keep OPC and whose matches differ in it share no word. -/
theorem rows_disjoint {a b : Word × Word} (ha : opcField a.1 = 15) (hb : opcField b.1 = 15) (h : opcField a.2 ≠ opcField b.2) (w : Word) :
    ¬(w &&& a.1 = a.2 ∧ w &&& b.1 = b.2) := by
  rintro ⟨hwa, hwb⟩
  have hopc : ∀ {m v : Word}, opcField m = 15 → w &&& m = v → opcField v = opcField w := by
    rintro m _ hm rfl
    rw [opcField_and, hm]
    exact BitVec.and_allOnes
  exact h ((hopc ha hwa).trans (hopc hb hwb).symm)

/-- CRCFOLD's mask leaves out IMM8, its operand. -/
theorem crcfold_row (w : Word) : w &&& 0x00FF#16 = 0x0003#16 ↔ w = encode (.crcfold (immField w)) := by
  rw [show 0x0003#16 = commandWord 0 0 3 from rfl, encode, eq_commandWord_iff, eq_commandWord_iff]
  simp [immField, mbzField, atField, opcField, BitVec.extractLsb'_and, and_two_bits, and_four_bits]

/-- BUILD's mask leaves out AT, its operand. -/
theorem build_row (w : Word) : w &&& 0xFFCF#16 = 0x0004#16 ↔ w = encode (.build (.ofCode (atField w))) := by
  rw [show 0x0004#16 = commandWord 0 0 4 from rfl, encode, eq_commandWord_iff, eq_commandWord_iff]
  simp [immField, mbzField, atField, opcField, BitVec.extractLsb'_and, and_two_bits, and_four_bits, and_eight_bits]

/-- Settles O4: a row's mask and match, and the encoding of its operation, fix the same fields. -/
theorem opcodeMapRows : Obligations.OpcodeMapRows := by
  refine ⟨fun w => ?_, ?_⟩
  · have hfull : w &&& 0xFFFF#16 = w := BitVec.and_allOnes
    simp only [decode_eq_op_iff, immField_eq_ofNat, atField_eq_ofNat, hfull]
    exact ⟨Iff.rfl, Iff.rfl, crcfold_row w, build_row w, Iff.rfl, Iff.rfl⟩
  · have hrows : ([(0xFFFF, 0x0001), (0xFFFF, 0x0002), (0x00FF, 0x0003), (0xFFCF, 0x0004), (0xFFFF, 0x0005), (0xFFFF, 0x0006)] :
        List (Word × Word)).Pairwise fun a b => opcField a.1 = 15 ∧ opcField b.1 = 15 ∧ opcField a.2 ≠ opcField b.2 := by decide
    exact hrows.imp fun ⟨ha, hb, h⟩ => rows_disjoint ha hb h

/-- Settles O1: the decoder evaluated on each fixed word. -/
theorem commandWordsDecodeAsListed : Obligations.CommandWordsDecodeAsListed := by
  refine ⟨rfl, rfl, rfl, rfl, rfl, rfl, rfl, rfl, rfl, rfl, ?_⟩
  simp only [List.forall_mem_cons]
  exact ⟨rfl, rfl, rfl, rfl, rfl, rfl, rfl, rfl, rfl, nofun⟩

end Sys2Proof
end

section
/-! SUPPORT. CRCCLR and CRCFOLD as host accesses in a session (spec/30_encoding.md R76): each leaves CMD, ACC and ERR, and a run of them leaves what its last one does. -/

namespace Sys2Proof.Machine

open Sys2Proof.Statement

/-- An assembler line of an operation runs it with its own word in CMD. -/
theorem access_asmOp (i : Instr) (s : State) : access (asmOp i) s = exec i ((s.setReply none).setReg .cmd (encode i)) :=
  runCommand_of_op (decode_encode i) _

/-- The state after a command of word `w` that stored `acc` in ACC and ended well. -/
def accStored (s : State) (w acc : Word) : State := finish .ok (((s.setReply none).setReg .cmd w).setReg .acc acc)

@[simp] theorem accStored_acc (s : State) (w acc : Word) : (accStored s w acc).reg .acc = acc := by simp [accStored]

@[simp] theorem accStored_status (s : State) (w acc : Word) : (accStored s w acc).reg .status = statusWith s 0 := by
  simp [accStored, statusWith, setErr, ResultCode.code]

@[simp] theorem accStored_table (s : State) (w acc : Word) : (accStored s w acc).table = s.table := by simp [accStored]

@[simp] theorem accStored_hasSession (s : State) (w acc : Word) : (accStored s w acc).hasSession = s.hasSession := by
  simp [accStored, State.hasSession]

theorem accStored_frame (s : State) (w acc : Word) : BlockOnly [.acc, .status, .cmd] s (accStored s w acc) := by
  refine blockOnly_setReg (blockOnly_setReg (blockOnly_setReg (blockOnly_setReply _ s none) ?_ w) ?_ acc) ?_ _ <;> decide

/-- Of two such commands the later one's CMD and ACC are left. -/
@[simp] theorem accStored_accStored (s : State) (w acc w' acc' : Word) :
    accStored (accStored s w acc) w' acc' = accStored s w' acc' := by
  refine State.ext_regs (fun r => ?_) (by simp [accStored]) (fun sp => by simp [accStored]) (by simp [accStored])
    (by simp [accStored]) (by simp [accStored])
  by_cases hst : r = .status
  · subst hst; simp [accStored]
  · by_cases hacc : r = .acc
    · subst hacc; simp
    · by_cases hcmd : r = .cmd <;> simp [accStored, hst, hacc, hcmd]

/-! ### The two operations and their runs -/

theorem access_crcclr {s : State} (h : s.hasSession = true) : access (asmOp .crcclr) s = .next (accStored s (encode .crcclr) 0) := by
  rw [access_asmOp]
  exact exec_eq_finish_workOf (.inr (by simpa [State.hasSession] using h))

theorem access_crcfold {s : State} (h : s.hasSession = true) (b : Byte) :
    access (asmOp (.crcfold b)) s = .next (accStored s (encode (.crcfold b)) (foldByte s.table (s.reg .acc) b)) := by
  rw [access_asmOp, exec_eq_finish_workOf (.inr (by simpa [State.hasSession] using h))]
  simp [workOf, codeOf, accStored]

/-- CRCFOLDS after a command that left `acc` in ACC folds the bytes into it. -/
theorem runEvents_crcfolds {s : State} (h : s.hasSession = true) (bytes : List Byte) :
    ∀ w acc, ∃ w', runEvents (asmCrcfolds bytes) (accStored s w acc) = .next (accStored s w' (foldBytes s.table acc bytes)) := by
  induction bytes with
  | nil => exact fun w acc => ⟨w, rfl⟩
  | cons b bytes ih =>
    intro w acc
    obtain ⟨w', hrest⟩ := ih (encode (.crcfold b)) (foldByte s.table acc b)
    refine ⟨w', ?_⟩
    have hfold := access_crcfold (s := accStored s w acc) (by simpa using h) b
    simp only [accStored_accStored, accStored_table, accStored_acc] at hfold
    calc runEvents (asmCrcfolds (b :: bytes)) (accStored s w acc)
        = andThen (access (asmOp (.crcfold b)) (accStored s w acc)) (runEvents (asmCrcfolds bytes)) := rfl
      _ = runEvents (asmCrcfolds bytes) (accStored s (encode (.crcfold b)) (foldByte s.table acc b)) := by rw [hfold, andThen_next]
      _ = .next (accStored s w' (foldBytes s.table acc (b :: bytes))) := hrest

end Sys2Proof.Machine
end

section
/-! The statement of CRCOF, settled. -/

namespace Sys2Proof.Machine

/-- Settles O25: CRCCLR leaves ACC zero, and CRCFOLDS goes on from there. -/
theorem crcofLeavesTheChecksum : Obligations.CrcofLeavesTheChecksum := by
  intro s bytes h
  obtain ⟨w, hrun⟩ := runEvents_crcfolds h bytes (encode .crcclr) 0
  refine ⟨accStored s w (foldBytes s.table 0 bytes), ?_, accStored_acc s w _, accStored_status s w _, accStored_frame s w _⟩
  rw [asmCrcof, runEvents_cons, access_crcclr h, andThen_next, hrun]

end Sys2Proof.Machine
end

section
/-! SUPPORT. The shift register and the table fold: when iterations only shift, the table fold as a bit-serial run (spec/40_checksum.md R94), the laws of the entries and of the folds (R91, R95), and what CRCCLR and CRCFOLD leave (R97, R98). -/

namespace Sys2Proof.Machine

open Sys2Proof.Statement

/-! ### The shift register -/

/-- Where the two registers agree in their top `n` bits, `n` iterations only shift: no iteration takes the polynomial in. -/
theorem shiftRounds_of_top_bits_eq (p : Word) (n : Nat) :
    ∀ a d : Word, (∀ i, 16 ≤ i + n → a.getLsbD i = d.getLsbD i) → shiftRounds p n (a, d) = (a <<< n, d <<< n) := by
  induction n with
  | zero => intro a d _; simp [shiftRounds]
  | succ n ih =>
    intro a d h
    have hround : shiftRound p (a, d) = (a <<< 1, d <<< 1) := by
      have htop : ¬ (d ^^^ a) &&& 0x8000#16 ≠ 0#16 := by
        rw [topBit_test, BitVec.getLsbD_xor, h 15 (by omega), Bool.xor_self]
        exact Bool.false_ne_true
      exact congrArg (·, d <<< 1) (if_neg htop)
    have hshifted : ∀ i, 16 ≤ i + n → (a <<< 1).getLsbD i = (d <<< 1).getLsbD i := by
      intro i hi
      by_cases h0 : i < 1
      · simp [BitVec.getLsbD_shiftLeft, h0]
      · simp [BitVec.getLsbD_shiftLeft, h (i - 1) (by omega)]
    rw [shiftRounds, hround, ih _ _ hshifted, ← BitVec.shiftLeft_add, ← BitVec.shiftLeft_add, Nat.add_comm]

/-- With the polynomial 0 a zero accumulator stays zero. -/
theorem shiftRounds_zero_poly (n : Nat) : ∀ d : Word, (shiftRounds 0 n (0, d)).1 = 0 := by
  induction n with
  | zero => intro d; rfl
  | succ n ih =>
    intro d
    have hround : shiftRound 0 (0, d) = ((0 : Word), d <<< 1) := by simp [shiftRound]
    rw [shiftRounds, hround, ih]

/-- The run for one byte is linear in accumulator and byte, the polynomial fixed. -/
theorem serialFold_xor (p a₁ a₂ : Word) (b₁ b₂ : Byte) :
    serialFold p (a₁ ^^^ a₂) (b₁ ^^^ b₂) = serialFold p a₁ b₁ ^^^ serialFold p a₂ b₂ := by
  simp only [serialFold, BitVec.truncate_eq_setWidth, BitVec.setWidth_xor, BitVec.shiftLeft_xor_distrib, shiftRounds_xor]

/-- A run whose byte is the accumulator's high byte shifts that byte out and the low byte up. -/
theorem serialFold_hiByte (p acc : Word) : serialFold p acc (hiByte acc) = acc <<< 8 := by
  have hagree : ∀ i, 16 ≤ i + 8 → acc.getLsbD i = ((hiByte acc).zeroExtend 16 <<< 8).getLsbD i := by
    intro i hi
    have hlow : ¬ i < 8 := by omega
    by_cases hlt : i < 16
    · simp [hiByte, hlow, hlt, show i - 8 < 8 by omega, show 8 + (i - 8) = i by omega]
    · simp [hlt, BitVec.getLsbD_of_ge acc i (by omega)]
  rw [serialFold, shiftRounds_of_top_bits_eq p 8 _ _ hagree]

/-! ### The entries of the table -/

theorem buildEntry_xor (p : Word) (a b : Byte) : buildEntry p (a ^^^ b) = buildEntry p a ^^^ buildEntry p b :=
  serialFold_xor p 0 0 a b

theorem buildEntry_zero (p : Word) : buildEntry p 0#8 = 0#16 := serialFold_hiByte p 0

/-- The one bit of the byte 1 reaches the top after seven iterations, and the eighth takes the polynomial in. -/
theorem buildEntry_one (p : Word) : buildEntry p 1 = p := by
  simp [buildEntry, serialFold, shiftRounds, shiftRound]

theorem buildEntry_zero_poly (b : Byte) : buildEntry 0 b = 0 := shiftRounds_zero_poly 8 _

/-- The table after INIT, indexed by byte value. -/
theorem table_init (s : State) : (finish .ok (createSession s)).table = buildEntry (s.reg .poly) :=
  funext fun b => table_of_built (by simp) b

/-- The table after INIT, indexed by number. -/
theorem tblAt_init_of_lt (s : State) {i : Nat} (h : i < 256) :
    (finish .ok (createSession s)).tblAt i = buildEntry (s.reg .poly) (BitVec.ofNat 8 i) := by
  rw [← table_init, State.table, BitVec.toNat_ofNat, Nat.mod_eq_of_lt h]

/-! ### The fold -/

/-- A fold from the zero accumulator is a table lookup, whatever the table (spec/40_checksum.md R94). -/
theorem foldByte_zero (T : Byte → Word) (b : Byte) : foldByte T 0 b = T b := by
  simp [foldByte, hiByte]

theorem foldByte_table_zero (s : State) (b : Byte) : foldByte s.table 0 b = s.tblAt b.toNat := foldByte_zero s.table b

/-- The table fold is the bit-serial run (spec/40_checksum.md R94): the accumulator with the byte splits into a zero accumulator with the looked-up byte, and the accumulator with its own high byte, which only shifts. -/
theorem foldByte_buildEntry (p acc : Word) (b : Byte) : foldByte (buildEntry p) acc b = serialFold p acc b := by
  have hbyte : hiByte acc ^^^ (hiByte acc ^^^ b) = b := by rw [← BitVec.xor_assoc, BitVec.xor_self, BitVec.zero_xor]
  calc foldByte (buildEntry p) acc b
      = serialFold p acc (hiByte acc) ^^^ serialFold p 0 (hiByte acc ^^^ b) := by rw [serialFold_hiByte]; rfl
    _ = serialFold p (acc ^^^ 0) (hiByte acc ^^^ (hiByte acc ^^^ b)) := (serialFold_xor _ _ _ _ _).symm
    _ = serialFold p acc b := by rw [hbyte]; exact congrArg (serialFold p · b) BitVec.xor_zero

/-- The fold as numbers (spec/40_checksum.md R92). -/
theorem foldByte_table_eq (s : State) (acc : Word) (b : Byte) :
    foldByte s.table acc b = BitVec.ofNat 16 (acc.toNat * 256) ^^^ s.tblAt ((acc.toNat / 256) ^^^ b.toNat) := by
  have hshift : acc <<< 8 = BitVec.ofNat 16 (acc.toNat * 256) := by
    apply BitVec.eq_of_toNat_eq
    simp [Nat.shiftLeft_eq]
  rw [foldByte, State.table, hshift, BitVec.toNat_xor, hiByte_toNat]

/-- Bytes whose entries are zero leave the zero accumulator zero (spec/40_checksum.md R91 (d), R95 (b)). -/
theorem foldBytes_of_zero_entries {T : Byte → Word} {bytes : List Byte} (h : ∀ b ∈ bytes, T b = 0) : foldBytes T 0 bytes = 0 := by
  induction bytes with
  | nil => rfl
  | cons b bytes ih =>
    obtain ⟨hb, hbytes⟩ := List.forall_mem_cons.mp h
    rw [foldBytes, foldByte_zero, hb, ih hbytes]

section
variable {T : Byte → Word} (hT : T 0#8 = 0#16)
include hT

/-- A byte equal to the accumulator's high byte looks up entry 0. -/
theorem foldByte_hiByte (acc : Word) : foldByte T acc (hiByte acc) = acc <<< 8 := by
  simp [foldByte, hT]

/-- An accumulator's own bytes, high byte first, fold it to zero (spec/40_checksum.md R95 (d)). -/
theorem foldBytes_bigEndian (acc : Word) : foldBytes T acc (bigEndian acc) = 0 := by
  have hlow : loByte acc = hiByte (acc <<< 8) := by
    apply BitVec.eq_of_toNat_eq
    rw [loByte_toNat, hiByte_toNat, BitVec.toNat_shiftLeft, Nat.shiftLeft_eq]
    omega
  calc foldBytes T acc (bigEndian acc)
      = foldByte T (foldByte T acc (hiByte acc)) (loByte acc) := rfl
    _ = (acc <<< 8) <<< 8 := by rw [foldByte_hiByte hT, hlow, foldByte_hiByte hT]
    _ = 0 := by rw [← BitVec.shiftLeft_add]; exact BitVec.shiftLeft_eq_zero (by decide)

end

/-- The nine bytes 31 to 39 and their checksum (spec/40_checksum.md R95 (f)). -/
theorem foldBytes_nine_bytes :
    foldBytes (buildEntry 0x1021) 0 [0x31#8, 0x32#8, 0x33#8, 0x34#8, 0x35#8, 0x36#8, 0x37#8, 0x38#8, 0x39#8] = 0x31C3#16 := by
  decide

/-! ### STATUS and the frame of the operations -/

/-- STATUS after INIT in one mask: bits 4:0 replaced, SESSION set, ERR 0 (spec/40_checksum.md R96). -/
theorem setErr_setSession_zero (v : Word) : setErr (setSession v) 0 = (v &&& 0xFFE0#16) ||| 0x0010#16 := by
  have hsession : v &&& 0x0010#16 ||| 0x0010#16 = 0x0010#16 := by
    calc v &&& 0x0010#16 ||| 0x0010#16
        = v &&& 0x0010#16 ||| BitVec.allOnes 16 &&& 0x0010#16 := by rw [BitVec.allOnes_and]
      _ = 0x0010#16 := by rw [← BitVec.and_or_distrib_right, BitVec.or_allOnes, BitVec.allOnes_and]
  calc setErr (setSession v) 0
      = (v ||| 0x0010#16) &&& 0xFFF0#16 := BitVec.or_zero
    _ = v &&& (0xFFE0#16 ||| 0x0010#16) ||| 0x0010#16 := BitVec.and_or_distrib_right
    _ = (v &&& 0xFFE0#16) ||| 0x0010#16 := by rw [BitVec.and_or_distrib_left, BitVec.or_assoc, hsession]

/-- An operation but INIT and BUILD changes nothing outside the registers it may write (spec/20_memory.md R59). -/
theorem exec_onlyRegs {i : Instr} {s t : State} (h : exec i s = .next t) (hinit : i ≠ .init) (hbuild : ∀ ty, i ≠ .build ty) :
    OnlyRegs (regsWritten i) s t := by
  obtain ⟨hpending, hreply, -⟩ := workOf_model i s
  exact ⟨⟨fun _ => exec_reg_of_not_written h, exec_tbl h hinit, fun _ => exec_bytes h fun _ ty hi => absurd hi (hbuild ty),
    exec_resets h⟩, exec_keeps State.pending h finish_pending hpending, exec_keeps State.reply h finish_reply hreply⟩

/-- An operation whose work stores `v` in ACC and which then ends well: ACC is `v` and ERR 0, or without a session ACC is kept and ERR is 13 (spec/40_checksum.md R97, R98). -/
theorem exec_of_acc_stored {i : Instr} {s t : State} {v : Word} (h : exec i s = .next t) (hinit : i ≠ .init)
    (hwork : workOf i s = s.setReg .acc v) (hcode : codeOf i s = .ok) :
    (s.hasSession = true → t.reg .acc = v ∧ t.reg .status = statusWith s 0)
      ∧ (s.hasSession = false → t.reg .acc = s.reg .acc ∧ t.reg .status = statusWith s 13) := by
  refine ⟨fun hs => ?_, fun hs => ?_⟩
  · rw [exec_eq_finish_workOf (.inr hs), hwork, hcode] at h
    cases h
    exact ⟨by simp, by simp [statusWith, setErr, ResultCode.code]⟩
  · rw [exec_of_noSession hinit hs] at h
    cases h
    exact ⟨by simp, by simp [statusWith, setErr, ResultCode.code]⟩

end Sys2Proof.Machine
end

section
/-! The statements of the checksum engine, settled. -/

namespace Sys2Proof.Machine

open Sys2Proof.Statement

/-- Settles O18: INIT has no check to fail, and its state is `finish` on the session it creates. -/
theorem initCreatesASession : Obligations.InitCreatesASession := by
  intro s
  have hstatus := (init_reg s .status).trans (setErr_setSession_zero _)
  have hframe : ∀ r, r ∉ regsWritten .init → (finish .ok (createSession s)).reg r = s.reg r :=
    fun _ => exec_reg_of_not_written (i := .init) rfl
  exact ⟨_, rfl, tblAt_init s, init_dest_toNat s, init_reg s .seq, init_reg s .acc, hstatus, hframe, by simp, by simp, by simp,
    by simp⟩

/-- Settles O21: the laws of `buildEntry`, which INIT's table is. Entry 1 is the polynomial, so equal entries at the powers of two make equal polynomials and equal tables. -/
theorem tableLaws : Obligations.TableLaws := by
  intro s
  have hpoly : ∀ u : State, (finish .ok (createSession u)).tblAt 1 = u.reg .poly := fun u => by
    rw [tblAt_init_of_lt u (by decide)]; exact buildEntry_one _
  refine ⟨_, rfl, ?_, hpoly s, fun a b => ?_, fun s' t' h heq i hi => ?_, fun hp => ⟨fun i hi => ?_, fun bytes => ?_⟩⟩
  · rw [tblAt_init_of_lt s (by decide)]; exact buildEntry_zero _
  · rw [table_init, buildEntry_xor]
  · cases h
    have hsame : s'.reg .poly = s.reg .poly := by rw [← hpoly s', ← hpoly s]; exact heq 0 (by decide)
    rw [tblAt_init_of_lt s' hi, tblAt_init_of_lt s hi, hsame]
  · rw [tblAt_init_of_lt s hi, hp, buildEntry_zero_poly]
  · rw [table_init, hp]; exact foldBytes_of_zero_entries fun b _ => buildEntry_zero_poly b

/-- Settles O22: the fold through INIT's table is the bit-serial run, and from a zero accumulator it is one entry. -/
theorem tableFoldIsTheShiftRegister : Obligations.TableFoldIsTheShiftRegister := by
  intro s
  refine ⟨_, rfl, fun acc b => ?_, fun b => (foldByte_table_zero _ b).symm⟩
  rw [table_init, foldByte_buildEntry, serialFold_eq_shiftRegister]

/-- Settles O23: what follows from entry 0 being zero, and linearity through the bit-serial run. -/
theorem foldLaws : Obligations.FoldLaws := by
  intro s
  refine ⟨_, rfl, foldByte_table_zero _, ?_⟩
  rw [table_init]
  have hzeros : ∀ n, foldBytes (buildEntry (s.reg .poly)) 0 (List.replicate n 0x00#8) = 0 := fun n =>
    foldBytes_of_zero_entries fun b hb => by rw [List.eq_of_mem_replicate hb]; exact buildEntry_zero _
  refine ⟨(foldByte_zero _ _).trans (buildEntry_one _), (foldByte_zero _ _).trans (buildEntry_zero _), fun n m => ⟨hzeros n, ?_⟩,
    rfl, fun m => ?_, fun a1 a2 b1 b2 => ?_, fun hp => ?_⟩
  · rw [foldBytes_append, hzeros]
  · rw [foldBytes_append]; exact foldBytes_bigEndian (buildEntry_zero _) _
  · simp only [foldByte_buildEntry, serialFold_xor]
  · rw [hp]; exact foldBytes_nine_bytes

/-- Settles O19: CRCCLR's work stores 0 in ACC. -/
theorem crcclrClearsAcc : Obligations.CrcclrClearsAcc := by
  intro s
  obtain ⟨t, ht⟩ := exec_answers .crcclr s
  obtain ⟨hsession, hnone⟩ := exec_of_acc_stored ht nofun rfl rfl
  exact ⟨t, ht, hsession, hnone, exec_onlyRegs ht nofun nofun⟩

/-- Settles O20: CRCFOLD's work stores the folded accumulator in ACC. -/
theorem crcfoldFoldsOneByte : Obligations.CrcfoldFoldsOneByte := by
  intro s b
  obtain ⟨t, ht⟩ := exec_answers (.crcfold b) s
  obtain ⟨hsession, hnone⟩ := exec_of_acc_stored ht nofun rfl rfl
  rw [foldByte_table_eq] at hsession
  exact ⟨t, ht, hsession, hnone, exec_onlyRegs ht nofun nofun⟩

end Sys2Proof.Machine
end

section
/-! SUPPORT. Under a polynomial with constant term 1 the fold loses nothing: different accumulators, or different bytes, fold to different accumulators (spec/41_framer.md R114). -/

namespace Sys2Proof.Machine

/-- An iteration without data gives 0 only from 0: a set top bit would take the polynomial, and its constant term, in. -/
theorem eq_zero_of_shiftRound_eq_zero {p a : Word} (hp : p.getLsbD 0 = true) (h : (shiftRound p (a, 0)).1 = 0) : a = 0 := by
  have hround : (shiftRound p (a, 0)).1 = if a.getLsbD 15 = true then a <<< 1 ^^^ p else a <<< 1 := by
    simp only [shiftRound, topBit_test]
    exact congrArg (fun x : Word => if x.getLsbD 15 = true then a <<< 1 ^^^ p else a <<< 1) BitVec.zero_xor
  rw [hround] at h
  by_cases htop : a.getLsbD 15 = true
  · rw [if_pos htop] at h
    have hlow := congrArg (BitVec.getLsbD · 0) h
    simp only [BitVec.getLsbD_xor, BitVec.getLsbD_shiftLeft, hp] at hlow
    simp at hlow
  · rw [if_neg htop] at h
    apply BitVec.eq_of_getLsbD_eq
    intro i hi
    by_cases hlast : i = 15
    · rw [hlast]; exact Bool.eq_false_iff.mpr htop
    · have hup := congrArg (BitVec.getLsbD · (i + 1)) h
      simp only [BitVec.getLsbD_shiftLeft] at hup
      simpa [show i + 1 < 16 by omega] using hup

theorem eq_zero_of_shiftRounds_eq_zero {p : Word} (hp : p.getLsbD 0 = true) (n : Nat) :
    ∀ a : Word, (shiftRounds p n (a, 0)).1 = 0 → a = 0 := by
  induction n with
  | zero => exact fun a h => h
  | succ n ih =>
    intro a h
    have hround : shiftRound p (a, 0) = ((shiftRound p (a, 0)).1, 0) := Prod.ext rfl rfl
    rw [shiftRounds, hround] at h
    exact eq_zero_of_shiftRound_eq_zero hp (ih _ h)

/-- No bits of the accumulator are lost in the run for a byte. -/
theorem serialFold_acc_injective {p a a' : Word} (hp : p.getLsbD 0 = true) {b : Byte} (h : serialFold p a b = serialFold p a' b) :
    a = a' := by
  have hdiff : serialFold p (a ^^^ a') 0 = 0 := by
    rw [show (0 : Byte) = b ^^^ b from BitVec.xor_self.symm, serialFold_xor, h]
    exact BitVec.xor_self
  exact BitVec.xor_eq_zero_iff.mp (eq_zero_of_shiftRounds_eq_zero hp 8 _ hdiff)

/-- Different bytes have different entries: entry `d` is also what a run without data makes of an accumulator that holds `d` in its high byte, and no bits of that accumulator are lost. -/
theorem buildEntry_injective {p : Word} (hp : p.getLsbD 0 = true) {b c : Byte} (h : buildEntry p b = buildEntry p c) : b = c := by
  have hrun : ∀ d : Byte, serialFold p (joinBytes d 0) 0 = buildEntry p d ^^^ joinBytes d 0 <<< 8 := fun d => by
    rw [← serialFold_hiByte p, hiByte_joinBytes, buildEntry, ← serialFold_xor, BitVec.xor_self]
    exact congrArg (serialFold p · 0) BitVec.zero_xor.symm
  have hout : ∀ d : Byte, joinBytes d 0 <<< 8 = 0 := fun d => by
    apply BitVec.eq_of_toNat_eq
    rw [BitVec.toNat_shiftLeft, joinBytes_toNat, Nat.shiftLeft_eq]
    show (d.toNat * 256 + 0) * 2 ^ 8 % 2 ^ 16 = 0
    omega
  have hjoin : joinBytes b 0 = joinBytes c 0 := serialFold_acc_injective hp (b := 0) (by rw [hrun, hrun, hout, hout, h])
  simpa using congrArg hiByte hjoin

/-- Neither is anything lost in the fold of a byte sequence. -/
theorem foldBytes_acc_injective {p : Word} (hp : p.getLsbD 0 = true) (bytes : List Byte) :
    ∀ a a' : Word, foldBytes (buildEntry p) a bytes = foldBytes (buildEntry p) a' bytes → a = a' := by
  induction bytes with
  | nil => exact fun a a' h => h
  | cons b bytes ih =>
    intro a a' h
    have hfirst := ih _ _ h
    simp only [foldByte_buildEntry] at hfirst
    exact serialFold_acc_injective hp hfirst

/-- From one accumulator different bytes fold to different ones. -/
theorem foldByte_byte_injective {p acc : Word} (hp : p.getLsbD 0 = true) {b c : Byte}
    (h : foldByte (buildEntry p) acc b = foldByte (buildEntry p) acc c) : b = c :=
  (BitVec.xor_right_inj _).mp (buildEntry_injective hp ((BitVec.xor_right_inj _).mp h))

end Sys2Proof.Machine
end

section
/-! The statement of the single changed byte, settled. -/

namespace Sys2Proof.Machine

/-- Settles O24: the changed byte leaves a different accumulator, and the bytes after it keep the difference; 0x1021 has the constant term this asks for. -/
theorem singleByteChangeChangesTheChecksum : Obligations.SingleByteChangeChangesTheChecksum := by
  intro s hpoly
  refine ⟨_, rfl, fun before after b c hbc h => hbc ?_⟩
  have hodd : (0x1021#16).getLsbD 0 = true := by decide
  rw [table_init, hpoly, foldBytes_append, foldBytes_append] at h
  exact foldByte_byte_injective hodd (foldBytes_acc_injective hodd after _ _ h)

end Sys2Proof.Machine
end

section
/-! SUPPORT. The frame BUILD leaves: its bytes as numbers and as lists, SEQ and TXLEN as numbers, and what a rejected BUILD leaves (spec/41_framer.md R111 to R115). -/

namespace Sys2Proof.Machine

open Sys2Proof.Statement

theorem payloadLen_eq_len9 (s : State) : s.payloadLen = len9 (s.reg .plen) := payloadLen_eq s

/-- The statements' STATUS with a result code is the model's. -/
theorem setErr_eq_statusWith (s : State) (c : BitVec 4) : setErr (s.reg .status) c = statusWith s c := rfl

/-! ### The rejected BUILD -/

/-- What access type 0 leaves: SEQ advanced, ERR = 1, and all else as it was (spec/41_framer.md R113). -/
theorem exec_build_unused {s : State} (h : s.hasSession = true) :
    ∃ t, exec (.build .unused) s = .next t ∧ (t.reg .seq).toNat = ((s.reg .seq).toNat + 1) % 16
      ∧ t.reg .status = statusWith s 1 ∧ OnlyRegs [.seq, .status] s t := by
  refine ⟨_, execBuild_unused h, ?_, ?_, ?_⟩
  · rw [← advanceSeq_toNat]; simp
  · rw [← setErr_eq_statusWith]; simp [ResultCode.code]
  · have hframe : BlockOnly [.seq, .status] s (finish .invalidAccessType s.advanceSeq) :=
      blockOnly_setReg (blockOnly_setReg (blockOnly_refl _ s) (by decide) _) (by decide) _
    exact ⟨hframe, by simp, by simp⟩

/-- A legal BUILD in a session ends in `builtState`. -/
theorem exec_build_of_session {s : State} (h : s.hasSession = true) {ty : AccessType} (hty : ty ≠ .unused) :
    exec (.build ty) s = .next (builtState ty s) := execBuild_of_session h hty

/-! ### Registers and table of the built state -/

theorem built_seq_toNat (s : State) (ty : AccessType) :
    ((builtState ty s).reg .seq).toNat = ((s.reg .seq).toNat + 1) % 16 := by
  rw [← advanceSeq_toNat, built_reg, advanceSeq_reg, if_pos rfl]

theorem built_txlen (s : State) (ty : AccessType) :
    (builtState ty s).reg .txlen = if s.payloadLen = 0 then 8 else BitVec.ofNat 16 (10 + s.payloadLen) :=
  built_reg s ty .txlen

theorem built_txlen_toNat (s : State) (ty : AccessType) :
    ((builtState ty s).reg .txlen).toNat = if s.payloadLen = 0 then 8 else 10 + s.payloadLen := by
  rw [built_txlen, apply_ite BitVec.toNat, txlen_toNat]
  rfl

theorem built_hcsum (s : State) (ty : AccessType) : (builtState ty s).reg .hcsum = s.checksum (newHeader s ty) :=
  built_reg s ty .hcsum

theorem built_pcsum (s : State) (ty : AccessType) :
    (builtState ty s).reg .pcsum = if s.payloadLen = 0 then s.reg .pcsum else s.checksum s.payload :=
  built_reg s ty .pcsum

theorem built_status (s : State) (ty : AccessType) : (builtState ty s).reg .status = statusWith s 0 := built_reg s ty .status

@[simp] theorem built_table (s : State) (ty : AccessType) : (builtState ty s).table = s.table := by
  obtain ⟨htbl, -, -, -, -, hresets⟩ := built_rest s ty
  funext b
  simp only [State.table, State.tblAt, htbl, hresets]

@[simp] theorem built_hasSession (s : State) (ty : AccessType) : (builtState ty s).hasSession = s.hasSession := by
  simp [State.hasSession, built_reg]

/-! ### The header -/

theorem wordCount_toNat (s : State) (ty : AccessType) :
    (s.wordCount ty).toNat = (if ty = .read then len9 (s.reg .rlen) else len9 (s.reg .plen)) / 2 := by
  cases ty <;> exact halfLen_toNat _

/-- `TX[0..7]` of a built frame: the fields and then their checksum (spec/41_framer.md R112). -/
theorem txHeader_built (s : State) (ty : AccessType) :
    txHeader (builtState ty s) = newHeader s ty ++ bigEndian (s.checksum (newHeader s ty)) := by
  refine List.ext_getElem rfl fun j hj hj' => ?_
  have h8 : j < 8 := hj'
  simp [txHeader, built_tx, h8, List.getElem?_eq_getElem hj']

/-- Each byte of the header (spec/41_framer.md R112, h0 to h5 and c). -/
theorem built_tx_header (s : State) (ty : AccessType) :
    (builtState ty s).byteAt .tx 0 = startMarker ∧ (builtState ty s).byteAt .tx 1 = loByte (s.reg .dest)
      ∧ (builtState ty s).byteAt .tx 2 = controlByte Config.ctrlLayout (s.seqField + 1) ty.code
      ∧ (builtState ty s).byteAt .tx 3 = loByte (s.reg .index) ∧ (builtState ty s).byteAt .tx 4 = loByte (s.reg .offset)
      ∧ (builtState ty s).byteAt .tx 5 = s.wordCount ty
      ∧ (builtState ty s).byteAt .tx 6 = hiByte ((builtState ty s).reg .hcsum)
      ∧ (builtState ty s).byteAt .tx 7 = loByte ((builtState ty s).reg .hcsum) := by
  rw [built_hcsum]
  exact ⟨built_tx s ty 0, built_tx s ty 1, built_tx s ty 2, built_tx s ty 3, built_tx s ty 4, built_tx s ty 5, built_tx s ty 6,
    built_tx s ty 7⟩

/-- HCSUM stands in bytes 6 and 7 (spec/41_framer.md R117 (d)). -/
theorem joinBytes_built_tx (s : State) (ty : AccessType) :
    joinBytes ((builtState ty s).byteAt .tx 6) ((builtState ty s).byteAt .tx 7) = (builtState ty s).reg .hcsum := by
  obtain ⟨-, -, -, -, -, -, hhi, hlo⟩ := built_tx_header s ty
  rw [hhi, hlo, joinBytes_hi_lo]

/-- The bytes the header checksum covers. -/
theorem headerFields_built (s : State) (ty : AccessType) : (List.range 6).map ((builtState ty s).byteAt .tx) = newHeader s ty := by
  have htake : (List.range 6).map ((builtState ty s).byteAt .tx) = (txHeader (builtState ty s)).take 6 := rfl
  rw [htake, txHeader_built]; rfl

/-- The header carries the advanced SEQ (spec/41_framer.md R111). -/
theorem built_control_toNat (s : State) (ty : AccessType) :
    ((builtState ty s).byteAt .tx 2).toNat = ((s.reg .seq).toNat + 1) % 16 * 4 + ty.code.toNat := by
  obtain ⟨-, -, hcontrol, -⟩ := built_tx_header s ty
  rw [hcontrol, Config.ctrlLayout, controlByte_toNat, ← seqField_advanceSeq, seqField_toNat, advanceSeq_toNat, Nat.mod_mod]

/-- The control byte's fields (spec/41_framer.md R117 (c)). -/
theorem built_control_fields (s : State) (ty : AccessType) :
    ((builtState ty s).byteAt .tx 2).toNat % 4 = ty.code.toNat
      ∧ ((builtState ty s).byteAt .tx 2).toNat / 4 % 16 = ((builtState ty s).reg .seq).toNat % 16
      ∧ ((builtState ty s).byteAt .tx 2).toNat / 64 = 0 := by
  have hcode := ty.code.isLt
  rw [built_control_toNat, built_seq_toNat]
  omega

/-! ### The payload -/

/-- The model's payload checksum is the statements'. -/
theorem checksum_payload (s : State) :
    s.checksum s.payload = foldBytes s.table 0 ((List.range (len9 (s.reg .plen))).map (s.byteAt .pay)) := by
  rw [payload_eq, payloadLen_eq_len9]; rfl

section
variable {s : State} (hn : s.payloadLen ≠ 0)
include hn

/-- A byte behind the header of a frame with a payload. -/
theorem built_tx_payload (ty : AccessType) {i : Nat} (hi : i < s.payloadLen + 2) :
    (builtState ty s).byteAt .tx (8 + i) = (s.payload ++ bigEndian (s.checksum s.payload)).getD i 0 := by
  rw [built_tx, if_neg (by omega), if_pos ⟨hn, by omega⟩, Nat.add_sub_cancel_left]

/-- What follows the header: the payload and then its checksum. -/
theorem txPayload_built (ty : AccessType) :
    (List.range (s.payloadLen + 2)).map (fun i => (builtState ty s).byteAt .tx (8 + i)) = s.payload ++ bigEndian (s.checksum s.payload) := by
  refine List.ext_getElem (by simp [bigEndian]) fun i hi hi' => ?_
  have hlt : i < s.payloadLen + 2 := by simpa using hi
  rw [List.getElem_map, List.getElem_range, built_tx_payload hn ty hlt, List.getD_eq_getElem _ _ hi']

/-- The payload's own bytes. -/
theorem built_tx_payload_byte (ty : AccessType) {i : Nat} (hi : i < s.payloadLen) :
    (builtState ty s).byteAt .tx (8 + i) = s.byteAt .pay i := by
  rw [built_tx_payload hn ty (by omega), List.getD_append _ _ _ _ (by simpa using hi), payload_eq,
    List.getD_eq_getElem _ _ (by simpa using hi)]
  simp

/-- The checksum's two bytes, high byte first. -/
theorem built_tx_payload_checksum (ty : AccessType) :
    (builtState ty s).byteAt .tx (8 + s.payloadLen) = hiByte (s.checksum s.payload)
      ∧ (builtState ty s).byteAt .tx (9 + s.payloadLen) = loByte (s.checksum s.payload) := by
  rw [show 9 + s.payloadLen = 8 + (s.payloadLen + 1) by omega, built_tx_payload hn ty (by omega), built_tx_payload hn ty (by omega)]
  rw [List.getD_append_right _ _ _ _ (by simp), List.getD_append_right _ _ _ _ (by simp)]
  simp [bigEndian]

end

/-- Beyond the frame TX keeps what it had (spec/41_framer.md R115 (h)). -/
theorem built_tx_beyond (s : State) (ty : AccessType) {i : Nat} (hi : ((builtState ty s).reg .txlen).toNat ≤ i) :
    (builtState ty s).byteAt .tx i = s.byteAt .tx i := by
  rw [built_txlen_toNat] at hi
  rw [built_tx]
  by_cases hn : s.payloadLen = 0
  · rw [if_pos hn] at hi
    rw [if_neg (by omega), if_neg fun h => h.1 hn]
  · rw [if_neg hn] at hi
    rw [if_neg (by omega), if_neg (by omega)]

end Sys2Proof.Machine
end

section
/-! SUPPORT. The built header fed back through RX and PARSE (spec/41_framer.md R117 (e)), and SEQ under a run of BUILDs (R111). -/

namespace Sys2Proof.Machine

open Sys2Proof.Statement

/-! ### RXHDR -/

/-- A sequence with its own checksum behind it folds to zero (spec/40_checksum.md R95 (d)). -/
theorem foldBytes_checksummed {T : Byte → Word} (hT : T 0#8 = 0#16) (bytes : List Byte) :
    foldBytes T 0 (bytes ++ bigEndian (foldBytes T 0 bytes)) = 0 := by
  rw [foldBytes_append, foldBytes_bigEndian hT]

theorem runEvents_singleton (e : HostEvent) (s : State) : runEvents [e] s = access e s := by
  rw [runEvents_cons]
  cases access e s <;> rfl

/-- Consecutive bytes the host writes to a buffer are in it, and but for the reply nothing else changes. -/
theorem runEvents_asmWB {sp : ByteSpace} (hw : hostWritable sp = true) (bytes : List Byte) :
    ∀ (i : Nat) (s : State), i + bytes.length ≤ sp.size →
      ∃ x, runEvents (asmWB sp i bytes) s = .next ((s.setBytes sp (Memory.writeList (s.bytes sp) i bytes)).setReply x) := by
  induction bytes with
  | nil => exact fun i s _ => ⟨s.reply, by cases sp <;> rfl⟩
  | cons b bytes ih =>
    intro i s hsize
    rw [List.length_cons] at hsize
    obtain ⟨x, hrest⟩ := ih (i + 1) ((s.setReply none).setBytes sp (Memory.write (s.bytes sp) i b)) (by omega)
    refine ⟨x, ?_⟩
    have hfirst := access_byteWrite_of_writable (sp := sp) (i := i) (by omega) hw b s
    calc runEvents (asmWB sp i (b :: bytes)) s
        = andThen (access (.byteWrite sp i b) s) (runEvents (asmWB sp (i + 1) bytes)) := rfl
      _ = runEvents (asmWB sp (i + 1) bytes) ((s.setReply none).setBytes sp (Memory.write (s.bytes sp) i b)) := by
        rw [hfirst, andThen_next]
      _ = .next ((s.setBytes sp (Memory.writeList (s.bytes sp) i (b :: bytes))).setReply x) := by
        rw [hrest]; cases sp <;> rfl

/-- RXHDR is PARSE in a state with the given header in RX, STATUS and the table being as they were. -/
theorem runEvents_asmRxhdr (s : State) {bytes : List Byte} (hlen : bytes.length = 8) :
    ∃ v, runEvents (asmRxhdr bytes) s = exec .parse v ∧ (∀ j < 8, v.byteAt .rx j = bytes.getD j 0)
      ∧ v.reg .status = s.reg .status ∧ v.table = s.table := by
  obtain ⟨x, hload⟩ := runEvents_asmWB (sp := .rx) rfl bytes 0 s (by rw [hlen]; decide)
  have hrun : runEvents (asmRxhdr bytes) s = exec .parse ((((s.setBytes .rx (Memory.writeList (s.bytes .rx) 0 bytes)).setReply x).setReply
      none).setReg .cmd (encode .parse)) := by
    rw [asmRxhdr, runEvents_append, hload, andThen_next, runEvents_singleton, access_asmOp]
  refine ⟨_, hrun, fun j hj => ?_, by simp, by simp⟩
  simp [Memory.read?_writeList, hlen, hj]

/-- RXHDR of a header whose checksum is right succeeds, and the result registers hold its fields (spec/42_parser.md R126). -/
theorem runEvents_asmRxhdr_of_checksum {s : State} (h : s.hasSession = true) {bytes : List Byte} (hlen : bytes.length = 8)
    (hsum : s.checksum (bytes.take 6) = joinBytes (bytes.getD 6 0) (bytes.getD 7 0)) :
    ∃ u, runEvents (asmRxhdr bytes) s = .next u ∧ u.reg .status = statusWith s 0
      ∧ u.reg .rhdrA = joinBytes (bytes.getD 0 0) (bytes.getD 1 0)
      ∧ u.reg .rhdrC = splitControl Config.ctrlLayout (bytes.getD 2 0)
      ∧ u.reg .rhdrS = joinBytes (bytes.getD 3 0) (bytes.getD 4 0)
      ∧ u.reg .rhdrL = (bytes.getD 5 0).zeroExtend 16
      ∧ u.reg .rhdrK = joinBytes (bytes.getD 6 0) (bytes.getD 7 0)
      ∧ u.reg .hcsum = s.checksum (bytes.take 6) := by
  obtain ⟨v, hrun, hbyte, hstatus, htable⟩ := runEvents_asmRxhdr s hlen
  have hv : v.hasSession = true := by rwa [State.hasSession, hstatus]
  have hheader : v.responseHeader = bytes.take 6 := by
    refine List.ext_getElem (by simp [State.responseHeader, hlen]) fun j hj hj' => ?_
    have h6 : j < 6 := by simpa [State.responseHeader] using hj
    simp [responseHeader_eq, hbyte j (by omega), List.getElem?_eq_getElem (show j < bytes.length by omega)]
  have hfold : v.checksum v.responseHeader = s.checksum (bytes.take 6) := by
    rw [hheader, State.checksum, htable]; rfl
  have hok : v.checksum v.responseHeader = joinBytes (v.byteAt .rx 6) (v.byteAt .rx 7) := by
    rw [hfold, hsum, hbyte 6 (by decide), hbyte 7 (by decide)]
  have hparse : exec .parse v = .next (finish .ok (extractHeader v)) := 
    (execParse_of_session hv).trans (by rw [if_pos hok])
  refine ⟨_, hrun.trans hparse, ?_⟩
  simp [extractHeader_reg, hbyte, hfold, hstatus, ← setErr_eq_statusWith, ResultCode.code]

/-! ### The control byte split -/

/-- A concatenation as a number. -/
theorem toNat_append_eq_add {m n : Nat} (x : BitVec m) (y : BitVec n) : (x ++ y).toNat = x.toNat * 2 ^ n + y.toNat := by
  rw [BitVec.toNat_append, ← Nat.shiftLeft_add_eq_or_of_lt y.isLt, Nat.shiftLeft_eq]

/-- RHDR_C's fields as numbers (spec/10_state.md R28, spec/30_encoding.md R64). -/
theorem splitControl_toNat (c : Byte) :
    (splitControl Config.ctrlLayout c).toNat % 256 = c.toNat
      ∧ (splitControl Config.ctrlLayout c).toNat / 256 % 4 = c.toNat % 4
      ∧ (splitControl Config.ctrlLayout c).toNat / 1024 % 16 = c.toNat / 4 % 16
      ∧ (splitControl Config.ctrlLayout c).toNat / 16384 = c.toNat / 64 := by
  have hfields : ∀ rsv seq ty raw : Nat, seq < 16 → ty < 4 → raw < 256 → ∀ n, n = rsv * 16384 + (seq * 1024 + (ty * 256 + raw)) →
      n % 256 = raw ∧ n / 256 % 4 = ty ∧ n / 1024 % 16 = seq ∧ n / 16384 = rsv := by omega
  have hrsv : c.toNat / 64 % 4 = c.toNat / 64 := Nat.mod_eq_of_lt (by omega)
  refine hfields _ _ _ _ (by omega) (by omega) c.isLt _ ?_
  simp only [splitControl, Config.ctrlLayout, controlReserved, controlSeq, controlAccess]
  rw [toNat_append_eq_add, toNat_append_eq_add, toNat_append_eq_add, ← hrsv]
  simp [BitVec.extractLsb'_toNat, Nat.shiftRight_eq_div_pow]

/-! ### SEQ under BUILDs -/

/-- An operation keeps the session. -/
theorem exec_keeps_session {i : Instr} {s t : State} (h : exec i s = .next t) (hs : s.hasSession = true) : t.hasSession = true :=
  (exec_keeps State.hasSession h hasSession_finish (by rw [hasSession_workOf, hs, Bool.true_or])).trans hs

/-- Every BUILD in a session, also a rejected one, advances SEQ, keeps the session, and puts the new SEQ in the frame it builds. -/
theorem exec_build_seq {s : State} (h : s.hasSession = true) (ty : AccessType) :
    ∃ t, exec (.build ty) s = .next t ∧ t.hasSession = true ∧ (t.reg .seq).toNat = ((s.reg .seq).toNat + 1) % 16
      ∧ (ty ≠ .unused → (t.byteAt .tx 2).toNat / 4 % 16 = ((s.reg .seq).toNat + 1) % 16) := by
  by_cases hty : ty = .unused
  · subst hty
    obtain ⟨t, ht, hseq, -⟩ := exec_build_unused h
    exact ⟨t, ht, exec_keeps_session ht h, hseq, fun hne => absurd rfl hne⟩
  · obtain ⟨-, hfield, -⟩ := built_control_fields s ty
    rw [built_seq_toNat, Nat.mod_mod] at hfield
    exact ⟨_, exec_build_of_session h hty, by rwa [built_hasSession], built_seq_toNat s ty, fun _ => hfield⟩

/-- The same of a BUILD as a host access. -/
theorem access_build_seq {s : State} (h : s.hasSession = true) (ty : AccessType) :
    ∃ t, access (asmOp (.build ty)) s = .next t ∧ t.hasSession = true ∧ (t.reg .seq).toNat = ((s.reg .seq).toNat + 1) % 16
      ∧ (ty ≠ .unused → (t.byteAt .tx 2).toNat / 4 % 16 = ((s.reg .seq).toNat + 1) % 16) := by
  rw [access_asmOp]
  simpa using exec_build_seq (s := (s.setReply none).setReg .cmd (encode (.build ty))) (by simpa [State.hasSession] using h) ty

/-- A run of BUILDs advances SEQ once for each (spec/41_framer.md R111). -/
theorem runEvents_builds_seq (tys : List AccessType) :
    ∀ {s : State}, s.hasSession = true → ∀ ty, ∃ t, runEvents ((ty :: tys).map fun ty => asmOp (.build ty)) s = .next t
      ∧ (t.reg .seq).toNat = ((s.reg .seq).toNat + (tys.length + 1)) % 16 := by
  induction tys with
  | nil =>
    intro s h ty
    obtain ⟨t, ht, -, hseq, -⟩ := access_build_seq h ty
    exact ⟨t, by rw [List.map_singleton, runEvents_singleton, ht], hseq⟩
  | cons ty' tys ih =>
    intro s h ty
    obtain ⟨u, hu, hsession, hseq, -⟩ := access_build_seq h ty
    obtain ⟨t, ht, hlast⟩ := ih hsession ty'
    refine ⟨t, by rw [List.map_cons, runEvents_cons, hu, andThen_next, ht], ?_⟩
    rw [hlast, hseq, List.length_cons]
    omega

end Sys2Proof.Machine
end

section
/-! The statements of the framer, settled. -/

namespace Sys2Proof.Machine

open Sys2Proof.Statement

/-- Settles O27: the rejection comes after SEQ has advanced and before anything is built. -/
theorem buildRejectsAccessTypeZero : Obligations.BuildRejectsAccessTypeZero := fun _ h => exec_build_unused h

/-- Settles O26: what one BUILD does to SEQ, by induction over a run of them; INIT leaves SEQ 0 for the first. -/
theorem sequenceCounterCycles : Obligations.SequenceCounterCycles := by
  refine ⟨fun s ty h => ?_, fun s ty h => ⟨_, exec_of_noSession nofun h, by simp⟩, fun s tys h hne => ?_, fun s ty => ?_,
    fun s i hinit hbuild => ?_⟩
  · obtain ⟨t, ht, -, hseq⟩ := exec_build_seq h ty
    exact ⟨t, ht, hseq⟩
  · obtain ⟨ty, tys, rfl⟩ := List.exists_cons_of_ne_nil hne
    exact runEvents_builds_seq tys h ty
  · have hinit : access (asmOp .init) s = .next (finish .ok (createSession ((s.setReply none).setReg .cmd (encode .init)))) :=
      access_asmOp .init s
    obtain ⟨t, ht, -, hseq, hcontrol⟩ := access_build_seq
      (s := finish .ok (createSession ((s.setReply none).setReg .cmd (encode .init)))) (by simp [State.hasSession, createSession]) ty
    rw [init_reg] at hseq hcontrol
    exact ⟨t, by rw [runEvents_cons, hinit, andThen_next, runEvents_singleton, ht], BitVec.eq_of_toNat_eq hseq, hcontrol⟩
  · obtain ⟨t, ht⟩ := exec_answers i s
    have hseq : Reg.seq ∉ regsWritten i := by cases i <;> simp_all [regsWritten]
    exact ⟨t, ht, exec_reg_of_not_written ht hseq⟩

/-- Settles O28: the built state byte by byte, from the header's and the payload's bytes as lists. -/
theorem buildWritesTheFrame : Obligations.BuildWritesTheFrame := by
  refine ⟨fun s ty h => ?_, fun s h => exec_build_unused h, fun s ty h hty => ?_⟩
  · refine ⟨_, exec_of_noSession nofun h, by rw [← setErr_eq_statusWith]; simp [ResultCode.code], ?_, by simp, by simp⟩
    exact blockOnly_setReg (blockOnly_refl _ s) (List.mem_singleton_self _) _
  · obtain ⟨hmarker, hdest, -, hindex, hoffset, hwords, hsumHi, hsumLo⟩ := built_tx_header s ty
    rw [← payloadLen_eq_len9]
    refine ⟨_, exec_build_of_session h hty, built_seq_toNat s ty, hmarker, by rw [hdest, loByte_toNat], built_control_toNat s ty,
      by rw [hindex, loByte_toNat], by rw [hoffset, loByte_toNat], by rw [hwords, wordCount_toNat, payloadLen_eq_len9], ?_,
      by rw [hsumHi, hiByte_toNat], by rw [hsumLo, loByte_toNat], fun hn => ?_, fun hn => ?_, built_status s ty, fun r hr => ?_,
      fun i hi => built_tx_beyond s ty hi, built_rest s ty⟩
    · rw [headerFields_built, built_hcsum]; rfl
    · exact ⟨(built_txlen s ty).trans (if_pos hn), (built_pcsum s ty).trans (if_pos hn)⟩
    · obtain ⟨hhi, hlo⟩ := built_tx_payload_checksum hn ty
      have hpcsum := (built_pcsum s ty).trans (if_neg hn)
      refine ⟨by rw [built_txlen_toNat, if_neg hn], fun i hi => built_tx_payload_byte hn ty hi, ?_, ?_, ?_⟩
      · rw [hpcsum, checksum_payload, payloadLen_eq_len9]
      · rw [hhi, hiByte_toNat, hpcsum]
      · rw [hlo, loByte_toNat, hpcsum]
    · exact exec_reg_of_not_written (exec_build_of_session h hty) hr

/-- Settles O29: header and payload each stand in TX with their own checksum behind them, and RXHDR of such a header succeeds. -/
theorem builtFrameChecksOut : Obligations.BuiltFrameChecksOut := by
  intro s ty p h htbl hty
  have hzero : s.table 0#8 = 0#16 := (table_of_built htbl 0).trans (buildEntry_zero p)
  have hheader := txHeader_built s ty
  obtain ⟨hat, hsq, hrsv⟩ := built_control_fields s ty
  have hjoin := joinBytes_built_tx s ty
  have hsum : (builtState ty s).checksum ((txHeader (builtState ty s)).take 6) = (builtState ty s).reg .hcsum := by
    rw [State.checksum, built_table, hheader, built_hcsum]; rfl
  refine ⟨_, exec_build_of_session h hty, ?_, fun hn => ?_, hat, hsq, hrsv, hjoin, ?_⟩
  · rw [built_table, hheader]; exact foldBytes_checksummed hzero _
  · rw [← payloadLen_eq_len9] at hn ⊢
    rw [built_table, txPayload_built hn]; exact foldBytes_checksummed hzero _
  obtain ⟨u, hrun, hstatus, hA, hC, hS, hL, hK, hhcsum⟩ := runEvents_asmRxhdr_of_checksum (s := builtState ty s)
    (by rwa [built_hasSession]) (bytes := txHeader (builtState ty s)) rfl (hsum.trans hjoin.symm)
  obtain ⟨hraw, hCat, hCsq, hCrsv⟩ := splitControl_toNat ((builtState ty s).byteAt .tx 2)
  have hC : u.reg .rhdrC = splitControl Config.ctrlLayout ((builtState ty s).byteAt .tx 2) := hC
  rw [← hC] at hraw hCat hCsq hCrsv
  refine ⟨u, hrun, hstatus, hA, hraw, hCat.trans hat, hCsq.trans hsq, hCrsv.trans hrsv, hS, ?_, hK.trans hjoin, hhcsum.trans hsum⟩
  exact (congrArg BitVec.toNat hL).trans (BitVec.toNat_setWidth_of_le (by decide))

/-- Settles O30: the header's bytes see only half of PLEN, the payload's only the payload, and each checksum only its own bytes. -/
theorem buildChecksumsAreIndependent : Obligations.BuildChecksumsAreIndependent := by
  refine ⟨fun s s' ty h hty hregs htable hlen => ?_, fun s s' ty ty' h h' hty hty' htable hlen hn hpay => ?_⟩
  · have h' : s'.hasSession = true := by rwa [State.hasSession, hregs .status nofun]
    have hwords : s'.wordCount ty = s.wordCount ty := by
      apply BitVec.eq_of_toNat_eq
      rw [wordCount_toNat, wordCount_toNat, hregs .rlen nofun]
      split
      · rfl
      · exact hlen ‹_›
    have hheader : newHeader s' ty = newHeader s ty := by
      simp only [newHeader, State.seqField, hwords, hregs .dest nofun, hregs .seq nofun, hregs .index nofun, hregs .offset nofun]
    have hsum : s'.checksum (newHeader s ty) = s.checksum (newHeader s ty) := by rw [State.checksum, htable]; rfl
    refine ⟨_, _, exec_build_of_session h hty, exec_build_of_session h' hty, ?_, ?_⟩
    · rw [txHeader_built, txHeader_built, hheader, hsum]
    · rw [built_hcsum, built_hcsum, hheader, hsum]
  · refine ⟨_, _, exec_build_of_session h hty, exec_build_of_session h' hty', ?_⟩
    have hn' : len9 (s'.reg .plen) ≠ 0 := hlen ▸ hn
    rw [← payloadLen_eq_len9] at hn hn'
    rw [built_pcsum, built_pcsum, if_neg hn, if_neg hn', checksum_payload, checksum_payload, htable, hlen]
    rw [List.map_congr_left fun i hi => hpay i (List.mem_range.mp hi)]

end Sys2Proof.Machine
end

section
/-! SUPPORT. PARSE and PCHK in a session, and without: registers, result code and frame of an operation as equations on its outcome, and why an operation that reads no register it writes is idempotent (spec/42_parser.md R126, R131). -/

namespace Sys2Proof.Machine

open Sys2Proof.Statement

/-! ### The outcome of an operation -/

/-- STATUS with one result code differs from STATUS with another. -/
theorem statusWith_inj {s : State} {c d : BitVec 4} : statusWith s c = statusWith s d ↔ c = d := by
  refine ⟨fun h => ?_, congrArg _⟩
  rw [← setErr_eq_statusWith, ← setErr_eq_statusWith] at h
  simpa using congrArg errField h

/-- Only `ok` has the number 0 (spec/60_exceptions.md R170). -/
theorem code_eq_zero_iff (c : ResultCode) : c.code = 0 ↔ c = .ok := by cases c <;> decide

/-- Without a session an operation but INIT sets ERR to 13, and all else is as it was (spec/60_exceptions.md R171). -/
theorem exec_of_noSession_frame {i : Instr} {s : State} (hi : i ≠ .init) (h : s.hasSession = false) :
    ∃ t, exec i s = .next t ∧ t.reg .status = statusWith s 13 ∧ OnlyRegs [.status] s t := by
  refine ⟨_, exec_of_noSession hi h, by rw [← setErr_eq_statusWith]; simp [ResultCode.code], ?_, by simp, by simp⟩
  exact blockOnly_setReg (blockOnly_refl _ s) (List.mem_singleton_self _) _

section
variable {i : Instr} {s t : State} (hs : s.hasSession = true) (h : exec i s = .next t)
include hs h

/-- In a session a register but STATUS is what the operation's work leaves. -/
theorem exec_reg_of_session {r : Reg} (hr : r ≠ .status) : t.reg r = (workOf i s).reg r := by
  rw [exec_eq_finish_workOf (.inr hs)] at h
  cases h
  simp [hr]

/-- In a session STATUS has the operation's code. -/
theorem exec_status_of_session (hi : i ≠ .init) : t.reg .status = statusWith s (codeOf i s).code := by
  rw [exec_eq_finish_workOf (.inr hs)] at h
  cases h
  rw [← setErr_eq_statusWith]
  simp [workOf_status, hi]

theorem exec_succeeds_iff (hi : i ≠ .init) : t.reg .status = statusWith s 0 ↔ codeOf i s = .ok := by
  rw [exec_status_of_session hs h hi, statusWith_inj, code_eq_zero_iff]

end

/-! ### Idempotence -/

/-- Where nothing differs but what an operation may write, and it reads none of that, it finds the same operands. -/
theorem ReadsAgree.of_onlyRegs {i : Instr} {s t : State} (hframe : OnlyRegs (regsWritten i) s t)
    (hread : ∀ r ∈ regsRead i, r ∉ regsWritten i) (hsession : t.hasSession = s.hasSession) : ReadsAgree i s t := by
  obtain ⟨⟨hregs, htbl, hbytes, hresets⟩, -⟩ := hframe
  exact ⟨hsession, fun r hr => hregs r (hread r hr), fun k _ => by simp [State.tblAt, htbl, hresets],
    fun _ k _ => by simp [State.byteAt, hbytes, hresets], fun _ k _ => by simp [State.byteAt, hbytes, hresets]⟩

/-- An operation in a session that reads no register it writes, and is not INIT, is idempotent: run again it finds the same operands, so its work leaves the same values and its code is the same. -/
theorem exec_idempotent {i : Instr} {s t : State} (hs : s.hasSession = true) (hi : i ≠ .init)
    (hread : ∀ r ∈ regsRead i, r ∉ regsWritten i) (h : exec i s = .next t) : exec i t = .next t := by
  have hbuild : ∀ ty, i ≠ .build ty := by
    rintro ty rfl
    exact hread .seq (by simp [regsRead]) (by simp [regsWritten])
  have ht := exec_keeps_session h hs
  have hagree := ReadsAgree.of_onlyRegs (exec_onlyRegs h hi hbuild) hread (ht.trans hs.symm)
  obtain ⟨u, hu⟩ := exec_answers i t
  obtain ⟨⟨-, htbl, hbytes, hresets⟩, hpending, hreply⟩ := exec_onlyRegs hu hi hbuild
  have hregs : ∀ r, u.reg r = t.reg r := by
    intro r
    by_cases hr : r = .status
    · subst hr
      have hstatus := exec_status_of_session hs h hi
      rw [exec_status_of_session ht hu hi, hagree.codeOf, ← setErr_eq_statusWith, hstatus, ← setErr_eq_statusWith, setErr_setErr]
    · have htr := exec_reg_of_session hs h hr
      rw [exec_reg_of_session ht hu hr]
      obtain hsame | ⟨-, hkept⟩ := hagree.workOf_reg hr
      · exact hsame.trans htr.symm
      · exact hkept
  rw [hu, State.ext_regs hregs htbl hbytes hpending hreply hresets]

/-! ### PARSE -/

theorem joinBytes_eq_zero_iff (a b : Byte) : joinBytes a b = 0 ↔ a = 0 ∧ b = 0 := by
  refine ⟨fun h => ⟨?_, ?_⟩, fun ⟨ha, hb⟩ => by rw [ha, hb]; rfl⟩
  · rw [← hiByte_joinBytes a b, h]; rfl
  · rw [← loByte_joinBytes a b, h]; rfl

/-- The extracted header is the fields of RX as numbers (spec/42_parser.md R126). -/
theorem headerSplit_of_extractHeader {s t : State} (h : ∀ r, r ≠ .status → t.reg r = (extractHeader s).reg r) : HeaderSplit s t := by
  obtain ⟨hraw, hat, hseq, hrsv⟩ := splitControl_toNat (s.byteAt .rx 2)
  simp only [HeaderSplit, h .rhdrA nofun, h .rhdrC nofun, h .rhdrS nofun, h .rhdrL nofun, h .rhdrK nofun, h .hcsum nofun,
    extractHeader_reg, joinBytes_toNat]
  refine ⟨trivial, hraw, hat, hseq, hrsv, trivial, BitVec.toNat_setWidth_of_le (by decide), trivial, ?_⟩
  rw [responseHeader_eq]; rfl

theorem codeOf_parse_eq_ok_iff (s : State) :
    codeOf .parse s = .ok ↔ s.checksum s.responseHeader = joinBytes (s.byteAt .rx 6) (s.byteAt .rx 7) := by
  simp [codeOf]

/-! ### PCHK -/

theorem codeOf_pchk_eq_ok_iff (s : State) : codeOf .pchk s = .ok ↔ s.checksum s.payload = s.reg .trailer := by
  simp [codeOf]

/-- PCSUM is written whatever the comparison gives (spec/42_parser.md R131). -/
theorem exec_pchk_pcsum {s t : State} (hs : s.hasSession = true) (h : exec .pchk s = .next t) :
    t.reg .pcsum = s.checksum s.payload := by
  rw [exec_reg_of_session hs h (by decide)]
  simp [workOf]

/-- Only a write of PLEN can change which bytes of PAY are the payload. -/
@[simp] theorem payload_setReg {r : Reg} (hr : r ≠ .plen) (s : State) (v : Word) : (s.setReg r v).payload = s.payload := by
  simp [payload_eq, hr]

/-- PCHK succeeds where TRAILER is the payload's checksum. -/
theorem exec_pchk_of_trailer {s : State} (hs : s.hasSession = true) :
    ∃ u, exec .pchk (s.setReg .trailer (s.checksum s.payload)) = .next u ∧ u.reg .status = statusWith s 0 := by
  obtain ⟨u, hu⟩ := exec_answers .pchk (s.setReg .trailer (s.checksum s.payload))
  have hstatus : statusWith (s.setReg .trailer (s.checksum s.payload)) 0 = statusWith s 0 := by simp [statusWith]
  have hsession : (s.setReg .trailer (s.checksum s.payload)).hasSession = true := by simpa using hs
  refine ⟨u, hu, ((exec_succeeds_iff hsession hu nofun).mpr ?_).trans hstatus⟩
  rw [codeOf_pchk_eq_ok_iff]
  simp

/-- A later result code replaces BUILD's. -/
theorem statusWith_built (s : State) (ty : AccessType) (c : BitVec 4) : statusWith (builtState ty s) c = statusWith s c := by
  rw [← setErr_eq_statusWith, built_status, ← setErr_eq_statusWith, setErr_setErr, setErr_eq_statusWith]

theorem built_payload (s : State) (ty : AccessType) : (builtState ty s).payload = s.payload := by
  obtain ⟨-, hpay, -, -, -, hresets⟩ := built_rest s ty
  simp [payload_eq, State.payloadLen, built_reg, State.byteAt, hpay, hresets]

/-- PCSUM after the BUILD of a frame with a payload is the checksum of the payload still in PAY. -/
theorem built_pcsum_eq_checksum {s : State} (hn : s.payloadLen ≠ 0) (ty : AccessType) :
    (builtState ty s).reg .pcsum = (builtState ty s).checksum (builtState ty s).payload := by
  rw [built_pcsum, if_neg hn, built_payload, State.checksum, State.checksum, built_table]

/-! ### Checksums of zero bytes -/

/-- The first bytes of a buffer, when zero, have the checksum 0 under any polynomial's table (spec/40_checksum.md R95 (b)). -/
theorem checksum_of_zeros {s : State} {p : Word} (htbl : s.tbl = buildTable p) {sp : ByteSpace} {n : Nat}
    (h : ∀ i < n, s.byteAt sp i = 0) : s.checksum ((List.range n).map (s.byteAt sp)) = 0 := by
  refine foldBytes_of_zero_entries (List.forall_mem_map.mpr fun i hi => ?_)
  rw [table_of_built htbl, h i (List.mem_range.mp hi)]
  exact buildEntry_zero p

end Sys2Proof.Machine
end

section
/-! The statements of the parser, settled. -/

namespace Sys2Proof.Machine

open Sys2Proof.Statement

/-- Settles O31: the result registers are those of the extracted header in both outcomes, and PARSE reads no register. -/
theorem parseSplitsTheHeader : Obligations.ParseSplitsTheHeader := by
  refine ⟨fun s h => exec_of_noSession_frame nofun h, fun s hs => ?_⟩
  obtain ⟨t, ht⟩ := exec_answers .parse s
  have hreg : ∀ r, r ≠ .status → t.reg r = (extractHeader s).reg r := fun _ => exec_reg_of_session hs ht
  refine ⟨t, ht, headerSplit_of_extractHeader hreg, ?_, exec_onlyRegs ht nofun nofun, exec_idempotent hs nofun (by decide) ht⟩
  rw [exec_status_of_session hs ht nofun, hreg .hcsum nofun, hreg .rhdrK nofun, extractHeader_reg, extractHeader_reg, codeOf,
    apply_ite ResultCode.code]
  rfl

/-- Settles O32: zero bytes, and all bytes under the polynomial 0, fold to 0, so PARSE compares 0 with the checksum bytes. -/
theorem parseZeroHeaderPasses : Obligations.ParseZeroHeaderPasses := by
  intro s p hs htbl
  obtain ⟨t, ht⟩ := exec_answers .parse s
  have hok := (exec_succeeds_iff hs ht nofun).trans (codeOf_parse_eq_ok_iff s)
  refine ⟨fun hzero => ⟨t, ht, hok.mpr ?_⟩, fun hp => ⟨t, ht, hok.trans ?_⟩⟩
  · have hsix : ∀ i < 6, s.byteAt .rx i = 0 := fun i hi => hzero i (hi.trans (by decide))
    rw [responseHeader_eq, checksum_of_zeros htbl hsix, hzero 6 (by decide), hzero 7 (by decide)]
    rfl
  · have hsum : s.checksum s.responseHeader = 0 :=
      foldBytes_of_zero_entries fun b _ => by rw [table_of_built htbl, hp, buildEntry_zero_poly]
    rw [hsum, eq_comm, joinBytes_eq_zero_iff]

/-- Settles O33: PCSUM is stored before the comparison, and PCHK reads PLEN and TRAILER but writes neither. -/
theorem pchkComparesThePayload : Obligations.PchkComparesThePayload := by
  refine ⟨fun s h => exec_of_noSession_frame nofun h, fun s hs => ?_⟩
  obtain ⟨t, ht⟩ := exec_answers .pchk s
  have hpcsum := exec_pchk_pcsum hs ht
  refine ⟨t, ht, hpcsum.trans (checksum_payload s), ?_, exec_onlyRegs ht nofun nofun, exec_idempotent hs nofun (by decide) ht⟩
  rw [exec_status_of_session hs ht nofun, hpcsum, codeOf, apply_ite ResultCode.code]
  rfl

/-- Settles O34: no byte and zero bytes fold to 0; BUILD's PCSUM is the checksum of the payload PCHK finds. -/
theorem pchkCornerCases : Obligations.PchkCornerCases := by
  refine ⟨fun s hs hn => ?_, fun s p hs htbl hzero => ?_, fun s ty hs hty hn => ?_⟩
  · obtain ⟨t, ht⟩ := exec_answers .pchk s
    have hsum : s.checksum s.payload = 0 := by rw [checksum_payload, hn]; rfl
    refine ⟨t, ht, (exec_pchk_pcsum hs ht).trans hsum, ?_⟩
    rw [exec_succeeds_iff hs ht nofun, codeOf_pchk_eq_ok_iff, hsum, eq_comm]
  · obtain ⟨t, ht⟩ := exec_answers .pchk s
    exact ⟨t, ht, by rw [exec_pchk_pcsum hs ht, checksum_payload]; exact checksum_of_zeros htbl hzero⟩
  · obtain ⟨u, hu, hstatus⟩ := exec_pchk_of_trailer (s := builtState ty s) (by rwa [built_hasSession])
    rw [← built_pcsum_eq_checksum (payloadLen_eq_len9 s ▸ hn)] at hu
    exact ⟨_, u, exec_build_of_session hs hty, hu, hstatus.trans (statusWith_built s ty 0)⟩

end Sys2Proof.Machine
end

section
/-! SUPPORT. Reading the line: how many bytes a read gives, how it can fail, what it does with bytes that are there, and that it does not see interrupted waits (spec/43_firmware_contract.md R150, R151, R155). -/

namespace Sys2Proof.Machine

/-- The line without its interrupted waits. -/
def withoutInterrupts (line : List LineEvent) : List LineEvent := line.filter fun e => decide (e ≠ .interrupted)

@[simp] theorem withoutInterrupts_nil : withoutInterrupts [] = [] := rfl

@[simp] theorem withoutInterrupts_interrupted (line : List LineEvent) :
    withoutInterrupts (.interrupted :: line) = withoutInterrupts line := rfl

@[simp] theorem withoutInterrupts_timeout (line : List LineEvent) :
    withoutInterrupts (.timeout :: line) = .timeout :: withoutInterrupts line := rfl

@[simp] theorem withoutInterrupts_byte (b : Byte) (line : List LineEvent) :
    withoutInterrupts (.byte b :: line) = .byte b :: withoutInterrupts line := rfl

/-! ### Exactly `n` bytes -/

theorem readExactly_withoutInterrupts (n : Nat) (line : List LineEvent) :
    readExactly n (withoutInterrupts line) = ((readExactly n line).1, withoutInterrupts (readExactly n line).2) := by
  induction n, line using readExactly.induct with
  | case1 line => simp [readExactly]
  | case2 n => rfl
  | case3 n line => rfl
  | case4 n line ih => simpa [readExactly] using ih
  | case5 n b line ih => simp [readExactly, ih]

theorem length_of_readExactly {n : Nat} {line : List LineEvent} {bytes : List Byte} (h : (readExactly n line).1 = some bytes) :
    bytes.length = n := by
  induction n, line using readExactly.induct generalizing bytes with
  | case1 line => simp_all [readExactly]
  | case2 n => cases h
  | case3 n line => cases h
  | case4 n line ih => exact ih h
  | case5 n b line ih =>
    obtain ⟨rest, hrest, rfl⟩ := Option.map_eq_some_iff.mp h
    rw [List.length_cons, ih hrest]

/-- Bytes that are on the line are read. -/
theorem readExactly_of_bytes (bytes : List Byte) (line : List LineEvent) :
    readExactly bytes.length (bytes.map LineEvent.byte ++ line) = (some bytes, line) := by
  induction bytes with
  | nil => simp [readExactly]
  | cons b bytes ih => simp [readExactly, ih]

/-! ### A payload -/

theorem readPayload_withoutInterrupts (n capacity : Nat) (line : List LineEvent) :
    readPayload n capacity (withoutInterrupts line) =
      { readPayload n capacity line with line := withoutInterrupts (readPayload n capacity line).line } := by
  induction n, capacity, line using readPayload.induct with
  | case1 capacity line => simp [readPayload]
  | case2 n capacity => rfl
  | case3 n capacity line => rfl
  | case4 n capacity line ih => simpa [readPayload] using ih
  | case5 n b line => rfl
  | case6 n capacity b line ih => simp [readPayload, ih]

/-- What a payload read may give: no more than the capacity and no more than asked for; all of it if there is no failure; a full buffer, too small, on an overflow; and no other failure than that and the timeout. -/
theorem readPayload_bounds (n capacity : Nat) (line : List LineEvent) :
    (readPayload n capacity line).stored.length ≤ capacity ∧ (readPayload n capacity line).stored.length ≤ n
      ∧ ((readPayload n capacity line).failure = none ∧ (readPayload n capacity line).stored.length = n
        ∨ (readPayload n capacity line).failure = some .readTimeout
        ∨ (readPayload n capacity line).failure = some .payloadBufferOverflow
          ∧ capacity < n ∧ (readPayload n capacity line).stored.length = capacity) := by
  induction n, capacity, line using readPayload.induct with
  | case1 capacity line => simp [readPayload]
  | case2 n capacity => simp [readPayload]
  | case3 n capacity line => simp [readPayload]
  | case4 n capacity line ih => simpa [readPayload] using ih
  | case5 n b line => simp [readPayload]
  | case6 n capacity b line ih => simpa [readPayload] using ih

theorem length_stored_le (n capacity : Nat) (line : List LineEvent) : (readPayload n capacity line).stored.length ≤ capacity :=
  (readPayload_bounds n capacity line).1

theorem length_stored_of_success {n capacity : Nat} {line : List LineEvent} (h : (readPayload n capacity line).failure = none) :
    (readPayload n capacity line).stored.length = n := by
  obtain ⟨-, -, hall⟩ := readPayload_bounds n capacity line
  simpa [h] using hall

/-- A payload that is on the line and fits is stored. -/
theorem readPayload_of_bytes (bytes : List Byte) (line : List LineEvent) :
    ∀ {capacity : Nat}, bytes.length ≤ capacity →
      readPayload bytes.length capacity (bytes.map LineEvent.byte ++ line) = ⟨bytes, none, line⟩ := by
  induction bytes with
  | nil => exact fun _ => by simp [readPayload]
  | cons b bytes ih =>
    intro capacity h
    obtain ⟨room, rfl⟩ : ∃ room, capacity = room + 1 := ⟨capacity - 1, by rw [List.length_cons] at h; omega⟩
    simp [readPayload, ih (Nat.le_of_succ_le_succ h)]

/-- One byte more than the capacity on the line, and more asked for: the buffer is filled and the read overflows. -/
theorem readPayload_overflows (line : List LineEvent) :
    ∀ (capacity n : Nat) (bytes : List Byte), bytes.length = capacity + 1 → capacity < n →
      (readPayload n capacity (bytes.map LineEvent.byte ++ line)).failure = some .payloadBufferOverflow
        ∧ (readPayload n capacity (bytes.map LineEvent.byte ++ line)).stored = bytes.take capacity := by
  intro capacity
  induction capacity with
  | zero =>
    intro n bytes hlen hn
    obtain ⟨b, rfl⟩ := List.length_eq_one_iff.mp hlen
    obtain ⟨k, rfl⟩ : ∃ k, n = k + 1 := ⟨n - 1, by omega⟩
    exact ⟨rfl, rfl⟩
  | succ capacity ih =>
    intro n bytes hlen hn
    obtain ⟨b, bytes, rfl⟩ := List.exists_cons_of_length_eq_add_one hlen
    obtain ⟨k, rfl⟩ : ∃ k, n = k + 1 := ⟨n - 1, by omega⟩
    obtain ⟨hfailure, hstored⟩ := ih k bytes (Nat.succ.inj hlen) (Nat.lt_of_succ_lt_succ hn)
    exact ⟨hfailure, by simp [readPayload, hstored]⟩

end Sys2Proof.Machine
end

section
/-! The statement of the caller's buffer, settled. -/

namespace Sys2Proof.Machine

/-- Settles O46: the bounds of a payload read, and the overflow of a line that holds one byte too many. -/
theorem payloadNeverOverrunsTheBuffer : Obligations.PayloadNeverOverrunsTheBuffer := by
  intro n capacity line
  obtain ⟨hcapacity, hn, hall⟩ := readPayload_bounds n capacity line
  refine ⟨hcapacity, hn, length_stored_of_success, fun h => ?_, fun bytes hlen hlt => readPayload_overflows line capacity n bytes hlen hlt,
    hall.imp And.left (Or.imp_right And.left)⟩
  simpa [h] using hall

end Sys2Proof.Machine
end

section
/-! SUPPORT. What a receive ends in, said once: one constructor for each way (spec/43_firmware_contract.md R150 to R157), and that every receive ends in one of them. -/

namespace Sys2Proof.Machine

/-! ### Accesses and sequences of them -/

/-- Accesses carried on answer exactly when both parts do. -/
theorem andThen_eq_next {α β : Type} {o : Host.Outcome α Fault Refusal} {k : α → Host.Outcome β Fault Refusal} {b : β} :
    andThen o k = .next b ↔ ∃ a, o = .next a ∧ k a = .next b := by
  cases o <;> simp [andThen]

@[simp] theorem hostReg_setReply (s : State) (x : Option Reply) (r : Reg) : (s.setReply x).hostReg r = s.hostReg r := by
  simp [State.hostReg]

/-- No access sees what the one before it returned. -/
theorem access_setReply (e : HostEvent) (s : State) (x : Option Reply) : access e (s.setReply x) = access e s := by
  cases e with
  | regRead n => simp only [access, hostRegRead, hostReg_setReply]; rfl
  | tblRead i => rfl
  | byteRead sp i => simp only [access, hostByteRead, byteAt_setReply]; rfl
  | regWrite n v | tblWrite i v | byteWrite sp i v | hardReset => rfl

/-! What was returned stays beside what is stored. -/

@[simp] theorem setReply_setReply (s : State) (x y : Option Reply) : (s.setReply x).setReply y = s.setReply y := rfl

theorem setReply_self (s : State) : s.setReply s.reply = s := rfl

@[simp] theorem setReg_setReply (s : State) (x : Option Reply) (r : Reg) (v : Word) :
    (s.setReply x).setReg r v = (s.setReg r v).setReply x := by
  cases r <;> rfl

@[simp] theorem setBytes_setReply (s : State) (x : Option Reply) (sp : ByteSpace) (m : Memory 8) :
    (s.setReply x).setBytes sp m = (s.setBytes sp m).setReply x := by
  cases sp <;> rfl

/-- A number of `k` bits is kept by the mask of `k` ones. -/
theorem and_mask_of_lt {v : Word} {k : Nat} (h : v.toNat < 2 ^ k) (hk : k ≤ 16) : v &&& BitVec.ofNat 16 (2 ^ k - 1) = v := by
  have hpow : 2 ^ k - 1 < 2 ^ 16 := by have := Nat.pow_le_pow_right Nat.two_pos hk; omega
  apply BitVec.eq_of_toNat_eq
  rw [BitVec.toNat_and, BitVec.toNat_ofNat, Nat.mod_eq_of_lt hpow, Nat.and_two_pow_sub_one_eq_mod, Nat.mod_eq_of_lt h]

/-- An assembler line that writes an RW register a value of the register's own bits. -/
theorem access_asmWR {r : Reg} (h : regAccess r = .rw) {v : Word} (hv : v &&& regMask r = v) (s : State) :
    access (asmWR r v) s = .next ((s.setReg r v).setReply none) := by
  rw [asmWR, access_regWrite_of_rw (regOfNumber_regNumber r) h, hv, setReg_setReply]

/-- Such a line in front of other accesses. -/
theorem runEvents_asmWR_cons {r : Reg} (h : regAccess r = .rw) {v : Word} (hv : v &&& regMask r = v) (es : List HostEvent) (s : State)
    (x : Option Reply) : runEvents (asmWR r v :: es) (s.setReply x) = runEvents es ((s.setReg r v).setReply none) := by
  rw [runEvents_cons, access_setReply, access_asmWR h hv, andThen_next]

/-- PLEN takes a payload's length. -/
theorem plen_mask {n : Nat} (h : n ≤ 511) : BitVec.ofNat 16 n &&& regMask .plen = BitVec.ofNat 16 n :=
  and_mask_of_lt (k := 9) (by rw [BitVec.toNat_ofNat]; omega) (by decide)

/-! ### Bytes stored from index 0 on -/

/-- The state with the given bytes at the head of a buffer. -/
def State.loaded (s : State) (sp : ByteSpace) (bytes : List Byte) : State :=
  s.setBytes sp (Memory.writeList (s.bytes sp) 0 bytes)

@[simp] theorem loaded_setReply (s : State) (x : Option Reply) (sp : ByteSpace) (bytes : List Byte) :
    (s.setReply x).loaded sp bytes = (s.loaded sp bytes).setReply x := by
  simp [State.loaded]

@[simp] theorem loaded_reg (s : State) (sp : ByteSpace) (bytes : List Byte) (r : Reg) : (s.loaded sp bytes).reg r = s.reg r := by
  simp [State.loaded]

@[simp] theorem loaded_hasSession (s : State) (sp : ByteSpace) (bytes : List Byte) :
    (s.loaded sp bytes).hasSession = s.hasSession := by
  simp [State.loaded]

@[simp] theorem loaded_table (s : State) (sp : ByteSpace) (bytes : List Byte) : (s.loaded sp bytes).table = s.table := by
  simp [State.loaded]

@[simp] theorem loaded_byteAt_of_ne {sp sq : ByteSpace} (h : sq ≠ sp) (s : State) (bytes : List Byte) (i : Nat) :
    (s.loaded sp bytes).byteAt sq i = s.byteAt sq i := by
  simp [State.loaded, h]

theorem loaded_byteAt (s : State) (sp : ByteSpace) {bytes : List Byte} {i : Nat} (h : i < bytes.length) :
    (s.loaded sp bytes).byteAt sp i = bytes[i] := by
  simp [State.loaded, Memory.read?_writeList, h]

/-- The head of the buffer is the bytes stored there. -/
theorem map_loaded_byteAt (s : State) (sp : ByteSpace) {bytes : List Byte} {n : Nat} (h : n ≤ bytes.length) :
    (List.range n).map ((s.loaded sp bytes).byteAt sp) = bytes.take n := by
  refine List.ext_getElem (by simp [h]) fun i hi hi' => ?_
  have hlt : i < bytes.length := by rw [List.length_take] at hi'; omega
  simp [loaded_byteAt s sp hlt]

theorem loaded_written (s : State) (sp : ByteSpace) {bytes : List Byte} {i : Nat} (h : i < bytes.length) :
    (Memory.read? ((s.loaded sp bytes).bytes sp) i).isSome = true := by
  simp only [State.loaded, bytes_setBytes, if_true]
  exact (Memory.isSome_read?_writeList _ _ _ _).mpr (.inl ⟨Nat.zero_le i, by omega⟩)

theorem runEvents_load {sp : ByteSpace} (hw : hostWritable sp = true) {bytes : List Byte} (h : bytes.length ≤ sp.size) (s : State) :
    ∃ x, runEvents (asmWB sp 0 bytes) s = .next ((s.loaded sp bytes).setReply x) :=
  runEvents_asmWB hw bytes 0 s (by omega)

/-! ### The states PARSE and PCHK are issued on -/

/-- `header` in RX and PARSE in CMD. -/
def State.headed (s : State) (header : List Byte) : State := ((s.loaded .rx header).setReg .cmd (encode .parse)).setReply none

/-- The trailer in TRAILER, the length in PLEN and PCHK in CMD. -/
def State.trailed (s : State) (n : Nat) (t0 t1 : Byte) : State :=
  (((s.setReg .trailer (joinBytes t0 t1)).setReg .plen (BitVec.ofNat 16 n)).setReg .cmd (encode .pchk)).setReply none

theorem runEvents_rxhdr {header : List Byte} (h : header.length = 8) (s : State) :
    runEvents (asmRxhdr header) s = exec .parse (s.headed header) := by
  obtain ⟨x, hload⟩ := runEvents_load (sp := .rx) rfl (bytes := header) (by rw [h]; decide) s
  rw [asmRxhdr, runEvents_append, hload, andThen_next, runEvents_singleton, access_setReply, access_asmOp, setReg_setReply]
  rfl

/-- The accesses that lay a payload's trailer and length before PCHK (spec/43_firmware_contract.md R156). -/
def checkEvents (n : Nat) (t0 t1 : Byte) : List HostEvent :=
  [asmWR .trailer (joinBytes t0 t1), asmWR .plen (BitVec.ofNat 16 n), asmOp .pchk]

theorem runEvents_check {n : Nat} (h : n ≤ 511) (t0 t1 : Byte) (s : State) :
    runEvents (checkEvents n t0 t1) s = exec .pchk (s.trailed n t0 t1) := by
  have htrailer := runEvents_asmWR_cons (r := .trailer) (v := joinBytes t0 t1) rfl BitVec.and_allOnes
  have hplen := runEvents_asmWR_cons (r := .plen) rfl (plen_mask h)
  calc runEvents (checkEvents n t0 t1) s
      = runEvents [asmOp .pchk] (((s.setReg .trailer (joinBytes t0 t1)).setReg .plen (BitVec.ofNat 16 n)).setReply none) := by
        rw [checkEvents, ← setReply_self s, htrailer, hplen, setReply_self]
    _ = exec .pchk (s.trailed n t0 t1) := by rw [runEvents_singleton, access_setReply, access_asmOp, setReg_setReply]; rfl

/-! ### The ends of a receive -/

/-- How receiving a payload of `n` bytes ends: not all of it read; no trailer; or the check made. -/
inductive PayloadEnd (n capacity : Nat) (sent : List Byte) (line : List LineEvent) (s : State) : ExchangeEnd → Prop
  | unread {c : ResultCode} (hpayload : (readPayload n capacity line).failure = some c) :
      PayloadEnd n capacity sent line s ⟨s, sent, (readPayload n capacity line).line, (readPayload n capacity line).stored,
        .failed c.code, [.endExchange]⟩
  | noTrailer {rest : List LineEvent} {x : Option Reply} (hpayload : (readPayload n capacity line).failure = none)
      (htrailer : readExactly 2 (readPayload n capacity line).line = (none, rest)) :
      PayloadEnd n capacity sent line s ⟨(s.loaded .pay (readPayload n capacity line).stored).setReply x, sent, rest,
        (readPayload n capacity line).stored, .failed ResultCode.readTimeout.code,
        accessMoves (asmWB .pay 0 (readPayload n capacity line).stored) ++ [.endExchange]⟩
  | checked {rest : List LineEvent} {t0 t1 : Byte} {u : State} (hpayload : (readPayload n capacity line).failure = none)
      (htrailer : readExactly 2 (readPayload n capacity line).line = (some [t0, t1], rest))
      (hcheck : exec .pchk ((s.loaded .pay (readPayload n capacity line).stored).trailed n t0 t1) = .next u) :
      PayloadEnd n capacity sent line s ⟨u, sent, rest, (readPayload n capacity line).stored,
        if u.err = 0 then .total (8 + n) else .failed u.err,
        accessMoves (asmWB .pay 0 (readPayload n capacity line).stored ++ checkEvents n t0 t1 ++ [asmRD .status]) ++ [.endExchange]⟩

/-- How the receive path ends behind a header that checked out: a failure status; a payload received; or no payload. -/
inductive CheckedEnd (p : FirmwareParams) (capacity : Nat) (sent : List Byte) (line : List LineEvent) (t : State) : ExchangeEnd → Prop
  | failure {c : ResultCode} (hstatus : interpretStatus p (hiByte (t.hostReg .rhdrS)) = some c) :
      CheckedEnd p capacity sent line t ⟨t, sent, line, [], .failed c.code, [.endExchange]⟩
  | payload {e : ExchangeEnd} (hstatus : interpretStatus p (hiByte (t.hostReg .rhdrS)) = none)
      (hdata : p.dataBearing ((t.hostReg .rhdrC).extractLsb' 8 2) = true)
      (hend : PayloadEnd ((loByte (t.hostReg .rhdrL)).toNat * 2) capacity sent line t e) : CheckedEnd p capacity sent line t e
  | bare (hstatus : interpretStatus p (hiByte (t.hostReg .rhdrS)) = none)
      (hdata : p.dataBearing ((t.hostReg .rhdrC).extractLsb' 8 2) = false) :
      CheckedEnd p capacity sent line t ⟨t, sent, line, [], .total 8, [.endExchange]⟩

/-- The moves of a receive up to the STATUS read that follows PARSE. -/
def headerMoves (header : List Byte) : List HostMove := accessMoves (asmRxhdr header ++ [asmRD .status])

/-- The moves by which the fields of a checked header are read and used. -/
def fieldMoves : List HostMove := [.access (asmRD .rhdrS), .access (asmRD .rhdrC), .access (asmRD .rhdrL), .useHeader]

/-- How the receive path ends: no header; a header PARSE rejects; or what follows a header that checked out. -/
inductive ReceiveEnd (p : FirmwareParams) (capacity : Nat) (sent : List Byte) (line : List LineEvent) (s : State) : ExchangeEnd → Prop
  | noHeader {rest : List LineEvent} (hheader : readExactly 8 line = (none, rest)) :
      ReceiveEnd p capacity sent line s ⟨s, sent, rest, [], .failed ResultCode.readTimeout.code, [.endExchange]⟩
  | rejected {header : List Byte} {rest : List LineEvent} {t : State} (hheader : readExactly 8 line = (some header, rest))
      (hparse : exec .parse (s.headed header) = .next t) (herr : t.err ≠ 0) :
      ReceiveEnd p capacity sent line s ⟨t, sent, rest, [], .failed t.err, headerMoves header ++ [.endExchange]⟩
  | checked {header : List Byte} {rest : List LineEvent} {t : State} {e : ExchangeEnd}
      (hheader : readExactly 8 line = (some header, rest)) (hparse : exec .parse (s.headed header) = .next t) (herr : t.err = 0)
      (hend : CheckedEnd p capacity sent rest t e) :
      ReceiveEnd p capacity sent line s (e.afterMoves (headerMoves header ++ fieldMoves))

theorem length_of_readExactly_eq {n : Nat} {line rest : List LineEvent} {bytes : List Byte}
    (h : readExactly n line = (some bytes, rest)) : bytes.length = n :=
  length_of_readExactly (by rw [h])

theorem receivePayload_end {n : Nat} (hn : n ≤ 511) (capacity : Nat) (sent : List Byte) (line : List LineEvent) (s : State) :
    ∃ e, receivePayload n capacity sent line s = .next e ∧ PayloadEnd n capacity sent line s e := by
  simp only [receivePayload]
  cases hpayload : (readPayload n capacity line).failure with
  | some c => exact ⟨_, rfl, .unread hpayload⟩
  | none =>
    have hlen : (readPayload n capacity line).stored.length ≤ ByteSpace.pay.size :=
      (length_stored_of_success hpayload).trans_le (hn.trans (by decide))
    obtain ⟨x, hload⟩ := runEvents_load (sp := .pay) rfl hlen s
    simp only [hload, andThen_next]
    obtain ⟨trailer, rest, htrailer⟩ : ∃ trailer rest, readExactly 2 (readPayload n capacity line).line = (trailer, rest) := ⟨_, _, rfl⟩
    cases trailer with
    | none => rw [htrailer]; exact ⟨_, rfl, .noTrailer hpayload htrailer⟩
    | some bytes =>
      obtain ⟨t0, t1, rfl⟩ := List.length_eq_two.mp (length_of_readExactly_eq htrailer)
      obtain ⟨u, hu⟩ := exec_answers .pchk ((s.loaded .pay (readPayload n capacity line).stored).trailed n t0 t1)
      have hrun := (runEvents_check hn t0 t1 ((s.loaded .pay (readPayload n capacity line).stored).setReply x)).trans hu
      rw [checkEvents] at hrun
      rw [htrailer]
      simp only [hrun, andThen_next]
      exact ⟨_, rfl, .checked hpayload htrailer hu⟩

theorem receiveChecked_end (p : FirmwareParams) (capacity : Nat) (sent : List Byte) (line : List LineEvent) (t : State) :
    ∃ e, receiveChecked p capacity sent line t = .next e ∧ CheckedEnd p capacity sent line t e := by
  simp only [receiveChecked]
  cases hstatus : interpretStatus p (hiByte (t.hostReg .rhdrS)) with
  | some c => exact ⟨_, rfl, .failure hstatus⟩
  | none =>
    cases hdata : p.dataBearing ((t.hostReg .rhdrC).extractLsb' 8 2) with
    | false => exact ⟨_, rfl, .bare hstatus hdata⟩
    | true =>
      obtain ⟨e, he, hend⟩ := receivePayload_end (n := (loByte (t.hostReg .rhdrL)).toNat * 2) (by omega) capacity sent line t
      exact ⟨e, he, .payload hstatus hdata hend⟩

/-- Every receive ends in one of the ways of `ReceiveEnd`. -/
theorem receive_end (p : FirmwareParams) (capacity : Nat) (sent : List Byte) (line : List LineEvent) (s : State) :
    ∃ e, receive p capacity sent line s = .next e ∧ ReceiveEnd p capacity sent line s e := by
  simp only [receive]
  obtain ⟨got, rest, hheader⟩ : ∃ got rest, readExactly 8 line = (got, rest) := ⟨_, _, rfl⟩
  cases got with
  | none => rw [hheader]; exact ⟨_, rfl, .noHeader hheader⟩
  | some header =>
    obtain ⟨t, ht⟩ := exec_answers .parse (s.headed header)
    rw [hheader]
    simp only [runEvents_rxhdr (length_of_readExactly_eq hheader), ht, andThen_next]
    by_cases herr : t.err = 0
    · obtain ⟨e, he, hend⟩ := receiveChecked_end p capacity sent rest t
      rw [if_neg (not_not.mpr herr), he]
      exact ⟨_, rfl, .checked hheader ht herr hend⟩
    · rw [if_pos herr]
      exact ⟨_, rfl, .rejected hheader ht herr⟩

/-! ### What every end of a receive has -/

section
variable {p : FirmwareParams} {n capacity : Nat} {sent : List Byte} {line : List LineEvent} {s : State} {e : ExchangeEnd}

/-- A receive sends nothing and stores no more than the capacity. -/
theorem PayloadEnd.sent_and_buffer (h : PayloadEnd n capacity sent line s e) : e.sent = sent ∧ e.buffer.length ≤ capacity := by
  cases h with
  | unread | noTrailer | checked => exact ⟨rfl, length_stored_le n capacity line⟩

theorem CheckedEnd.sent_and_buffer (h : CheckedEnd p capacity sent line s e) : e.sent = sent ∧ e.buffer.length ≤ capacity := by
  cases h with
  | failure | bare => exact ⟨rfl, Nat.zero_le _⟩
  | payload _ _ hend => exact hend.sent_and_buffer

theorem ReceiveEnd.sent_and_buffer (h : ReceiveEnd p capacity sent line s e) : e.sent = sent ∧ e.buffer.length ≤ capacity := by
  cases h with
  | noHeader | rejected => exact ⟨rfl, Nat.zero_le _⟩
  | checked _ _ _ hend => exact hend.sent_and_buffer

end

end Sys2Proof.Machine
end

section
/-! The statement of the interrupted waits, settled, with what they are to each part of the receive path. -/

namespace Sys2Proof.Machine

/-- What an exchange leaves, the rest of the line without its interrupted waits. -/
def ExchangeEnd.withoutInterrupts (e : ExchangeEnd) : ExchangeEnd := { e with line := Machine.withoutInterrupts e.line }

theorem receivePayload_withoutInterrupts {n capacity : Nat} {sent : List Byte} {line : List LineEvent} {s : State} {e : ExchangeEnd}
    (h : receivePayload n capacity sent line s = .next e) :
    receivePayload n capacity sent (withoutInterrupts line) s = .next e.withoutInterrupts := by
  simp only [receivePayload, readPayload_withoutInterrupts, readExactly_withoutInterrupts] at h ⊢
  cases hpayload : (readPayload n capacity line).failure with
  | some c => simp only [hpayload] at h ⊢; cases h; rfl
  | none =>
    simp only [hpayload] at h ⊢
    obtain ⟨t, ht, h⟩ := andThen_eq_next.mp h
    rw [ht, andThen_next]
    obtain ⟨trailer, rest, htrailer⟩ : ∃ trailer rest, readExactly 2 (readPayload n capacity line).line = (trailer, rest) := ⟨_, _, rfl⟩
    simp only [htrailer] at h ⊢
    cases trailer with
    | none => cases h; rfl
    | some bytes =>
      obtain ⟨t0, t1, rfl⟩ := List.length_eq_two.mp (length_of_readExactly_eq htrailer)
      obtain ⟨u, hu, h⟩ := andThen_eq_next.mp h
      cases h
      simp only [hu, andThen_next]
      rfl

theorem receiveChecked_withoutInterrupts {p : FirmwareParams} {capacity : Nat} {sent : List Byte} {line : List LineEvent} {t : State}
    {e : ExchangeEnd} (h : receiveChecked p capacity sent line t = .next e) :
    receiveChecked p capacity sent (withoutInterrupts line) t = .next e.withoutInterrupts := by
  simp only [receiveChecked] at h ⊢
  cases hstatus : interpretStatus p (hiByte (t.hostReg .rhdrS)) with
  | some c => simp only [hstatus] at h ⊢; cases h; rfl
  | none =>
    simp only [hstatus] at h ⊢
    split at h
    · exact (if_pos ‹_›).trans (receivePayload_withoutInterrupts h)
    · cases h; exact if_neg ‹_›

theorem receive_withoutInterrupts {p : FirmwareParams} {capacity : Nat} {sent : List Byte} {line : List LineEvent} {s : State}
    {e : ExchangeEnd} (h : receive p capacity sent line s = .next e) :
    receive p capacity sent (withoutInterrupts line) s = .next e.withoutInterrupts := by
  simp only [receive, readExactly_withoutInterrupts] at h ⊢
  split at h
  · rename_i rest hheader
    cases h
    rw [hheader]; rfl
  · rename_i header rest hheader
    obtain ⟨t, ht, h⟩ := andThen_eq_next.mp h
    simp only [hheader, ht, andThen_next]
    split at h
    · cases h; exact if_pos ‹_›
    · obtain ⟨e', he', h⟩ := andThen_eq_next.mp h
      cases h
      rw [if_neg ‹_›, receiveChecked_withoutInterrupts he']; rfl

/-- Settles O43: neither read sees an interrupted wait, and the rest of the receive path sees only what the reads give. -/
theorem interruptedWaitsAreInvisible : Obligations.InterruptedWaitsAreInvisible := by
  refine ⟨fun n line => ?_, readPayload_withoutInterrupts, fun p capacity sent line s => ?_⟩
  · exact Prod.ext_iff.mp (readExactly_withoutInterrupts n line)
  · obtain ⟨e, he, -⟩ := receive_end p capacity sent line s
    exact ⟨e, he, receive_withoutInterrupts he⟩

end Sys2Proof.Machine
end

section
/-! SUPPORT. Sending: the state BUILD finds behind a request's operands, the frame it leaves, and the exchange from there on (spec/43_firmware_contract.md R141, R142). -/

namespace Sys2Proof.Machine

open Sys2Proof.Statement

theorem wf_iff (q : Request) : q.wf = true ↔ q.payload.length ≤ 511 := by simp [Request.wf]

/-- The accesses of a request before its BUILD. -/
def Request.operandEvents (q : Request) : List HostEvent :=
  [asmWR .index (q.index.zeroExtend 16), asmWR .offset (q.offset.zeroExtend 16),
   asmWR .rlen (q.responseLen.zeroExtend 16), asmWR .plen (BitVec.ofNat 16 q.payload.length)]
    ++ asmWB .pay 0 q.payload

theorem sendEvents_eq (q : Request) : q.sendEvents = q.operandEvents ++ [asmOp (.build q.ty)] := rfl

/-- The state with a request's operands and payload in it. -/
def Request.stored (q : Request) (s : State) : State :=
  ((((s.setReg .index (q.index.zeroExtend 16)).setReg .offset (q.offset.zeroExtend 16)).setReg .rlen
    (q.responseLen.zeroExtend 16)).setReg .plen (BitVec.ofNat 16 q.payload.length)).loaded .pay q.payload

/-- The state a request's BUILD runs on. -/
def Request.commanded (q : Request) (s : State) : State := ((q.stored s).setReg .cmd (encode (.build q.ty))).setReply none

theorem zeroExtend_byte_mask (b : Byte) : b.zeroExtend 16 &&& 0x00FF#16 = b.zeroExtend 16 :=
  and_mask_of_lt (k := 8) (by simp; omega) (by decide)

theorem zeroExtend_length_mask (n : BitVec 9) : n.zeroExtend 16 &&& 0x01FF#16 = n.zeroExtend 16 :=
  and_mask_of_lt (k := 9) (by simp; omega) (by decide)

theorem runEvents_operandEvents {q : Request} (h : q.wf = true) (s : State) :
    ∃ x, runEvents q.operandEvents s = .next ((q.stored s).setReply x) := by
  rw [wf_iff] at h
  have hindex := runEvents_asmWR_cons (r := .index) rfl (zeroExtend_byte_mask q.index)
  have hoffset := runEvents_asmWR_cons (r := .offset) rfl (zeroExtend_byte_mask q.offset)
  have hrlen := runEvents_asmWR_cons (r := .rlen) rfl (zeroExtend_length_mask q.responseLen)
  have hplen := runEvents_asmWR_cons (r := .plen) rfl (plen_mask h)
  rw [Request.operandEvents, List.cons_append, List.cons_append, List.cons_append, List.cons_append, List.nil_append,
    ← setReply_self s, hindex, hoffset, hrlen, hplen]
  obtain ⟨x, hload⟩ := runEvents_load (sp := .pay) rfl (h.trans (by decide : 511 ≤ ByteSpace.pay.size)) _
  exact ⟨x, by rw [hload, loaded_setReply, setReply_setReply, Request.stored, setReply_self]⟩

/-- A request sent is its BUILD on the state with its operands. -/
theorem runEvents_sendEvents {q : Request} (h : q.wf = true) (s : State) :
    runEvents q.sendEvents s = exec (.build q.ty) (q.commanded s) := by
  obtain ⟨x, hrun⟩ := runEvents_operandEvents h s
  rw [sendEvents_eq, runEvents_append, hrun, andThen_next, runEvents_singleton, access_setReply, access_asmOp, setReg_setReply]
  rfl

/-! ### The operands as BUILD finds them -/

theorem stored_reg (q : Request) (s : State) (r : Reg) :
    (q.stored s).reg r =
      match r with
      | .index => q.index.zeroExtend 16
      | .offset => q.offset.zeroExtend 16
      | .rlen => q.responseLen.zeroExtend 16
      | .plen => BitVec.ofNat 16 q.payload.length
      | r => s.reg r := by
  cases r <;> simp [Request.stored]

theorem commanded_reg (q : Request) (s : State) {r : Reg} (hr : r ≠ .cmd) : (q.commanded s).reg r = (q.stored s).reg r := by
  simp [Request.commanded, hr]

@[simp] theorem commanded_hasSession (q : Request) (s : State) : (q.commanded s).hasSession = s.hasSession := by
  simp [State.hasSession, commanded_reg, stored_reg]

@[simp] theorem commanded_table (q : Request) (s : State) : (q.commanded s).table = s.table := by
  simp [Request.commanded, Request.stored]

theorem stored_payloadLen {q : Request} (h : q.wf = true) (s : State) : (q.stored s).payloadLen = q.payload.length := by
  rw [wf_iff] at h
  rw [payloadLen_eq, stored_reg, BitVec.toNat_ofNat]
  omega

theorem commanded_payloadLen {q : Request} (h : q.wf = true) (s : State) : (q.commanded s).payloadLen = q.payload.length := by
  rw [← stored_payloadLen h s, State.payloadLen, commanded_reg q s (by decide), State.payloadLen]

theorem stored_payloadWritten {q : Request} (h : q.wf = true) (s : State) : (q.stored s).payloadWritten = true :=
  (payloadWritten_iff _).mpr fun _ hi => loaded_written _ _ (by rwa [stored_payloadLen h] at hi)

/-! ### The frame of a request -/

/-- The state behind a request's successful BUILD. -/
def Request.framed (q : Request) (s : State) : State := builtState q.ty (q.commanded s)

theorem frameSize_eq (payload : List Byte) : frameSize payload = if payload.length = 0 then 8 else 10 + payload.length := by
  simp [frameSize, List.length_eq_zero_iff]

section
variable {q : Request} (h : q.wf = true) (s : State)
include h

theorem framed_txlen : ((q.framed s).reg .txlen).toNat = frameSize q.payload := by
  rw [Request.framed, built_txlen_toNat, commanded_payloadLen h, frameSize_eq]

theorem frameSize_le : frameSize q.payload ≤ 521 := by
  rw [wf_iff] at h
  rw [frameSize_eq]
  split <;> omega

theorem framed_hostTxlen : ((q.framed s).hostReg .txlen).toNat = frameSize q.payload := by
  have := frameSize_le h
  rw [hostTxlen_toNat, framed_txlen h, Nat.mod_eq_of_lt (by omega)]

/-- The frame to send is `TX[0..TXLEN-1]`. -/
theorem framed_frame : (q.framed s).frame = (List.range (frameSize q.payload)).map ((q.framed s).byteAt .tx) := by
  rw [State.frame, framed_hostTxlen h, State.bytesFrom]
  simp

theorem length_framed_frame : (q.framed s).frame.length = frameSize q.payload := by
  rw [framed_frame h, List.length_map, List.length_range]

theorem framed_frame_getD {k : Nat} (hk : k < frameSize q.payload) : (q.framed s).frame.getD k 0 = (q.framed s).byteAt .tx k := by
  rw [framed_frame h, List.getD_eq_getElem _ _ (by simpa using hk)]
  simp

/-- The payload stands in the frame behind the header. -/
theorem framed_frame_payload : ((q.framed s).frame.drop 8).take q.payload.length = q.payload := by
  have hlen := commanded_payloadLen h s
  have hsize := frameSize_eq q.payload
  refine List.ext_getElem ?_ fun i hi hi' => ?_
  · rw [List.length_take, List.length_drop, length_framed_frame h, hsize]
    split <;> omega
  · have hn : (q.commanded s).payloadLen ≠ 0 := by omega
    have hbyte := built_tx_payload_byte hn q.ty (i := i) (by omega)
    have hpay : (q.commanded s).byteAt .pay i = q.payload[i] := by
      simp [Request.commanded, Request.stored, loaded_byteAt _ .pay hi']
    rw [List.getElem_take, List.getElem_drop, ← hpay, ← hbyte]
    simp only [framed_frame h, List.getElem_map, List.getElem_range]
    rfl

end

theorem framed_status (q : Request) (s : State) : (q.framed s).reg .status = statusWith s 0 := by
  rw [Request.framed, built_status, statusWith, commanded_reg q s (by decide), stored_reg]
  rfl

theorem framed_err (q : Request) (s : State) : (q.framed s).err = 0 := by
  rw [err_eq, framed_status, ← setErr_eq_statusWith, errField_setErr]

@[simp] theorem framed_hasSession (q : Request) (s : State) : (q.framed s).hasSession = s.hasSession := by simp [Request.framed]

@[simp] theorem framed_table (q : Request) (s : State) : (q.framed s).table = s.table := by simp [Request.framed]

theorem framed_seq (q : Request) (s : State) : ((q.framed s).reg .seq).toNat = ((s.reg .seq).toNat + 1) % 16 := by
  rw [Request.framed, built_seq_toNat, commanded_reg q s (by decide), stored_reg]

/-! ### The exchange behind BUILD -/

/-- The moves of an exchange up to the STATUS read that follows BUILD. -/
def Request.sendMoves (q : Request) : List HostMove := accessMoves (q.sendEvents ++ [asmRD .status])

section
variable {q : Request} (h : q.wf = true) (p : FirmwareParams) (capacity written : Nat) (line : List LineEvent) (s : State)
include h

/-- A BUILD that fails ends the exchange with its code. -/
theorem exchange_of_failed_build {t : State} (ht : exec (.build q.ty) (q.commanded s) = .next t) (herr : t.err ≠ 0) :
    exchange p q capacity written line s = .next ⟨t, [], line, [], .failed t.err, q.sendMoves ++ [.endExchange]⟩ := by
  simp only [exchange, runEvents_sendEvents h, ht, andThen_next, if_pos herr]
  rfl

/-- A write that falls short, or takes too much, ends the exchange. -/
theorem exchange_of_shortfall (hbuild : exec (.build q.ty) (q.commanded s) = .next (q.framed s)) (hw : written ≠ frameSize q.payload) :
    exchange p q capacity written line s = .next ⟨q.framed s, (q.framed s).frame.take written, line, [],
      .failed ResultCode.writeShortfall.code, q.sendMoves ++ transmitMoves written (q.framed s) ++ [.endExchange]⟩ := by
  have herr : ¬ (q.framed s).err ≠ 0 := not_not.mpr (framed_err q s)
  simp only [exchange, runEvents_sendEvents h, hbuild, andThen_next, if_neg herr, framed_hostTxlen h, if_pos hw]
  rfl

/-- With the whole frame sent the exchange is its receive. -/
theorem exchange_of_sent (hbuild : exec (.build q.ty) (q.commanded s) = .next (q.framed s)) :
    exchange p q capacity (frameSize q.payload) line s = andThen (receive p capacity (q.framed s).frame line (q.framed s)) fun e =>
      .next (e.afterMoves (q.sendMoves ++ transmitMoves (frameSize q.payload) (q.framed s))) := by
  have herr : ¬ (q.framed s).err ≠ 0 := not_not.mpr (framed_err q s)
  have hsize := not_not.mpr (Eq.refl (frameSize q.payload))
  simp only [exchange, runEvents_sendEvents h, hbuild, andThen_next, if_neg herr, framed_hostTxlen h, if_neg hsize]
  rfl

end

/-- In a session a legal BUILD succeeds on a request's operands. -/
theorem exec_build_commanded {s : State} (hs : s.hasSession = true) {q : Request} (hty : q.ty ≠ .unused) :
    exec (.build q.ty) (q.commanded s) = .next (q.framed s) :=
  exec_build_of_session (by rwa [commanded_hasSession]) hty

end Sys2Proof.Machine
end

section
/-! SUPPORT. PARSE and PCHK as the receive path issues them, in a session: when the header or the payload checks out (spec/42_parser.md R126, R131). -/

namespace Sys2Proof.Machine

open Sys2Proof.Statement

/-! ### PARSE -/

theorem headed_reg (s : State) (header : List Byte) {r : Reg} (hr : r ≠ .cmd) : (s.headed header).reg r = s.reg r := by
  simp [State.headed, hr]

@[simp] theorem headed_hasSession (s : State) (header : List Byte) : (s.headed header).hasSession = s.hasSession := by
  simp [State.hasSession, headed_reg]

theorem headed_rx (s : State) {header : List Byte} {i : Nat} (h : i < header.length) : (s.headed header).byteAt .rx i = header[i] := by
  simp [State.headed, loaded_byteAt s .rx h]

/-- The state behind a PARSE of `header` that succeeds. -/
def State.parsed (s : State) (header : List Byte) : State := finish .ok (extractHeader (s.headed header))

/-- In a session PARSE accepts a header that carries its own checksum. -/
theorem exec_parse_headed {s : State} (hs : s.hasSession = true) {h0 h1 h2 st h4 h5 h6 h7 : Byte}
    (hsum : foldBytes s.table 0 [h0, h1, h2, st, h4, h5] = joinBytes h6 h7) :
    exec .parse (s.headed [h0, h1, h2, st, h4, h5, h6, h7]) = .next (s.parsed [h0, h1, h2, st, h4, h5, h6, h7]) := by
  have hfold : (s.headed [h0, h1, h2, st, h4, h5, h6, h7]).checksum (s.headed [h0, h1, h2, st, h4, h5, h6, h7]).responseHeader
      = foldBytes s.table 0 [h0, h1, h2, st, h4, h5] := by
    have hrx : (s.headed [h0, h1, h2, st, h4, h5, h6, h7]).byteAt .rx = (s.loaded .rx [h0, h1, h2, st, h4, h5, h6, h7]).byteAt .rx := by
      funext i; simp [State.headed]
    rw [responseHeader_eq, hrx, map_loaded_byteAt _ _ (by simp)]
    simp [State.headed, State.checksum]
  refine (execParse_of_session (by rwa [headed_hasSession])).trans ?_
  rw [hfold, headed_rx s (by simp), headed_rx s (by simp)]
  exact congrArg (fun c => Host.Outcome.next (finish c _)) (if_pos hsum)

theorem parsed_err (s : State) (header : List Byte) : (s.parsed header).err = 0 := err_finish _ _

@[simp] theorem parsed_hasSession (s : State) (header : List Byte) : (s.parsed header).hasSession = s.hasSession := by
  simp [State.parsed, State.hasSession, extractHeader_reg, headed_reg]

@[simp] theorem parsed_table (s : State) (header : List Byte) : (s.parsed header).table = s.table := by
  have hresets : (s.headed header).resets = s.resets := by simp [State.headed, State.loaded]
  have htbl : (s.headed header).tbl = s.tbl := by simp [State.headed, State.loaded]
  funext b
  simp [State.parsed, State.table, State.tblAt, hresets, htbl]

/-- A byte in the low half of a register. -/
theorem loByte_zeroExtend (b : Byte) : loByte (b.zeroExtend 16) = b := by
  apply BitVec.eq_of_toNat_eq
  rw [loByte_toNat, BitVec.toNat_setWidth_of_le (by decide), Nat.mod_eq_of_lt b.isLt]

/-- RAT, bits 9:8 of RHDR_C, is the access type of the control byte (spec/10_state.md R28). -/
theorem accessType_splitControl (c : Byte) : (splitControl Config.ctrlLayout c).extractLsb' 8 2 = c.extractLsb' 0 2 := by
  obtain ⟨-, hat, -⟩ := splitControl_toNat c
  apply BitVec.eq_of_toNat_eq
  simpa [BitVec.extractLsb'_toNat, Nat.shiftRight_eq_div_pow] using hat

/-- The fields of a checked header as the firmware reads them. -/
theorem parsed_fields (s : State) (h0 h1 h2 st h4 h5 h6 h7 : Byte) :
    ((s.parsed [h0, h1, h2, st, h4, h5, h6, h7]).hostReg .rhdrC).extractLsb' 8 2 = h2.extractLsb' 0 2
      ∧ hiByte ((s.parsed [h0, h1, h2, st, h4, h5, h6, h7]).hostReg .rhdrS) = st
      ∧ loByte ((s.parsed [h0, h1, h2, st, h4, h5, h6, h7]).hostReg .rhdrL) = h5 := by
  have hfull : ∀ v : Word, v &&& 0xFFFF#16 = v := fun _ => BitVec.and_allOnes
  simp [State.hostReg, State.parsed, extractHeader_reg, headed_rx, regMask, hfull, accessType_splitControl, zeroExtend_byte_mask,
    loByte_zeroExtend, -BitVec.truncate_eq_setWidth]

/-! ### PCHK -/

/-- The work of PCHK and its `finish` leave ERR 0 exactly when the payload's checksum is TRAILER. -/
theorem err_of_exec_pchk {s t : State} (hs : s.hasSession = true) (h : exec .pchk s = .next t) :
    t.err = 0 ↔ s.checksum s.payload = s.reg .trailer := by
  rw [err_eq, exec_status_of_session hs h nofun, ← setErr_eq_statusWith, errField_setErr, code_eq_zero_iff, codeOf_pchk_eq_ok_iff]

theorem trailed_reg (s : State) (n : Nat) (t0 t1 : Byte) {r : Reg} (hr : r ∉ ([.trailer, .plen, .cmd] : List Reg)) :
    (s.trailed n t0 t1).reg r = s.reg r := by
  simp only [List.mem_cons, List.not_mem_nil, or_false, not_or] at hr
  simp [State.trailed, hr]

theorem trailed_trailer (s : State) (n : Nat) (t0 t1 : Byte) : (s.trailed n t0 t1).reg .trailer = joinBytes t0 t1 := by
  simp [State.trailed]

@[simp] theorem trailed_hasSession (s : State) (n : Nat) (t0 t1 : Byte) : (s.trailed n t0 t1).hasSession = s.hasSession := by
  simp [State.hasSession, trailed_reg]

@[simp] theorem trailed_checksum (s : State) (n : Nat) (t0 t1 : Byte) (bytes : List Byte) :
    (s.trailed n t0 t1).checksum bytes = s.checksum bytes := by
  simp [State.trailed]

theorem trailed_payloadLen (s : State) {n : Nat} (h : n ≤ 511) (t0 t1 : Byte) : (s.trailed n t0 t1).payloadLen = n := by
  simp [State.trailed, payloadLen_eq]
  omega

/-- The payload PCHK checks is the one stored. -/
theorem trailed_loaded_payload (s : State) {bytes : List Byte} (h : bytes.length ≤ 511) (t0 t1 : Byte) :
    ((s.loaded .pay bytes).trailed bytes.length t0 t1).payload = bytes := by
  have hbyte : ((s.loaded .pay bytes).trailed bytes.length t0 t1).byteAt .pay = (s.loaded .pay bytes).byteAt .pay := by
    funext i; simp [State.trailed]
  rw [payload_eq, trailed_payloadLen _ h, hbyte, map_loaded_byteAt _ _ (Nat.le_refl _), List.take_length]

end Sys2Proof.Machine
end

section
/-! SUPPORT. The ends of an exchange, read off what came on the line (spec/43_firmware_contract.md R153 to R157), and what every receive leaves of the frame. -/

namespace Sys2Proof.Machine

open Sys2Proof.Statement

/-! ### The status -/

/-- Each value of status1 is interpreted as its own (spec/43_firmware_contract.md R153). -/
theorem interpretStatus_named {p : FirmwareParams} (h : p.wf = true) :
    interpretStatus p p.complete = none ∧ interpretStatus p p.incomplete = some .responseIncomplete
      ∧ interpretStatus p p.invalid = some .responseInvalidCommand ∧ interpretStatus p p.noAccess = some .responseNoAccess
      ∧ interpretStatus p p.frameErr = some .responseFrameError := by
  have hdistinct : [p.complete, p.incomplete, p.invalid, p.noAccess, p.frameErr].Nodup := of_decide_eq_true h
  simp only [List.nodup_cons, List.mem_cons, List.not_mem_nil, or_false, not_or] at hdistinct
  simp [interpretStatus, hdistinct, eq_comm]

theorem interpretStatus_unknown {p : FirmwareParams} {st : Byte}
    (h : st ∉ [p.complete, p.incomplete, p.invalid, p.noAccess, p.frameErr]) : interpretStatus p st = some .responseUnknownStatus := by
  simp only [List.mem_cons, List.not_mem_nil, or_false, not_or] at h
  simp [interpretStatus, h]

theorem interpretStatus_eq_none {p : FirmwareParams} {st : Byte} : interpretStatus p st = none ↔ st = p.complete := by
  unfold interpretStatus
  split_ifs <;> simp_all

/-! ### The code of an operation -/

/-- An operation ends with a code the block produces. -/
theorem exec_err_produced {i : Instr} {s t : State} (h : exec i s = .next t) :
    t.err ∈ ([0, 1, 4, 5, 12, 13] : List (BitVec 4)) := by
  obtain ⟨-, -, rfl⟩ | ⟨-, rfl⟩ := exec_cases h
  · rw [err_finish]; decide
  · rw [err_finish]; exact codeOf_produced i s

/-! ### Which end it is -/

section
variable {p : FirmwareParams} {n capacity : Nat} {sent : List Byte} {line rest : List LineEvent} {s t : State} {e : ExchangeEnd}

/-- A header that checks out leads on. -/
theorem ReceiveEnd.of_header {header : List Byte} (h : ReceiveEnd p capacity sent line s e)
    (hheader : readExactly 8 line = (some header, rest)) (hparse : exec .parse (s.headed header) = .next t) (herr : t.err = 0) :
    ∃ e', CheckedEnd p capacity sent rest t e' ∧ e = e'.afterMoves (headerMoves header ++ fieldMoves) := by
  cases h with
  | noHeader hnone => cases hnone.symm.trans hheader
  | rejected hsome hparse' hne =>
    cases hsome.symm.trans hheader
    cases hparse'.symm.trans hparse
    exact absurd herr hne
  | checked hsome hparse' _ hend =>
    cases hsome.symm.trans hheader
    cases hparse'.symm.trans hparse
    exact ⟨_, hend, rfl⟩

theorem CheckedEnd.of_failure {c : ResultCode} (h : CheckedEnd p capacity sent line t e)
    (hstatus : interpretStatus p (hiByte (t.hostReg .rhdrS)) = some c) : e = ⟨t, sent, line, [], .failed c.code, [.endExchange]⟩ := by
  cases h with
  | failure hfailure => cases hfailure.symm.trans hstatus; rfl
  | payload hnone => cases hnone.symm.trans hstatus
  | bare hnone => cases hnone.symm.trans hstatus

theorem CheckedEnd.of_data (h : CheckedEnd p capacity sent line t e) (hstatus : interpretStatus p (hiByte (t.hostReg .rhdrS)) = none)
    (hdata : p.dataBearing ((t.hostReg .rhdrC).extractLsb' 8 2) = true) :
    PayloadEnd ((loByte (t.hostReg .rhdrL)).toNat * 2) capacity sent line t e := by
  cases h with
  | failure hsome => cases hsome.symm.trans hstatus
  | payload _ _ hend => exact hend
  | bare _ hno => cases hno.symm.trans hdata

theorem PayloadEnd.of_payload {bytes : List Byte} {t0 t1 : Byte} {after : List LineEvent} (h : PayloadEnd n capacity sent line s e)
    (hpayload : readPayload n capacity line = ⟨bytes, none, rest⟩) (htrailer : readExactly 2 rest = (some [t0, t1], after)) :
    ∃ u, exec .pchk ((s.loaded .pay bytes).trailed n t0 t1) = .next u ∧ e.block = u ∧ e.line = after ∧ e.buffer = bytes
      ∧ e.verdict = if u.err = 0 then .total (8 + n) else .failed u.err := by
  cases h with
  | unread hfailure => rw [hpayload] at hfailure; cases hfailure
  | noTrailer _ hnone => rw [hpayload] at hnone; cases hnone.symm.trans htrailer
  | checked _ hsome hcheck =>
    rw [hpayload] at hsome hcheck ⊢
    cases hsome.symm.trans htrailer
    exact ⟨_, hcheck, rfl, rfl, rfl, rfl⟩

/-! ### What every receive does -/

/-- Receiving a payload fails with no code but those of a payload read and of PCHK. -/
theorem PayloadEnd.failed_code {c : BitVec 4} (h : PayloadEnd n capacity sent line s e) (hc : e.verdict = .failed c) :
    c ∈ ([0, 1, 3, 4, 5, 11, 12, 13] : List (BitVec 4)) := by
  cases h with
  | unread hpayload =>
    cases hc
    obtain ⟨-, -, ⟨hnone, -⟩ | htimeout | ⟨hoverflow, -⟩⟩ := readPayload_bounds n capacity line
    · cases hnone.symm.trans hpayload
    · cases htimeout.symm.trans hpayload; decide
    · cases hoverflow.symm.trans hpayload; decide
  | noTrailer => cases hc; decide
  | @checked _ _ _ u _ _ hcheck =>
    have hproduced := exec_err_produced hcheck
    by_cases herr : u.err = 0
    · rw [if_pos herr] at hc; cases hc
    · rw [if_neg herr] at hc
      cases hc
      simp only [List.mem_cons] at hproduced ⊢
      tauto

/-- `t` has the frame of `s`: TX, TXLEN and SEQ are as they were. -/
def FrameKept (s t : State) : Prop :=
  t.reg .txlen = s.reg .txlen ∧ t.reg .seq = s.reg .seq ∧ t.byteAt .tx = s.byteAt .tx

theorem FrameKept.refl (s : State) : FrameKept s s := ⟨rfl, rfl, rfl⟩

theorem FrameKept.trans {u : State} (h : FrameKept s t) (h' : FrameKept t u) : FrameKept s u := by
  obtain ⟨htxlen, hseq, htx⟩ := h
  obtain ⟨htxlen', hseq', htx'⟩ := h'
  exact ⟨htxlen'.trans htxlen, hseq'.trans hseq, htx'.trans htx⟩

/-- PARSE and PCHK keep the frame. -/
theorem exec_keeps_frame {i : Instr} (hi : i = .parse ∨ i = .pchk) (h : exec i s = .next t) : FrameKept s t := by
  have hbuild : ∀ ty, i ≠ .build ty := by rcases hi with rfl | rfl <;> nofun
  have hregs : Reg.txlen ∉ regsWritten i ∧ Reg.seq ∉ regsWritten i := by rcases hi with rfl | rfl <;> decide
  have htx := exec_bytes h (sp := .tx) fun _ ty he => absurd he (hbuild ty)
  refine ⟨exec_reg_of_not_written h hregs.1, exec_reg_of_not_written h hregs.2, ?_⟩
  funext k
  simp [State.byteAt, htx, exec_resets h]

theorem headed_keeps_frame (s : State) (header : List Byte) : FrameKept s (s.headed header) := by
  refine ⟨by simp [State.headed], by simp [State.headed], ?_⟩
  funext k; simp [State.headed]

theorem loaded_keeps_frame (s : State) (bytes : List Byte) : FrameKept s (s.loaded .pay bytes) :=
  ⟨by simp, by simp, by funext k; simp⟩

theorem trailed_keeps_frame (s : State) (n : Nat) (t0 t1 : Byte) : FrameKept s (s.trailed n t0 t1) := by
  refine ⟨by simp [State.trailed], by simp [State.trailed], ?_⟩
  funext k; simp [State.trailed]

theorem PayloadEnd.keeps_frame (h : PayloadEnd n capacity sent line s e) : FrameKept s e.block := by
  cases h with
  | unread => exact .refl s
  | noTrailer => exact (loaded_keeps_frame s (readPayload n capacity line).stored).trans ⟨by simp, by simp, by funext k; simp⟩
  | checked _ _ hcheck =>
    exact ((loaded_keeps_frame s _).trans (trailed_keeps_frame _ n _ _)).trans (exec_keeps_frame (.inr rfl) hcheck)

theorem CheckedEnd.keeps_frame (h : CheckedEnd p capacity sent line s e) : FrameKept s e.block := by
  cases h with
  | failure | bare => exact .refl s
  | payload _ _ hend => exact hend.keeps_frame

/-- A receive keeps the frame that was sent. -/
theorem ReceiveEnd.keeps_frame (h : ReceiveEnd p capacity sent line s e) : FrameKept s e.block := by
  cases h with
  | noHeader => exact .refl s
  | rejected _ hparse => exact (headed_keeps_frame s _).trans (exec_keeps_frame (.inl rfl) hparse)
  | checked _ hparse _ hend => exact ((headed_keeps_frame s _).trans (exec_keeps_frame (.inl rfl) hparse)).trans hend.keeps_frame

end

end Sys2Proof.Machine
end

section
/-! The statements of the firmware's exchange, settled. -/

namespace Sys2Proof.Machine

open Sys2Proof.Statement

/-- Settles O44: the header checks out, and the end is the one its status selects; behind `complete` only a payload read and PCHK can fail. -/
theorem statusOneDecidesTheFailure : Obligations.StatusOneDecidesTheFailure := by
  intro p s h0 h1 h2 st h4 h5 h6 h7 capacity sent line hp hs hsum
  obtain ⟨e, he, hend⟩ := receive_end p capacity sent ([h0, h1, h2, st, h4, h5, h6, h7].map LineEvent.byte ++ line) s
  obtain ⟨e', hchecked, rfl⟩ := hend.of_header (readExactly_of_bytes [h0, h1, h2, st, h4, h5, h6, h7] line)
    (exec_parse_headed hs hsum) (parsed_err _ _)
  obtain ⟨-, hst, -⟩ := parsed_fields s h0 h1 h2 st h4 h5 h6 h7
  have hfailure : ∀ {c}, interpretStatus p st = some c →
      e' = ⟨s.parsed [h0, h1, h2, st, h4, h5, h6, h7], sent, line, [], .failed c.code, [.endExchange]⟩ :=
    fun hc => hchecked.of_failure (by rwa [hst])
  obtain ⟨-, hincomplete, hinvalid, hnoAccess, hframeErr⟩ := interpretStatus_named hp
  refine ⟨_, he, ?_, ?_, ?_, ?_, fun h => ?_, fun h => ?_, fun h c hc hverdict => ?_⟩
  · rintro rfl; rw [hfailure hincomplete]; rfl
  · rintro rfl; rw [hfailure hinvalid]; rfl
  · rintro rfl; rw [hfailure hnoAccess]; rfl
  · rintro rfl; rw [hfailure hframeErr]; rfl
  · rw [hfailure (interpretStatus_unknown h)]; rfl
  · obtain ⟨c, hc⟩ := Option.ne_none_iff_exists'.mp (mt interpretStatus_eq_none.mp h)
    rw [hfailure hc]
    exact ⟨rfl, rfl⟩
  · have hnone := interpretStatus_eq_none.mpr h
    rw [← hst] at hnone
    cases hchecked with
    | failure hsome => cases hsome.symm.trans hnone
    | bare => cases hverdict
    | payload _ _ hpayload =>
      have hother : ∀ c ∈ ([6, 7, 8, 9, 10] : List (BitVec 4)), c ∉ ([0, 1, 3, 4, 5, 11, 12, 13] : List (BitVec 4)) := by decide
      exact hother c hc (hpayload.failed_code hverdict)

/-- Settles O45: access type 0 fails in BUILD, and a write that is not the frame's length fails behind it. -/
theorem sendFailuresEndTheExchange : Obligations.SendFailuresEndTheExchange := by
  intro p q capacity written line s hs hq
  refine ⟨fun hty => ?_, fun hty hw => ?_⟩
  · have hbuild : exec (.build q.ty) (q.commanded s) = .next (finish .invalidAccessType (q.commanded s).advanceSeq) := by
      rw [hty]; exact execBuild_unused (by rwa [commanded_hasSession])
    have herr : (finish .invalidAccessType (q.commanded s).advanceSeq).err = 1 := err_finish _ _
    exact ⟨_, exchange_of_failed_build hq p capacity written line s hbuild (by rw [herr]; decide), congrArg _ herr, rfl, rfl⟩
  · rw [← frameSize_eq] at hw
    refine ⟨_, exchange_of_shortfall hq p capacity written line s (exec_build_commanded hs hty) hw, rfl, rfl, rfl, ?_⟩
    rw [framed_txlen hq, State.frame, framed_hostTxlen hq]

/-! ### The echo -/

/-- The echo's control byte carries the command's access type. -/
theorem accessType_of_control (k : Nat) (c : BitVec 2) : (BitVec.ofNat 8 (k % 16 * 4 + c.toNat)).extractLsb' 0 2 = c := by
  apply BitVec.eq_of_toNat_eq
  simp [BitVec.extractLsb'_toNat]
  omega

/-- Bytes with their checksum behind them, big-endian. -/
def checksummed (T : Byte → Word) (bytes : List Byte) : List Byte := bytes ++ bigEndian (foldBytes T 0 bytes)

/-- A response that is complete and bears data, with right checksums and a payload that fits, is received whole. -/
theorem receive_of_response {p : FirmwareParams} {s : State} (hs : s.hasSession = true) {capacity : Nat} {payload : List Byte}
    {h0 h1 h2 h4 h5 : Byte} (hlen : h5.toNat * 2 = payload.length) (hroom : payload.length ≤ capacity)
    (hdata : p.dataBearing (h2.extractLsb' 0 2) = true) (sent : List Byte) (line : List LineEvent) :
    ∃ e, receive p capacity sent
        ((checksummed s.table [h0, h1, h2, p.complete, h4, h5] ++ checksummed s.table payload).map LineEvent.byte ++ line) s = .next e
      ∧ e.sent = sent ∧ FrameKept s e.block ∧ e.verdict = .total (8 + payload.length) ∧ e.buffer = payload ∧ e.line = line
      ∧ e.block.err = 0 := by
  obtain ⟨k0, k1, hk⟩ : ∃ k0 k1, bigEndian (foldBytes s.table 0 [h0, h1, h2, p.complete, h4, h5]) = [k0, k1] := ⟨_, _, rfl⟩
  obtain ⟨t0, t1, ht⟩ : ∃ t0 t1, bigEndian (foldBytes s.table 0 payload) = [t0, t1] := ⟨_, _, rfl⟩
  have hjoin : ∀ {v a b}, bigEndian v = [a, b] → v = joinBytes a b := by
    rintro v _ _ ⟨⟩; exact (joinBytes_hi_lo v).symm
  have hline : (checksummed s.table [h0, h1, h2, p.complete, h4, h5] ++ checksummed s.table payload).map LineEvent.byte ++ line
      = [h0, h1, h2, p.complete, h4, h5, k0, k1].map LineEvent.byte
        ++ (payload.map LineEvent.byte ++ ([t0, t1].map LineEvent.byte ++ line)) := by
    simp only [checksummed, hk, ht, List.map_append, List.append_assoc]
    rfl
  rw [hline]
  obtain ⟨e, he, hend⟩ := receive_end p capacity sent _ s
  refine ⟨e, he, hend.sent_and_buffer.1, hend.keeps_frame, ?_⟩
  obtain ⟨e', hchecked, rfl⟩ := hend.of_header (readExactly_of_bytes [h0, h1, h2, p.complete, h4, h5, k0, k1] _)
    (exec_parse_headed hs (hjoin hk)) (parsed_err _ _)
  obtain ⟨hat, hstatus, hwords⟩ := parsed_fields s h0 h1 h2 p.complete h4 h5 k0 k1
  have hpayload := hchecked.of_data (by rw [hstatus]; exact interpretStatus_eq_none.mpr rfl) (by rwa [hat])
  rw [hwords, hlen] at hpayload
  obtain ⟨u, hcheck, hblock, hrest, hbuffer, hverdict⟩ := hpayload.of_payload (readPayload_of_bytes payload _ hroom)
    (readExactly_of_bytes [t0, t1] line)
  have hu : u.err = 0 := by
    rw [err_of_exec_pchk (by simpa using hs) hcheck, trailed_loaded_payload _ (by omega), trailed_trailer, ← hjoin ht,
      trailed_checksum, State.checksum, loaded_table, parsed_table]
  exact ⟨by simpa [hu] using hverdict, hbuffer, hrest, by rwa [afterMoves_block, hblock]⟩

/-- Settles O47: the echo is a response with right checksums, and the frame sent stays in TX. -/
theorem echoReturnsThePayload : Obligations.EchoReturnsThePayload := by
  intro p q s capacity m st2 line hs hty hlen heven hroom hdata control h hc pc echo size
  have hq : q.wf = true := (wf_iff q).mpr (by omega)
  have hlegal : q.ty ≠ .unused := by rcases hty with h | h <;> rw [h] <;> nofun
  have hwords : (BitVec.ofNat 8 (q.payload.length / 2)).toNat * 2 = q.payload.length := by
    rw [BitVec.toNat_ofNat]
    omega
  obtain ⟨e, he, hsent, ⟨htxlen, hseq, htx⟩, hverdict, hbuffer, hline, herr⟩ :=
    receive_of_response (s := q.framed s) (h0 := m) (h1 := 0xFF#8) (h2 := control) (h4 := st2) (by rwa [framed_hasSession]) hwords hroom
      (by rwa [accessType_of_control]) (q.framed s).frame line
  have hecho : checksummed (q.framed s).table [m, 0xFF#8, control, p.complete, st2, BitVec.ofNat 8 (q.payload.length / 2)]
      ++ checksummed (q.framed s).table q.payload = echo := by
    rw [framed_table]
    exact (List.append_assoc _ _ _).symm
  rw [hecho] at he
  refine ⟨_, (exchange_of_sent hq p capacity _ s (exec_build_commanded hs hlegal)).trans (congrArg (andThen · _) he), hverdict, hbuffer,
    hline, ?_, ?_, ?_, ?_, ?_, ?_⟩
  · exact (congrArg List.length hsent).trans (length_framed_frame hq s)
  · exact (congrArg BitVec.toNat htxlen).trans (framed_txlen hq s)
  · exact hsent.trans ((framed_frame hq s).trans (by rw [afterMoves_block, htx]; rfl))
  · rw [afterMoves_sent, hsent, framed_frame_payload hq]
  · rwa [← err_eq]
  · exact (congrArg BitVec.toNat hseq).trans (framed_seq q s)

/-! ### The facade -/

/-- What an exchange with the whole frame sent sends and stores (spec/43_firmware_contract.md R162). -/
theorem sends_of_exchange {q : Request} (hq : q.wf = true) (hty : q.ty ≠ .unused) {s : State} (hs : s.hasSession = true)
    (p : FirmwareParams) (capacity : Nat) (line : List LineEvent) :
    Sends (exchange p q capacity (frameSize q.payload) line s) q.ty.code.toNat q.index q.offset
      ((if q.ty = .read then q.responseLen.toNat else q.payload.length) / 2) q.payload capacity := by
  obtain ⟨e, he, hend⟩ := receive_end p capacity (q.framed s).frame line (q.framed s)
  obtain ⟨hsent, hbuffer⟩ := hend.sent_and_buffer
  have hlen := (wf_iff q).mp hq
  have hsize : 8 ≤ frameSize q.payload := by rw [frameSize_eq]; split <;> omega
  obtain ⟨-, -, -, hindex, hoffset, hcount, -⟩ := built_tx_header (q.commanded s) q.ty
  obtain ⟨hat, -⟩ := built_control_fields (q.commanded s) q.ty
  refine ⟨_, (exchange_of_sent hq p capacity line s (exec_build_commanded hs hty)).trans (congrArg (andThen · _) he), ?_⟩
  simp only [afterMoves_sent, afterMoves_buffer, hsent]
  refine ⟨length_framed_frame hq s, ?_, ?_, ?_, ?_, framed_frame_payload hq s, hbuffer⟩
  · rw [framed_frame_getD hq s (by omega)]; exact hat
  · rw [framed_frame_getD hq s (by omega)]
    exact hindex.trans (by rw [commanded_reg q s (by decide), stored_reg, loByte_zeroExtend])
  · rw [framed_frame_getD hq s (by omega)]
    exact hoffset.trans (by rw [commanded_reg q s (by decide), stored_reg, loByte_zeroExtend])
  · rw [framed_frame_getD hq s (by omega)]
    refine (congrArg BitVec.toNat hcount).trans ?_
    rw [wordCount_toNat, commanded_reg q s (by decide), commanded_reg q s (by decide), stored_reg, stored_reg]
    simp only [len9, BitVec.truncate_eq_setWidth, BitVec.toNat_setWidth, BitVec.toNat_ofNat]
    split <;> omega

theorem sends_getString (p : FirmwareParams) (index offset : Byte) (maxSize : BitVec 9) (line : List LineEvent) {s : State}
    (hs : s.hasSession = true) :
    Sends (getString p index offset maxSize 8 line s) 1 index offset (maxSize.toNat / 2) [] maxSize.toNat :=
  sends_of_exchange (q := readRequest index offset maxSize) rfl nofun hs p maxSize.toNat line

theorem sends_writeString (p : FirmwareParams) (index offset : Byte) {bytes : List Byte} (h : bytes.length ≤ 511)
    (line : List LineEvent) {s : State} (hs : s.hasSession = true) :
    Sends (writeString p index offset bytes (frameSize bytes) line s) 2 index offset (bytes.length / 2) bytes 0 :=
  sends_of_exchange (q := writeRequest index offset bytes) ((wf_iff _).mpr h) nofun hs p 0 line

/-- Settles O48: every call of the facade is `getString` or `writeString`. -/
theorem facadeCallsAreExchanges : Obligations.FacadeCallsAreExchanges := by
  intro p index offset line s hs
  exact ⟨fun maxSize => sends_getString p index offset maxSize line hs, sends_getString p index offset 2 line hs,
    sends_getString p index offset 4 line hs, fun bytes h => sends_writeString p index offset h line hs,
    fun b0 b1 => by simpa [writeUint16, frameSize] using sends_writeString p index offset (bytes := [b0, b1]) (by simp) line hs,
    fun b0 b1 b2 b3 => by
      simpa [writeUint32, frameSize] using sends_writeString p index offset (bytes := [b0, b1, b2, b3]) (by simp) line hs,
    fun c => ⟨fun h => sends_writeString p _ _ h line hs, sends_getString p _ _ _ line hs, fun n => sends_getString p _ _ _ line hs⟩⟩

end Sys2Proof.Machine
end

section
/-! SUPPORT. The host's contract, said once: what an allowed move is, row by row, and what a move does to the record (spec/43_firmware_contract.md R163). -/

namespace Sys2Proof.Machine

open Sys2Proof.Statement

/-! ### The moves the contract allows -/

/-- A write of a register, a byte or an element is allowed to the caller the block is free for. -/
theorem moveAllowed_access {e : HostEvent} (hread : isHostRead e = false) (hreset : e ≠ .hardReset) (even : Bool) (r : HostRecord)
    (caller : Nat) (s : State) :
    moveAllowed even r caller (.access e) s = (r.freeFor caller && writeAllowed even r e s) := by
  cases e <;> simp_all [moveAllowed, isHostRead]

theorem moveAllowed_hostRead {e : HostEvent} (hread : isHostRead e = true) (even : Bool) (r : HostRecord) (caller : Nat) (s : State) :
    moveAllowed even r caller (.access e) s = e.wf := by
  cases e <;> simp_all [moveAllowed, isHostRead]

/-- The contract on an operation. -/
theorem moveAllowed_operation {w : Word} {i : Instr} (hw : decode w = .op i) {even : Bool} {r : HostRecord} {caller : Nat} {s : State} :
    moveAllowed even r caller (.access (.regWrite 0 w)) s = true
      ↔ r.freeFor caller = true ∧ r.phase ≠ .built ∧ operationAllowed even r i s = true := by
  rw [moveAllowed_access (e := .regWrite 0 w) rfl nofun]
  simp [writeAllowed, regOfNumber, regAccess, hw]

/-- No Illegal word is a move of this host. -/
theorem op_of_moveAllowed {w : Word} {even : Bool} {r : HostRecord} {caller : Nat} {s : State}
    (h : moveAllowed even r caller (.access (.regWrite 0 w)) s = true) : ∃ i, decode w = .op i := by
  cases hw : decode w with
  | op i => exact ⟨i, rfl⟩
  | illegal c =>
    rw [moveAllowed_access (e := .regWrite 0 w) rfl nofun] at h
    simp [writeAllowed, regOfNumber, regAccess, hw] at h

theorem moveAllowed_regWrite {n : Nat} {q : Reg} (hn : regOfNumber n = some q) (hq : regAccess q = .rw) {even : Bool} {r : HostRecord}
    {caller : Nat} {s : State} (v : Word) :
    moveAllowed even r caller (.access (.regWrite n v)) s = true ↔ r.freeFor caller = true := by
  rw [moveAllowed_access (e := .regWrite n v) rfl nofun]
  simp [writeAllowed, hn, hq]

theorem moveAllowed_byteWrite {sp : ByteSpace} {i : Nat} {even : Bool} {r : HostRecord} {caller : Nat} {s : State} (v : Byte) :
    moveAllowed even r caller (.access (.byteWrite sp i v)) s = true
      ↔ r.freeFor caller = true ∧ hostWritable sp = true ∧ i < sp.size := by
  rw [moveAllowed_access (e := .byteWrite sp i v) rfl nofun]
  simp [writeAllowed]

/-- INIT comes before any other operation. -/
theorem created_of_operationAllowed {even : Bool} {r : HostRecord} {i : Instr} {s : State} (h : operationAllowed even r i s = true)
    (hi : i ≠ .init) : r.created = true := by
  cases i <;> simp_all [operationAllowed]

theorem operationAllowed_build {even : Bool} {r : HostRecord} {ty : AccessType} {s : State} :
    operationAllowed even r (.build ty) s = true ↔ r.created = true ∧ r.phase ≠ .outstanding ∧ r.phase.awaitsCompare = false
      ∧ (Reg.index ∈ r.operands ∧ Reg.offset ∈ r.operands ∧ Reg.plen ∈ r.operands) ∧ (ty = .read → Reg.rlen ∈ r.operands)
      ∧ s.payloadWritten = true ∧ (even = true → s.payloadLen % 2 = 0) := by
  cases even <;> simp [operationAllowed, and_assoc, imp_iff_not_or]

theorem operationAllowed_parse {even : Bool} {r : HostRecord} {s : State} :
    operationAllowed even r .parse s = true ↔ r.created = true ∧ r.phase.awaitsCompare = false ∧ ∀ k < 8, k ∈ r.header := by
  simp [operationAllowed, and_assoc]

theorem operationAllowed_pchk {even : Bool} {r : HostRecord} {s : State} :
    operationAllowed even r .pchk s = true ↔ r.created = true ∧ r.phase.awaitsCompare = false
      ∧ (Reg.plen ∈ r.operands ∧ Reg.trailer ∈ r.operands) ∧ s.payloadWritten = true := by
  simp [operationAllowed, and_assoc]

/-- `PAY[0..PLEN-1]` is written where the operation reads it. -/
theorem payloadWritten_of_operationAllowed {even : Bool} {r : HostRecord} {i : Instr} {s : State}
    (h : operationAllowed even r i s = true) (hi : readsPayload i = true) :
    ∀ k < len9 (s.reg .plen), (Memory.read? (s.bytes .pay) k).isSome = true := by
  rw [← payloadLen_eq_len9]
  cases i with
  | build ty => exact (payloadWritten_iff s).mp (operationAllowed_build.mp h).2.2.2.2.2.1
  | pchk => exact (payloadWritten_iff s).mp (operationAllowed_pchk.mp h).2.2.2
  | init | crcclr | crcfold b | parse => cases hi

/-- Every element of the table an operation reads exists. -/
theorem tableIndexRead_lt {i : Instr} {s : State} {k : Nat} (h : tableIndexRead i s k) : k < 256 := by
  cases i with
  | init | crcclr => exact h.elim
  | crcfold b =>
    obtain rfl : k = ((s.reg .acc).toNat / 256) ^^^ b.toNat := h
    exact Nat.xor_lt_two_pow (n := 8) (by omega) b.isLt
  | build ty | parse | pchk => exact h

/-- The frame to send, with TXLEN as a number. -/
theorem frame_eq (s : State) : s.frame = (List.range ((s.reg .txlen).toNat % 1024)).map (s.byteAt .tx) := by
  simp [State.frame, hostTxlen_toNat, State.bytesFrom]

theorem awaitsCompare_iff {φ : SendPhase} : φ.awaitsCompare = true ↔ ∃ n, φ = .transmitted n := by
  cases φ <;> simp [SendPhase.awaitsCompare]

/-- A transmission is allowed of the frame, its ERR read and found 0. -/
theorem moveAllowed_transmit {even : Bool} {r : HostRecord} {caller : Nat} {bytes : List Byte} {written : Nat} {s : State} :
    moveAllowed even r caller (.transmit bytes written) s = true
      ↔ r.freeFor caller = true ∧ r.phase = .ready ∧ bytes = s.frame := by
  simp [moveAllowed, and_assoc]

theorem moveAllowed_compareCount {even : Bool} {r : HostRecord} {caller : Nat} {s : State} :
    moveAllowed even r caller .compareCount s = true ↔ r.freeFor caller = true ∧ ∃ n, r.phase = .transmitted n := by
  simp [moveAllowed, awaitsCompare_iff]

theorem moveAllowed_endExchange {even : Bool} {r : HostRecord} {caller : Nat} {s : State} :
    moveAllowed even r caller .endExchange s = true
      ↔ r.freeFor caller = true ∧ r.phase.awaitsCompare = false ∧ r.phase ≠ .built := by
  simp [moveAllowed, and_assoc]

/-- While another caller holds the block only reads and the hard reset are allowed. -/
theorem leavesTheBlockToItsHolder_of_moveAllowed {even : Bool} {r : HostRecord} {caller : Nat} {m : HostMove} {s : State}
    (h : moveAllowed even r caller m s = true) (hfree : r.freeFor caller = false) : leavesTheBlockToItsHolder m := by
  cases m with
  | access e =>
    refine ⟨e, rfl, ?_⟩
    by_contra hother
    obtain ⟨hread, hreset⟩ := not_or.mp hother
    simp [moveAllowed_access (Bool.eq_false_iff.mpr hread) hreset, hfree] at h
  | transmit bytes written | compareCount | useHeader | endExchange => simp [moveAllowed, hfree] at h

/-- Before the count is compared no frame is built and nothing received is checked. -/
theorem not_awaitsCompare_of_operationAllowed {even : Bool} {r : HostRecord} {i : Instr} {s : State}
    (h : operationAllowed even r i s = true) (hi : (∃ ty, i = .build ty) ∨ i = .parse ∨ i = .pchk) : r.phase.awaitsCompare = false := by
  rcases hi with ⟨ty, rfl⟩ | rfl | rfl
  · exact (operationAllowed_build.mp h).2.2.1
  · exact (operationAllowed_parse.mp h).2.1
  · exact (operationAllowed_pchk.mp h).2.1

/-! ### What a move does to the record -/

/-- What a move does to the record: one constructor for each kind of move the record notes, and one for those it does not. -/
inductive RecordStep (r : HostRecord) (caller : Nat) (s : State) : HostMove → HostRecord → Prop
  | hardReset : RecordStep r caller s (.access .hardReset) HostRecord.initial
  | statusRead (hfree : r.freeFor caller = true) : RecordStep r caller s (.access (.regRead 1)) (r.statusRead (errField (s.reg .status)))
  | operation {w : Word} {i : Instr} (hw : decode w = .op i) :
      RecordStep r caller s (.access (.regWrite 0 w)) { r.issued i with holder := some caller }
  | illegal {w : Word} {c : IllegalReason} (hw : decode w = .illegal c) :
      RecordStep r caller s (.access (.regWrite 0 w)) { r with last := none, holder := some caller }
  | operand {q : Reg} {v : Word} (hq : q ≠ .cmd) :
      RecordStep r caller s (.access (.regWrite (regNumber q) v)) { r with operands := q :: r.operands, holder := some caller }
  | byte {sp : ByteSpace} {i : Nat} {v : Byte} :
      RecordStep r caller s (.access (.byteWrite sp i v))
        { r with header := if sp = .rx then i :: r.header else r.header, holder := some caller }
  | transmit {bytes : List Byte} {n : Nat} : RecordStep r caller s (.transmit bytes n) { r with phase := .transmitted n }
  | compare {n : Nat} (hphase : r.phase = .transmitted n) :
      RecordStep r caller s .compareCount
        { r with phase := if n = (s.reg .txlen).toNat % 1024 then .outstanding else .idle }
  | endExchange : RecordStep r caller s .endExchange { r with phase := .idle, holder := none }
  | unnoted {m : HostMove} (hreset : m ≠ .access .hardReset) (hstatus : ¬ReadsStatus r caller m)
      (hreg : ∀ q v, m ≠ .access (.regWrite (regNumber q) v)) (hbyte : ∀ sp i v, m ≠ .access (.byteWrite sp i v))
      (htransmit : ∀ bytes n, m ≠ .transmit bytes n) (hcompare : ∀ n, r.phase = .transmitted n → m ≠ .compareCount)
      (hend : m ≠ .endExchange) : RecordStep r caller s m r

theorem readsStatus_regRead {r : HostRecord} {caller n : Nat} :
    ReadsStatus r caller (.access (.regRead n)) ↔ n = 1 ∧ r.freeFor caller = true := by
  simp [ReadsStatus, freeFor_iff]

/-- An Illegal word. -/
theorem after_illegal {w : Word} {c : IllegalReason} (h : decode w = .illegal c) (r : HostRecord) (caller : Nat) (s : State) :
    r.after caller (.access (.regWrite 0 w)) s = { r with last := none, holder := some caller } := by
  simp [HostRecord.after, HostRecord.accessed, regOfNumber, h]

/-- The record after a write of a register. -/
theorem recordStep_regWrite (r : HostRecord) (caller n : Nat) (v : Word) (s : State) :
    RecordStep r caller s (.access (.regWrite n v)) (r.after caller (.access (.regWrite n v)) s) := by
  cases hn : regOfNumber n with
  | none =>
    have hreg : ∀ q w, HostMove.access (.regWrite n v) ≠ .access (.regWrite (regNumber q) w) := by
      rintro q w ⟨⟩
      rw [regOfNumber_regNumber] at hn
      cases hn
    have hsame : r.after caller (.access (.regWrite n v)) s = r := by simp [HostRecord.after, HostRecord.accessed, hn]
    rw [hsame]
    exact .unnoted nofun nofun hreg nofun nofun nofun nofun
  | some q =>
    obtain ⟨rfl, -⟩ := regOfNumber_eq_some hn
    by_cases hq : q = .cmd
    · subst hq
      cases hw : decode v with
      | op i => rw [show regNumber .cmd = 0 from rfl, after_operation hw]; exact .operation hw
      | illegal c => rw [show regNumber .cmd = 0 from rfl, after_illegal hw]; exact .illegal hw
    · rw [after_regWrite hq]; exact .operand hq

/-- Every move does to the record one of the things of `RecordStep`. -/
theorem recordStep_after (r : HostRecord) (caller : Nat) (m : HostMove) (s : State) : RecordStep r caller s m (r.after caller m s) := by
  cases m with
  | transmit bytes n => exact .transmit
  | useHeader => exact .unnoted nofun nofun nofun nofun nofun nofun nofun
  | endExchange => exact .endExchange
  | compareCount =>
    by_cases hphase : ∃ n, r.phase = .transmitted n
    · obtain ⟨n, hphase⟩ := hphase
      simpa [HostRecord.after, hphase, hostTxlen_toNat] using RecordStep.compare (caller := caller) (s := s) hphase
    · have hsame : r.after caller .compareCount s = r := by
        cases hr : r.phase <;> simp_all [HostRecord.after]
      rw [hsame]
      exact .unnoted nofun nofun nofun nofun nofun (fun n hn => absurd ⟨n, hn⟩ hphase) nofun
  | access e =>
    cases e with
    | regWrite n v => exact recordStep_regWrite r caller n v s
    | byteWrite sp i v => exact .byte
    | hardReset => exact .hardReset
    | tblRead i | tblWrite i v | byteRead sp i => exact .unnoted nofun nofun nofun nofun nofun nofun nofun
    | regRead n =>
      by_cases hstatus : n = 1 ∧ r.freeFor caller = true
      · obtain ⟨rfl, hfree⟩ := hstatus
        rw [after_statusRead hfree]
        exact .statusRead hfree
      · rw [after_regRead (by simpa [Classical.or_iff_not_imp_left] using hstatus)]
        exact .unnoted nofun (mt readsStatus_regRead.mp hstatus) nofun nofun nofun nofun nofun

/-! ### What an operation notes -/

section
variable (r : HostRecord) (i : Instr)

theorem issued_created : (r.issued i).created = true ↔ r.created = true ∨ i = .init := by cases i <;> simp [HostRecord.issued]

@[simp] theorem issued_operands : (r.issued i).operands = r.operands := by cases i <;> rfl

theorem mem_issued_header (k : Nat) : k ∈ (r.issued i).header ↔ (∀ ty, i ≠ .build ty) ∧ k ∈ r.header := by
  cases i <;> simp [HostRecord.issued]

@[simp] theorem issued_last : (r.issued i).last = some i := by cases i <;> rfl

theorem issued_headerChecked : (r.issued i).headerChecked = true ↔ i ≠ .parse ∧ r.headerChecked = true := by
  cases i <;> simp [HostRecord.issued]

theorem issued_phase_of_ne {i : Instr} (h : ∀ ty, i ≠ .build ty) : (r.issued i).phase = r.phase := by
  cases i with
  | build ty => exact absurd rfl (h ty)
  | init | crcclr | crcfold b | parse | pchk => rfl

end

@[simp] theorem issues_command {w : Word} {i : Instr} : Issues (.access (.regWrite 0 w)) i ↔ decode w = .op i := by
  simp [Issues]

/-- A write of another register issues nothing. -/
theorem not_issues_operand {q : Reg} (hq : q ≠ .cmd) (v : Word) (i : Instr) : ¬Issues (.access (.regWrite (regNumber q) v)) i := by
  rintro ⟨w, hm, -⟩
  exact hq (regNumber_inj.mp (HostEvent.regWrite.inj (HostMove.access.inj hm)).1)

/-- Nor does a move that writes no register. -/
theorem not_issues_of_no_regWrite {m : HostMove} (h : ∀ q v, m ≠ .access (.regWrite (regNumber q) v)) (i : Instr) : ¬Issues m i := by
  rintro ⟨w, hm, -⟩
  exact h .cmd w hm

end Sys2Proof.Machine
end

section
/-! The statements of the host's contract on one move, settled. -/

namespace Sys2Proof.Machine

open Sys2Proof.Statement

/-- Settles O49: each row read off the contract on the kind of move it speaks of. -/
theorem hostContractRows : Obligations.HostContractRows := by
  refine ⟨fun even r caller m s h => ⟨?_, ?_, ?_, ?_, fun n hn => ?_, fun other hother hne => ?_, ?_⟩,
    fun even r caller e s hread hwf => (moveAllowed_hostRead hread ..).trans hwf, fun even r caller s hfree => ?_⟩
  · rintro w i rfl hw
    obtain ⟨-, hphase, hop⟩ := (moveAllowed_operation hw).mp h
    refine ⟨created_of_operationAllowed hop, hphase, ?_, ?_, ?_⟩
    · rintro ty rfl
      obtain ⟨-, houtstanding, -, ⟨hindex, hoffset, hplen⟩, hrlen, -, heven⟩ := operationAllowed_build.mp hop
      exact ⟨houtstanding, hindex, hoffset, hplen, hrlen, payloadWritten_of_operationAllowed hop rfl, payloadLen_eq_len9 s ▸ heven⟩
    · rintro rfl
      exact (operationAllowed_parse.mp hop).2.2
    · rintro rfl
      obtain ⟨-, -, ⟨hplen, htrailer⟩, -⟩ := operationAllowed_pchk.mp hop
      exact ⟨hplen, htrailer, payloadWritten_of_operationAllowed hop rfl⟩
  · rintro bytes written rfl
    obtain ⟨-, hphase, hbytes⟩ := moveAllowed_transmit.mp h
    exact ⟨hphase, hbytes.trans (frame_eq s)⟩
  · rintro rfl
    simp only [moveAllowed, Bool.and_eq_true] at h
    exact h.2
  · rintro rfl
    exact (moveAllowed_endExchange.mp h).2.2
  · have hwaits : ∀ i, (∃ ty, i = .build ty) ∨ i = .parse ∨ i = .pchk → ¬Issues m i := by
      rintro i hi ⟨w, rfl, hw⟩
      obtain ⟨-, -, hop⟩ := (moveAllowed_operation hw).mp h
      have hno := not_awaitsCompare_of_operationAllowed hop hi
      rw [hn] at hno
      cases hno
    refine ⟨?_, fun ty => hwaits _ (.inl ⟨ty, rfl⟩), hwaits _ (.inr (.inl rfl)), hwaits _ (.inr (.inr rfl))⟩
    rintro rfl
    have hno := (moveAllowed_endExchange.mp h).2.1
    rw [hn] at hno
    cases hno
  · refine leavesTheBlockToItsHolder_of_moveAllowed h (Bool.eq_false_iff.mpr ?_)
    simp [freeFor_iff, hother, hne]
  · rintro e rfl
    exact wf_of_moveAllowed h
  · have hfree := (freeFor_iff r caller).mpr hfree
    refine ⟨fun n q bits v hmem => ?_, fun i v hi => (moveAllowed_byteWrite v).mpr ⟨hfree, rfl, hi⟩,
      fun i v hi => (moveAllowed_byteWrite v).mpr ⟨hfree, rfl, hi⟩⟩
    obtain ⟨hn, hrw, -⟩ := mem_rwRegisters hmem
    exact (moveAllowed_regWrite hn hrw v).mpr hfree

/-- Settles O52: what an allowed operation reads the record says is written, and the record agrees with the block. -/
theorem contractReadsNothingUnwritten : Obligations.ContractReadsNothingUnwritten := by
  intro even r caller s hagrees
  refine ⟨fun w i hw h => ?_, fun bytes written h k hk => ?_⟩
  · obtain ⟨-, -, hop⟩ := (moveAllowed_operation hw).mp h
    refine ⟨fun k hk => ?_, payloadWritten_of_operationAllowed hop, fun hi k hk => ?_⟩
    · have hinit : i ≠ .init := by rintro rfl; exact hk
      obtain ⟨-, htbl⟩ := hagrees.session (created_of_operationAllowed hop hinit)
      exact htbl k (tableIndexRead_lt hk)
    · obtain rfl : i = .parse := by cases i <;> simp_all [readsRx]
      exact hagrees.header k ((operationAllowed_parse.mp hop).2.2 k hk)
  · obtain ⟨-, hphase, rfl⟩ := moveAllowed_transmit.mp h
    have hk : k < (s.hostReg .txlen).toNat := by simpa [State.frame] using hk
    refine ⟨hagrees.frame (by simp [hphase]) (by simp [hphase]) k hk, ?_⟩
    simp [State.frame, State.bytesFrom, hk]

end Sys2Proof.Machine
end

section
/-! SUPPORT. A step of the host's contract: record and block stay in agreement under each kind of allowed move (spec/43_firmware_contract.md R163). -/

namespace Sys2Proof.Machine

open Sys2Proof.Statement

/-- The frame of a successful BUILD is in TX. -/
theorem built_tx_written (s : State) (ty : AccessType) {k : Nat} (hk : k < ((builtState ty s).reg .txlen).toNat) :
    (Memory.read? ((builtState ty s).bytes .tx) k).isSome = true := by
  have hheader : (newHeader s ty ++ bigEndian (s.checksum (newHeader s ty))).length = 8 := rfl
  have hpayload : (s.payload ++ bigEndian (s.checksum s.payload)).length = s.payloadLen + 2 := by simp [bigEndian]
  rw [built_txlen_toNat] at hk
  rw [built_txData]
  split
  · rw [if_pos ‹_›] at hk
    exact (Memory.isSome_read?_writeList _ _ _ _).mpr (.inl (by omega))
  · rw [if_neg ‹_›] at hk
    rw [Memory.isSome_read?_writeList, Memory.isSome_read?_writeList]
    omega

/-- An operation whose session check passed ends with a code other than NoSession and IllegalCommand. -/
theorem codeOf_mem (i : Instr) (s : State) : (codeOf i s).code ∈ ([0, 1, 4, 5] : List (BitVec 4)) := by
  cases i with
  | init | crcclr | crcfold b => simp [codeOf, ResultCode.code]
  | build ty => cases ty <;> simp [codeOf, ResultCode.code]
  | parse | pchk => simp only [codeOf]; split <;> decide

/-- Where nothing the record speaks of is lost, it agrees as before. -/
theorem RecordAgrees.of_kept {r : HostRecord} {s t : State} (h : RecordAgrees r s) (hsession : t.hasSession = s.hasSession)
    (htbl : t.tbl = s.tbl) (hrx : ∀ k, (Memory.read? (s.bytes .rx) k).isSome = true → (Memory.read? (t.bytes .rx) k).isSome = true)
    (htx : t.bytes .tx = s.bytes .tx) (htxlen : t.reg .txlen = s.reg .txlen) (hstatus : t.reg .status = s.reg .status) :
    RecordAgrees r t := by
  refine ⟨?_, fun k hk => hrx k (h.header k hk), h.unread, ?_⟩
  · rw [hsession, htbl]; exact h.session
  · rw [hostTxlen_toNat, htxlen, htx, err_eq, hstatus, ← err_eq, ← hostTxlen_toNat]; exact h.frame

theorem RecordAgrees.setReply {r : HostRecord} {s : State} (h : RecordAgrees r s) (x : Option Reply) : RecordAgrees r (s.setReply x) :=
  h.of_kept (by simp [State.hasSession]) rfl (fun k hk => by simpa using hk) (by simp) (by simp) (by simp)

/-- What a STATUS read adds to the record the block agrees with: a frame it makes ready is whole. -/
theorem RecordAgrees.statusRead {r : HostRecord} {s : State} (h : RecordAgrees r s) :
    RecordAgrees (r.statusRead (errField (s.reg .status))) s := by
  refine ⟨h.session, h.header, ?_, ?_⟩
  · simp only [HostRecord.statusRead]
    split_ifs <;> simp_all
  · simp only [HostRecord.statusRead]
    intro hphase _
    by_cases hbuilt : r.phase = .built
    · by_cases herr : errField (s.reg .status) = 0
      · exact h.frame (by simp [hbuilt]) fun _ => (err_eq s).trans herr
      · rw [if_pos hbuilt, if_neg herr] at hphase
        exact absurd rfl hphase
    · rw [if_neg hbuilt] at hphase
      exact h.frame hphase fun hb => absurd hb hbuilt

/-- An operation the contract allows, its session check passed because INIT came first. -/
theorem RecordAgrees.operation {r : HostRecord} {s t : State} {i : Instr} (h : RecordAgrees r s) (hphase : r.phase ≠ .built)
    (hi : i = .init ∨ s.hasSession = true) (ht : exec i s = .next t) : RecordAgrees (r.issued i) t := by
  have hfinish : t = finish (codeOf i s) (workOf i s) := by
    rw [exec_eq_finish_workOf hi] at ht
    cases ht; rfl
  refine ⟨fun hcreated => ?_, fun k hk => ?_, fun hbuilt => ?_, fun hnotIdle herr k hk => ?_⟩
  · rw [issued_created] at hcreated
    by_cases hinit : i = .init
    · subst hinit
      refine ⟨by rw [hfinish, hasSession_finish, hasSession_workOf]; simp, fun k hk => ?_⟩
      rw [hfinish, finish_tbl, workOf, createSession_tbl, read?_buildTable _ _ hk]
      rfl
    · obtain ⟨hsession, htbl⟩ := h.session (hcreated.resolve_right hinit)
      exact ⟨exec_keeps_session ht hsession, by rw [exec_tbl ht hinit]; exact htbl⟩
  · rw [exec_bytes ht (sp := .rx) nofun]
    exact h.header k ((mem_issued_header r i k).mp hk).2
  · by_cases hbuild : ∃ ty, i = .build ty
    · obtain ⟨ty, rfl⟩ := hbuild
      exact ⟨ty, rfl⟩
    · rw [issued_phase_of_ne r (not_exists.mp hbuild)] at hbuilt
      exact absurd hbuilt hphase
  · by_cases hbuild : ∃ ty, i = .build ty
    · obtain ⟨ty, rfl⟩ := hbuild
      have hcode : codeOf (.build ty) s = .ok := by
        rw [← code_eq_zero_iff, ← err_finish (codeOf (.build ty) s) (workOf (.build ty) s), ← hfinish]
        exact herr rfl
      have hlegal : ty ≠ .unused := by rintro rfl; cases hcode
      rw [hcode, finish_workOf_build hlegal] at hfinish
      subst hfinish
      exact built_tx_written s ty (hk.trans_le (by rw [hostTxlen_toNat]; exact Nat.mod_le _ _))
    · have hnot := not_exists.mp hbuild
      have htxlen : Reg.txlen ∉ regsWritten i := by cases i <;> simp_all [regsWritten]
      rw [hostTxlen_toNat, exec_reg_of_not_written ht htxlen, ← hostTxlen_toNat] at hk
      rw [exec_bytes ht fun _ ty he => absurd he (hnot ty)]
      rw [issued_phase_of_ne r hnot] at hnotIdle
      exact h.frame hnotIdle (fun hb => absurd hb hphase) k hk

/-- A command the contract allows: the operation's session is there, so it ends with a code of its own. -/
theorem RecordAgrees.command {even : Bool} {r : HostRecord} {caller : Nat} {w : Word} {i : Instr} {s t : State} (h : RecordAgrees r s)
    (hw : decode w = .op i) (ha : moveAllowed even r caller (.access (.regWrite 0 w)) s = true)
    (ht : access (.regWrite 0 w) s = .next t) :
    RecordAgrees (r.issued i) t ∧ errField (t.reg .status) ∈ ([0, 1, 4, 5] : List (BitVec 4)) := by
  obtain ⟨-, hphase, hop⟩ := (moveAllowed_operation hw).mp ha
  have hstored : RecordAgrees r ((s.setReply none).setReg .cmd w) :=
    (h.setReply none).of_kept (by simp [State.hasSession]) (by simp) (fun k hk => by simpa using hk) (by simp) (by simp) (by simp)
  have hsession : i = .init ∨ ((s.setReply none).setReg .cmd w).hasSession = true := by
    by_cases hi : i = .init
    · exact .inl hi
    · exact .inr (hstored.session (created_of_operationAllowed hop hi)).1
  rw [access_regWrite_cmd, runCommand_of_op hw] at ht
  refine ⟨hstored.operation hphase hsession ht, ?_⟩
  rw [exec_eq_finish_workOf hsession] at ht
  cases ht
  rw [← err_eq, err_finish]
  exact codeOf_mem i _

/-- A move the record does not note changes nothing of the block but the reply. -/
theorem hostMove_of_no_write {m : HostMove} {s t : State} (h : hostMove m s = .next t) (hreset : m ≠ .access .hardReset)
    (hreg : ∀ q v, m ≠ .access (.regWrite (regNumber q) v)) (hbyte : ∀ sp i v, m ≠ .access (.byteWrite sp i v)) :
    ∃ x, t = s.setReply x := by
  cases m with
  | access e =>
    cases access_effect h with
    | command => exact absurd rfl (hreg .cmd _)
    | register => exact absurd rfl (hreg _ _)
    | byte => exact absurd rfl (hbyte _ _ _)
    | reply => exact ⟨_, rfl⟩
    | hardReset => exact absurd rfl hreset
  | transmit bytes written | compareCount | useHeader | endExchange => cases h; exact ⟨s.reply, rfl⟩

/-- A register write the contract allows, of a register other than CMD, is of an RW register. -/
theorem rw_of_moveAllowed {even : Bool} {r : HostRecord} {caller : Nat} {q : Reg} {v : Word} {s : State} (hq : q ≠ .cmd)
    (h : moveAllowed even r caller (.access (.regWrite (regNumber q) v)) s = true) : regAccess q = .rw := by
  rw [moveAllowed_access (e := .regWrite (regNumber q) v) rfl nofun] at h
  cases q <;> simp_all [writeAllowed, regAccess]

/-- After a move the contract allows, record and block agree. -/
theorem RecordAgrees.after {even : Bool} {r : HostRecord} {caller : Nat} {m : HostMove} {s t : State} (h : RecordAgrees r s)
    (ha : moveAllowed even r caller m s = true) (ht : hostMove m s = .next t) : RecordAgrees (r.after caller m s) t := by
  have hstep := recordStep_after r caller m s
  generalize r.after caller m s = r' at hstep
  cases hstep with
  | hardReset => cases ht; exact ⟨nofun, nofun, nofun, fun hidle => absurd rfl hidle⟩
  | statusRead =>
    obtain ⟨x, rfl⟩ := hostMove_of_no_write ht nofun nofun nofun
    exact h.statusRead.setReply x
  | operation hw =>
    obtain ⟨hsession, hheader, hunread, hframe⟩ := (h.command hw ha ht).1
    exact ⟨hsession, hheader, hunread, hframe⟩
  | illegal hw =>
    obtain ⟨i, hop⟩ := op_of_moveAllowed ha
    cases hw.symm.trans hop
  | @operand q v hq =>
    have hrw := rw_of_moveAllowed hq ha
    have htxlen : Reg.txlen ≠ q := by rintro rfl; cases hrw
    have hstatus : Reg.status ≠ q := by rintro rfl; cases hrw
    cases (access_regWrite_of_rw (regOfNumber_regNumber q) hrw v s).symm.trans ht
    obtain ⟨hsession, hheader, hunread, hframe⟩ := (h.setReply none).of_kept (t := (s.setReply none).setReg q (v &&& regMask q))
      (hasSession_setReg hstatus.symm _) (by simp) (fun k hk => by simpa using hk) (by simp) (by simp [htxlen]) (by simp [hstatus])
    exact ⟨hsession, hheader, hunread, hframe⟩
  | @byte sp i v =>
    obtain ⟨-, hw, hi⟩ := (moveAllowed_byteWrite v).mp ha
    have htx : ByteSpace.tx ≠ sp := by rintro rfl; cases hw
    cases (access_byteWrite_of_writable hi hw v s).symm.trans ht
    have hwritten : ∀ k, (sp = .rx ∧ k = i) ∨ (Memory.read? (s.bytes .rx) k).isSome = true →
        (Memory.read? (((s.setReply none).setBytes sp (Memory.write (s.bytes sp) i v)).bytes .rx) k).isSome = true := by
      intro k hk
      by_cases hrx : ByteSpace.rx = sp
      · subst hrx
        by_cases hki : k = i <;> simp_all [Memory.read?_write]
      · simpa [hrx, Ne.symm hrx] using hk
    obtain ⟨hsession, hheader, hunread, hframe⟩ := h.of_kept (t := (s.setReply none).setBytes sp (Memory.write (s.bytes sp) i v))
      (by simp [State.hasSession]) (by simp) (fun k hk => hwritten k (.inr hk)) (by simp [htx]) (by simp) (by simp)
    refine ⟨hsession, fun k hk => ?_, hunread, hframe⟩
    by_cases hrx : sp = .rx
    · rw [if_pos hrx] at hk
      rcases List.mem_cons.mp hk with hki | hk
      · exact hwritten k (.inl ⟨hrx, hki⟩)
      · exact hheader k hk
    · rw [if_neg hrx] at hk
      exact hheader k hk
  | transmit =>
    cases ht
    obtain ⟨-, hready, -⟩ := moveAllowed_transmit.mp ha
    exact ⟨h.session, h.header, nofun, fun _ _ => h.frame (by simp [hready]) (by simp [hready])⟩
  | @compare n hphase =>
    cases ht
    refine ⟨h.session, h.header, fun hbuilt => ?_, fun _ _ => h.frame (by simp [hphase]) (by simp [hphase])⟩
    split at hbuilt <;> cases hbuilt
  | endExchange => cases ht; exact ⟨h.session, h.header, nofun, fun hidle => absurd rfl hidle⟩
  | unnoted hreset _ hreg hbyte =>
    obtain ⟨x, rfl⟩ := hostMove_of_no_write ht hreset hreg hbyte
    exact h.setReply x

end Sys2Proof.Machine
end

section
/-! The statement of the host's contract as a step lemma, settled. -/

namespace Sys2Proof.Machine

/-- Settles O51: the record of nothing done agrees with reset; an allowed move goes through and keeps the agreement, by what it does to the record; an allowed command finds its session. -/
theorem contractKeepsRecordAndBlockInStep : Obligations.ContractKeepsRecordAndBlockInStep := by
  refine ⟨⟨nofun, nofun, nofun, fun hidle => absurd rfl hidle⟩, fun even r caller m s h ha => ?_⟩
  obtain ⟨t, ht⟩ := hostMove_answers ha
  refine ⟨t, ht, h.after ha ht, ?_⟩
  rintro w rfl
  obtain ⟨i, hw⟩ := op_of_moveAllowed ha
  exact (h.command hw ha ht).2

end Sys2Proof.Machine
end

section
/-! SUPPORT. How each part of the host's record comes about, from what a move does to it (spec/43_firmware_contract.md R163). -/

namespace Sys2Proof.Machine

open Sys2Proof.Statement

section
variable {r r' : HostRecord} {caller : Nat} {m : HostMove} {s : State} (h : RecordStep r caller s m r') (hreset : m ≠ .access .hardReset)
include h hreset

/-- INIT alone makes `created`. -/
theorem RecordStep.created : r'.created = true ↔ r.created = true ∨ Issues m .init := by
  cases h with
  | hardReset => exact absurd rfl hreset
  | operation hw => simp [issued_created, hw]
  | illegal hw => simp [hw]
  | operand hq => simp [not_issues_operand hq]
  | unnoted _ _ hreg => simp [not_issues_of_no_regWrite hreg]
  | statusRead | byte | transmit | compare | endExchange => simp [Issues, HostRecord.statusRead]

/-- A register enters the operands by a host write of it. -/
theorem RecordStep.mem_operands (q : Reg) :
    q ∈ r'.operands ↔ q ∈ r.operands ∨ (q ≠ .cmd ∧ ∃ v, m = .access (.regWrite (regNumber q) v)) := by
  have hno : ∀ w, ¬(q ≠ .cmd ∧ ∃ v, HostMove.access (.regWrite 0 w) = .access (.regWrite (regNumber q) v)) := by
    rintro w ⟨hq, v, he⟩
    exact hq (regNumber_inj (q' := .cmd).mp (HostEvent.regWrite.inj (HostMove.access.inj he)).1.symm)
  cases h with
  | hardReset => exact absurd rfl hreset
  | @operation w i => rw [or_iff_left (hno w), issued_operands]
  | @illegal w => rw [or_iff_left (hno w)]
  | @operand q' v hq =>
    by_cases hqq : q = q'
    · subst hqq; simp [hq]
    · simp [hqq, Ne.symm hqq, regNumber_inj]
  | unnoted _ _ hreg => simp [hreg]
  | statusRead | byte | transmit | compare | endExchange => simp [HostRecord.statusRead]

/-- An index of RX enters the header by a write of that byte, and a BUILD empties the header. -/
theorem RecordStep.mem_header (k : Nat) :
    k ∈ r'.header ↔ (∀ ty, ¬Issues m (.build ty)) ∧ (k ∈ r.header ∨ ∃ v, m = .access (.byteWrite .rx k v)) := by
  cases h with
  | hardReset => exact absurd rfl hreset
  | operation hw => simp [mem_issued_header, hw]
  | illegal hw => simp [hw]
  | operand hq => simp [not_issues_operand hq]
  | @byte sp i v => by_cases hsp : sp = .rx <;> simp [Issues, hsp, eq_comm, or_comm]
  | unnoted _ _ hreg hbyte => simp [not_issues_of_no_regWrite hreg, hbyte]
  | statusRead | transmit | compare | endExchange => simp [Issues, HostRecord.statusRead]

/-- `last` is the most recent operation. -/
theorem RecordStep.last : (∀ i, Issues m i → r'.last = some i) ∧ ((∀ w, m ≠ .access (.regWrite 0 w)) → r'.last = r.last) := by
  cases h with
  | hardReset => exact absurd rfl hreset
  | operation hw => simp [hw]
  | illegal hw => simp [hw]
  | operand hq => simp [not_issues_operand hq]
  | unnoted _ _ hreg => simp [not_issues_of_no_regWrite hreg]
  | statusRead | byte | transmit | compare | endExchange => simp [Issues, HostRecord.statusRead]

/-- The header counts as checked by a STATUS read of ERR = 0 behind a PARSE, and a PARSE undoes it. -/
theorem RecordStep.headerChecked : r'.headerChecked = true ↔ ¬Issues m .parse
    ∧ (r.headerChecked = true ∨ (ReadsStatus r caller m ∧ r.last = some .parse ∧ errField (s.reg .status) = 0)) := by
  cases h with
  | hardReset => exact absurd rfl hreset
  | statusRead hfree => simp [Issues, HostRecord.statusRead, readsStatus_regRead, hfree]
  | operation hw => simp [issued_headerChecked, hw, ReadsStatus]
  | illegal hw => simp [hw, ReadsStatus]
  | operand hq => simp [not_issues_operand hq, ReadsStatus]
  | unnoted _ hstatus hreg => simp [not_issues_of_no_regWrite hreg, hstatus]
  | byte | transmit | compare | endExchange => simp [Issues, ReadsStatus]

/-- How the phase changes: not at all, or by the move its new value names. -/
theorem RecordStep.phase_cases :
    (r'.phase = r.phase ∧ (∀ ty, ¬Issues m (.build ty)) ∧ (r.phase = .built → ¬ReadsStatus r caller m) ∧ (∀ bytes n, m ≠ .transmit bytes n)
      ∧ (∀ n, r.phase = .transmitted n → m ≠ .compareCount) ∧ m ≠ .endExchange)
    ∨ (r.phase = .built ∧ ReadsStatus r caller m ∧ r'.phase = if errField (s.reg .status) = 0 then .ready else .idle)
    ∨ (∃ ty, Issues m (.build ty) ∧ r'.phase = .built)
    ∨ (∃ bytes n, m = .transmit bytes n ∧ r'.phase = .transmitted n)
    ∨ (∃ n, r.phase = .transmitted n ∧ m = .compareCount
      ∧ r'.phase = if n = (s.reg .txlen).toNat % 1024 then .outstanding else .idle)
    ∨ (m = .endExchange ∧ r'.phase = .idle) := by
  cases h with
  | hardReset => exact absurd rfl hreset
  | statusRead hfree =>
    by_cases hbuilt : r.phase = .built
    · exact .inr (.inl ⟨hbuilt, readsStatus_regRead.mpr ⟨rfl, hfree⟩, if_pos hbuilt⟩)
    · exact .inl ⟨if_neg hbuilt, by simp [Issues], fun hb => absurd hb hbuilt, nofun, nofun, nofun⟩
  | @operation w i hw =>
    by_cases hbuild : ∃ ty, i = .build ty
    · obtain ⟨ty, rfl⟩ := hbuild
      exact .inr (.inr (.inl ⟨ty, issues_command.mpr hw, rfl⟩))
    · have hnot := not_exists.mp hbuild
      exact .inl ⟨issued_phase_of_ne r hnot, by simpa [hw] using hnot, by simp [ReadsStatus], nofun, nofun, nofun⟩
  | illegal hw => exact .inl ⟨rfl, by simp [hw], by simp [ReadsStatus], nofun, nofun, nofun⟩
  | operand hq => exact .inl ⟨rfl, fun ty => not_issues_operand hq _ _, by simp [ReadsStatus], nofun, nofun, nofun⟩
  | byte => exact .inl ⟨rfl, by simp [Issues], by simp [ReadsStatus], nofun, nofun, nofun⟩
  | transmit => exact .inr (.inr (.inr (.inl ⟨_, _, rfl, rfl⟩)))
  | compare hphase => exact .inr (.inr (.inr (.inr (.inl ⟨_, hphase, rfl, rfl⟩))))
  | endExchange => exact .inr (.inr (.inr (.inr (.inr ⟨rfl, rfl⟩))))
  | unnoted _ hstatus hreg _ htransmit hcompare hend =>
    exact .inl ⟨rfl, fun ty => not_issues_of_no_regWrite hreg _, fun _ => hstatus, htransmit, hcompare, hend⟩

/-- Each phase is entered only by the move it names. -/
theorem RecordStep.phase_entered :
    (r'.phase = .built → r.phase = .built ∨ ∃ ty, Issues m (.build ty))
    ∧ (r'.phase = .ready → r.phase = .ready ∨ (r.phase = .built ∧ ReadsStatus r caller m ∧ errField (s.reg .status) = 0))
    ∧ (∀ n, r'.phase = .transmitted n → r.phase = .transmitted n ∨ ∃ bytes, m = .transmit bytes n)
    ∧ (r'.phase = .outstanding →
        r.phase = .outstanding ∨ (m = .compareCount ∧ r.phase = .transmitted ((s.reg .txlen).toNat % 1024))) := by
  obtain ⟨hp, -⟩ | ⟨hbuilt, hread, hp⟩ | ⟨ty, hissues, hp⟩ | ⟨bytes, n, rfl, hp⟩ | ⟨n, hsent, rfl, hp⟩ | ⟨-, hp⟩ := h.phase_cases hreset
  · rw [hp]
    exact ⟨.inl, .inl, fun _ => .inl, .inl⟩
  · by_cases herr : errField (s.reg .status) = 0
    · rw [hp, if_pos herr]
      exact ⟨nofun, fun _ => .inr ⟨hbuilt, hread, herr⟩, nofun, nofun⟩
    · rw [hp, if_neg herr]
      exact ⟨nofun, nofun, nofun, nofun⟩
  · rw [hp]
    exact ⟨fun _ => .inr ⟨ty, hissues⟩, nofun, nofun, nofun⟩
  · rw [hp]
    exact ⟨nofun, nofun, fun k hk => .inr ⟨bytes, by rw [SendPhase.transmitted.inj hk]⟩, nofun⟩
  · by_cases hn : n = (s.reg .txlen).toNat % 1024
    · rw [hp, if_pos hn]
      exact ⟨nofun, nofun, nofun, fun _ => .inr ⟨rfl, hn ▸ hsent⟩⟩
    · rw [hp, if_neg hn]
      exact ⟨nofun, nofun, nofun, nofun⟩
  · rw [hp]
    exact ⟨nofun, nofun, nofun, nofun⟩

/-- The block is held by who made a move other than a read, until the exchange ends. -/
theorem RecordStep.holder : (m = .endExchange → r'.phase = .idle ∧ r'.holder = none)
    ∧ (r'.holder = none → r.holder = none ∨ m = .endExchange) ∧ ∀ c, r'.holder = some c → r.holder = some c ∨ c = caller := by
  cases h with
  | hardReset => exact absurd rfl hreset
  | unnoted _ _ _ _ _ _ hend => exact ⟨fun he => absurd he hend, .inl, fun c hc => .inl hc⟩
  | statusRead | transmit | compare => exact ⟨nofun, .inl, fun c hc => .inl hc⟩
  | operation | illegal | operand | byte => exact ⟨nofun, nofun, fun c hc => .inr (Option.some.inj hc).symm⟩
  | endExchange => exact ⟨fun _ => ⟨rfl, rfl⟩, fun _ => .inr rfl, nofun⟩

end

/-- A frame on its way stays so under the moves the contract allows, until the count is compared or the exchange ends. -/
theorem RecordStep.phase_kept {even : Bool} {r r' : HostRecord} {caller : Nat} {m : HostMove} {s : State} (h : RecordStep r caller s m r')
    (hreset : m ≠ .access .hardReset) (ha : moveAllowed even r caller m s = true)
    (hphase : r.phase = .outstanding ∨ ∃ n, r.phase = .transmitted n) :
    r'.phase = r.phase ∨ (m = .compareCount ∧ ∃ n, r.phase = .transmitted n) ∨ m = .endExchange := by
  obtain ⟨hp, -⟩ | ⟨hbuilt, -⟩ | ⟨ty, ⟨w, rfl, hw⟩, -⟩ | ⟨bytes, n, rfl, -⟩ | ⟨n, hsent, rfl, -⟩ | ⟨rfl, -⟩ := h.phase_cases hreset
  · exact .inl hp
  · simp [hbuilt] at hphase
  · obtain ⟨-, -, hop⟩ := (moveAllowed_operation hw).mp ha
    obtain ⟨-, houtstanding, hcompared, -⟩ := operationAllowed_build.mp hop
    obtain hphase | hphase := hphase
    · exact absurd hphase houtstanding
    · exact absurd (awaitsCompare_iff.mpr hphase) (by simp [hcompared])
  · simp [(moveAllowed_transmit.mp ha).2.1] at hphase
  · exact .inr (.inl ⟨rfl, n, hsent⟩)
  · exact .inr (.inr rfl)

/-- A write the contract allows puts the block in its caller's hands. -/
theorem holder_after_write {even : Bool} {r : HostRecord} {caller : Nat} {e : HostEvent} {s : State}
    (ha : moveAllowed even r caller (.access e) s = true) (hread : isHostRead e = false) (hreset : e ≠ .hardReset) :
    (r.after caller (.access e) s).holder = some caller := by
  have hwrite : writeAllowed even r e s = true := by
    rw [moveAllowed_access hread hreset, Bool.and_eq_true] at ha
    exact ha.2
  have hstep := recordStep_after r caller (.access e) s
  generalize r.after caller (.access e) s = r' at hstep
  cases hstep with
  | hardReset => exact absurd rfl hreset
  | statusRead => cases hread
  | operation | illegal | operand | byte => rfl
  | unnoted _ _ hreg hbyte =>
    cases e with
    | regRead n | tblRead i | byteRead sp i => cases hread
    | tblWrite i v => cases hwrite
    | byteWrite sp i v => exact absurd rfl (hbyte sp i v)
    | hardReset => exact absurd rfl hreset
    | regWrite n v =>
      cases hn : regOfNumber n with
      | none => simp [writeAllowed, hn] at hwrite
      | some q =>
        obtain ⟨rfl, -⟩ := regOfNumber_eq_some hn
        exact absurd rfl (hreg q v)

end Sys2Proof.Machine
end

section
/-! The statement of the host's record, settled. -/

namespace Sys2Proof.Machine

open Sys2Proof.Statement

/-- Settles O50: part by part; the phase by the moves that enter one, and what the contract adds by which of them it allows. -/
theorem hostRecordFollowsTheMoves : Obligations.HostRecordFollowsTheMoves := by
  intro r caller m s r' noError
  have h : RecordStep r caller s m r' := recordStep_after r caller m s
  refine ⟨?_, fun hreset => ?_, fun even ha => ⟨?_, fun hphase => ?_, fun n hphase => ?_⟩⟩
  · rintro rfl; rfl
  · obtain ⟨hend, hnone, hsome⟩ := h.holder hreset
    obtain ⟨hlast, hkept⟩ := h.last hreset
    obtain ⟨hbuilt, hready, htransmitted, houtstanding⟩ := h.phase_entered hreset
    refine ⟨h.created hreset, h.mem_operands hreset, h.mem_header hreset, hlast, hkept, h.headerChecked hreset, hbuilt, ?_, hready, ?_,
      htransmitted, ?_, houtstanding, ?_, hend, hnone, hsome⟩
    · rintro ty ⟨w, rfl, hw⟩
      exact congrArg HostRecord.phase (after_operation hw r caller s)
    · rintro hphase ⟨rfl, hfree⟩
      have hp : r'.phase = if noError then .ready else .idle := by
        rw [show r' = _ from after_statusRead ((freeFor_iff r caller).mpr hfree) s]
        exact if_pos hphase
      by_cases herr : noError <;> simp [hp, herr]
    · rintro bytes n rfl; rfl
    · rintro n hphase rfl
      simp [r', HostRecord.after, hphase, hostTxlen_toNat]
  · rintro e rfl hread hreset
    exact holder_after_write ha hread hreset
  · by_cases hreset : m = .access .hardReset
    · exact .inr (.inr hreset)
    obtain hp | ⟨-, n, hn⟩ | hend := h.phase_kept hreset ha (.inl hphase)
    · exact .inl (hp.trans hphase)
    · cases hn.symm.trans hphase
    · exact .inr (.inl hend)
  · by_cases hreset : m = .access .hardReset
    · exact .inr (.inr hreset)
    obtain hp | ⟨hcompare, -⟩ | rfl := h.phase_kept hreset ha (.inr ⟨n, hphase⟩)
    · exact .inl (hp.trans hphase)
    · exact .inr (.inl hcompare)
    · have hno := (moveAllowed_endExchange.mp ha).2.1
      rw [hphase] at hno
      cases hno

end Sys2Proof.Machine
end

section
/-! SUPPORT. Sequences of moves that keep the host's contract: a calculus of what they make of the record and of the block, up to the reply (spec/43_firmware_contract.md R163; log 2). -/

namespace Sys2Proof.Machine

open Sys2Proof.Statement

/-! ### No part of the contract sees the reply -/

@[simp] theorem payloadLen_setReply (s : State) (x : Option Reply) : (s.setReply x).payloadLen = s.payloadLen := by
  simp [State.payloadLen]

@[simp] theorem payloadWritten_setReply (s : State) (x : Option Reply) : (s.setReply x).payloadWritten = s.payloadWritten := by
  simp [State.payloadWritten]

@[simp] theorem frame_setReply (s : State) (x : Option Reply) : (s.setReply x).frame = s.frame := by
  simp [State.frame, State.bytesFrom]

theorem operationAllowed_setReply (even : Bool) (r : HostRecord) (i : Instr) (s : State) (x : Option Reply) :
    operationAllowed even r i (s.setReply x) = operationAllowed even r i s := by
  cases i <;> simp [operationAllowed]

theorem moveAllowed_setReply (even : Bool) (r : HostRecord) (caller : Nat) (m : HostMove) (s : State) (x : Option Reply) :
    moveAllowed even r caller m (s.setReply x) = moveAllowed even r caller m s := by
  cases m with
  | access e => cases e <;> simp only [moveAllowed, writeAllowed, operationAllowed_setReply]
  | transmit | compareCount | useHeader | endExchange => simp [moveAllowed]

theorem after_setReply (r : HostRecord) (caller : Nat) (m : HostMove) (s : State) (x : Option Reply) :
    r.after caller m (s.setReply x) = r.after caller m s := by
  cases m with
  | access e => cases e <;> simp only [HostRecord.after, HostRecord.accessed, err_setReply]
  | compareCount => simp only [HostRecord.after, hostReg_setReply]
  | transmit | useHeader | endExchange => rfl

theorem hostMove_setReply {m : HostMove} {s t : State} (h : hostMove m s = .next t) (x : Option Reply) :
    ∃ y, hostMove m (s.setReply x) = .next (t.setReply y) := by
  cases m with
  | access e => exact ⟨t.reply, (access_setReply e s x).trans h⟩
  | transmit | compareCount | useHeader | endExchange => cases h; exact ⟨x, rfl⟩

/-! ### The calculus -/

/-- A caller's moves, each with its caller. -/
def madeBy (caller : Nat) (ms : List HostMove) : List (Nat × HostMove) := ms.map fun m => (caller, m)

@[simp] theorem madeBy_append (caller : Nat) (ms ms' : List HostMove) : madeBy caller (ms ++ ms') = madeBy caller ms ++ madeBy caller ms' :=
  List.map_append

@[simp] theorem map_snd_madeBy (caller : Nat) (ms : List HostMove) : (madeBy caller ms).map Prod.snd = ms := by
  simp [madeBy, Function.comp_def]

/-- From the record `r` and the block `s`, whatever it last returned, the moves keep the contract, make a record with `Q` and leave the block `t` but for the reply. -/
def Leads (even : Bool) (caller : Nat) (r : HostRecord) (s : State) (ms : List HostMove) (Q : HostRecord → Prop) (t : State) : Prop :=
  ∀ x, keepsContract even r (madeBy caller ms) (s.setReply x) = true ∧ Q (recordAfter r (madeBy caller ms) (s.setReply x))
    ∧ ∃ y, runMoves ms (s.setReply x) = .next (t.setReply y)

section
variable {even : Bool} {caller : Nat} {r : HostRecord} {s t u : State} {ms ms' : List HostMove} {Q Q' : HostRecord → Prop}

theorem Leads.nil (h : Q r) : Leads even caller r s [] Q s := fun x => ⟨rfl, h, x, rfl⟩

theorem Leads.move {m : HostMove} (ha : moveAllowed even r caller m s = true) (hm : hostMove m s = .next t)
    (h : Q (r.after caller m s)) : Leads even caller r s [m] Q t := by
  intro x
  obtain ⟨y, hy⟩ := hostMove_setReply hm x
  refine ⟨?_, ?_, y, ?_⟩
  · simp [madeBy, keepsContract, moveAllowed_setReply, ha, hy]
  · simpa [madeBy, recordAfter, hy, after_setReply] using h
  · simp [runMoves_cons, hy]

/-- A move that also returns something. -/
theorem Leads.moveReplying {m : HostMove} {y : Option Reply} (ha : moveAllowed even r caller m s = true)
    (hm : hostMove m s = .next (t.setReply y)) (h : Q (r.after caller m s)) : Leads even caller r s [m] Q t :=
  Leads.move (t := t.setReply y) ha hm h

theorem recordAfter_append (xs ys : List (Nat × HostMove)) :
    ∀ (r : HostRecord) (s t : State), runMoves (xs.map Prod.snd) s = .next t →
      recordAfter r (xs ++ ys) s = recordAfter (recordAfter r xs s) ys t := by
  induction xs with
  | nil => intro r s t h; cases h; rfl
  | cons x xs ih =>
    intro r s t h
    obtain ⟨caller, m⟩ := x
    obtain ⟨u, hu, hrest⟩ := andThen_eq_next.mp ((runMoves_cons m _ s).symm.trans h)
    simp only [List.cons_append, recordAfter, hu]
    exact ih _ u t hrest

theorem Leads.append (h : Leads even caller r s ms Q t) (h' : ∀ r', Q r' → Leads even caller r' t ms' Q' u) :
    Leads even caller r s (ms ++ ms') Q' u := by
  intro x
  obtain ⟨hkeeps, hrecord, y, hrun⟩ := h x
  obtain ⟨hkeeps', hrecord', z, hrun'⟩ := h' _ hrecord y
  have hms : runMoves ((madeBy caller ms).map Prod.snd) (s.setReply x) = .next (t.setReply y) := by rwa [map_snd_madeBy]
  refine ⟨?_, ?_, z, ?_⟩
  · rw [madeBy_append, keepsContract_append even _ _ r _ _ hms, hkeeps, hkeeps']
    rfl
  · rw [madeBy_append, recordAfter_append _ _ r _ _ hms]
    exact hrecord'
  · rw [runMoves_append, hrun, andThen_next, hrun']

theorem Leads.imp (h : Leads even caller r s ms Q t) (himp : ∀ r', Q r' → Q' r') : Leads even caller r s ms Q' t := fun x =>
  have ⟨hkeeps, hrecord, hrun⟩ := h x
  ⟨hkeeps, himp _ hrecord, hrun⟩

end

/-! ### What a caller keeps of its record during an exchange -/

/-- `r'` has all that `r` has noted, in the same phase, the block still free for the caller. -/
structure Extends (caller : Nat) (r r' : HostRecord) : Prop where
  free : r'.freeFor caller = true
  created : r'.created = r.created
  phase : r'.phase = r.phase
  operands : ∀ q ∈ r.operands, q ∈ r'.operands
  header : ∀ k ∈ r.header, k ∈ r'.header

theorem Extends.refl {caller : Nat} {r : HostRecord} (h : r.freeFor caller = true) : Extends caller r r :=
  ⟨h, rfl, rfl, fun _ => id, fun _ => id⟩

theorem Extends.trans {caller : Nat} {r r' r'' : HostRecord} (h : Extends caller r r') (h' : Extends caller r' r'') :
    Extends caller r r'' :=
  ⟨h'.free, h'.created.trans h.created, h'.phase.trans h.phase, fun q hq => h'.operands q (h.operands q hq),
    fun k hk => h'.header k (h.header k hk)⟩

/-- The caller has a session, the block free for it, and its frame in the phase `φ`. -/
structure InPhase (caller : Nat) (φ : SendPhase) (r : HostRecord) : Prop where
  created : r.created = true
  free : r.freeFor caller = true
  phase : r.phase = φ

theorem InPhase.of_extends {caller : Nat} {φ : SendPhase} {r r' : HostRecord} (h : InPhase caller φ r) (hext : Extends caller r r') :
    InPhase caller φ r' :=
  ⟨hext.created.trans h.created, hext.free, hext.phase.trans h.phase⟩

/-! ### Single accesses -/

section
variable {even : Bool} {caller : Nat} {r : HostRecord} {s : State}

theorem accessMoves_append (es es' : List HostEvent) : accessMoves (es ++ es') = accessMoves es ++ accessMoves es' := List.map_append

/-- A read but of STATUS notes nothing. -/
theorem after_hostRead {e : HostEvent} (hread : isHostRead e = true) (hstatus : e ≠ .regRead 1) : r.after caller (.access e) s = r := by
  cases e with
  | regRead n => exact after_regRead (.inl fun hn => hstatus (hn ▸ rfl)) s
  | tblRead i | byteRead sp i => rfl
  | regWrite | tblWrite | byteWrite | hardReset => cases hread

/-- Reads of what exists lead nowhere. -/
theorem leads_reads {es : List HostEvent} (h : ∀ e ∈ es, isHostRead e = true ∧ e.wf = true ∧ e ≠ .regRead 1) :
    Leads even caller r s (accessMoves es) (· = r) s := by
  induction es with
  | nil => exact .nil rfl
  | cons e es ih =>
    obtain ⟨⟨hread, hwf, hstatus⟩, hrest⟩ := List.forall_mem_cons.mp h
    obtain ⟨t, ht⟩ := access_answers hwf s
    obtain ⟨x, rfl⟩ := hostMove_of_no_write (m := .access e) ht (by rintro ⟨⟩; cases hread) (by rintro q v ⟨⟩; cases hread)
      (by rintro sp i v ⟨⟩; cases hread)
    refine Leads.append (Leads.moveReplying (Q := (· = r)) (t := s) ((moveAllowed_hostRead hread ..).trans hwf) ht
      (after_hostRead hread hstatus)) ?_
    rintro _ rfl
    exact ih hrest

theorem leads_statusRead (hfree : r.freeFor caller = true) :
    Leads even caller r s [.access (asmRD .status)] (· = r.statusRead s.err) s :=
  Leads.moveReplying (m := .access (.regRead 1)) (moveAllowed_hostRead rfl ..) rfl
    ((after_statusRead hfree s).trans (congrArg _ (err_eq s).symm))

/-- A write of an RW register notes it. -/
theorem leads_operand {q : Reg} (hq : regAccess q = .rw) {v : Word} (hv : v &&& regMask q = v) (hfree : r.freeFor caller = true) :
    Leads even caller r s [.access (asmWR q v)] (fun r' => Extends caller r r' ∧ q ∈ r'.operands) (s.setReg q v) := by
  have hcmd : q ≠ .cmd := by rintro rfl; cases hq
  refine Leads.moveReplying (m := .access (.regWrite (regNumber q) v))
    ((moveAllowed_regWrite (regOfNumber_regNumber q) hq v).mpr hfree) (access_asmWR hq hv s) ?_
  rw [after_regWrite hcmd]
  exact ⟨⟨by simp [HostRecord.freeFor], rfl, rfl, fun p hp => List.mem_cons_of_mem _ hp, fun _ => id⟩, List.mem_cons_self⟩

/-- Bytes written to PAY or RX; of RX their indexes are noted. -/
theorem leads_bytes {sp : ByteSpace} (hw : hostWritable sp = true) (bytes : List Byte) :
    ∀ {i : Nat} {r : HostRecord} {s : State}, i + bytes.length ≤ sp.size → r.freeFor caller = true →
      Leads even caller r s (accessMoves (asmWB sp i bytes))
        (fun r' => Extends caller r r' ∧ (sp = .rx → ∀ k, i ≤ k → k < i + bytes.length → k ∈ r'.header))
        (s.setBytes sp (Memory.writeList (s.bytes sp) i bytes)) := by
  induction bytes with
  | nil =>
    intro i r s _ hfree
    have hsame : s.setBytes sp (Memory.writeList (s.bytes sp) i []) = s := by cases sp <;> rfl
    rw [hsame]
    exact .nil ⟨.refl hfree, fun _ k hk hk' => absurd hk' (by simpa using hk)⟩
  | cons b bytes ih =>
    intro i r s hsize hfree
    rw [List.length_cons] at hsize
    have hi : i < sp.size := by omega
    have hfirst : Leads even caller r s [.access (.byteWrite sp i b)]
        (fun r' => Extends caller r r' ∧ (sp = .rx → i ∈ r'.header)) (s.setBytes sp (Memory.write (s.bytes sp) i b)) := by
      refine Leads.moveReplying (y := none) ((moveAllowed_byteWrite b).mpr ⟨hfree, hw, hi⟩)
        ((access_byteWrite_of_writable hi hw b s).trans (by rw [setBytes_setReply])) ?_
      refine ⟨⟨by simp [HostRecord.freeFor, HostRecord.after, HostRecord.accessed], rfl, rfl, fun _ => id, fun k hk => ?_⟩, ?_⟩
      · by_cases hrx : sp = .rx <;> simp [HostRecord.after, HostRecord.accessed, hrx, hk]
      · rintro rfl
        simp [HostRecord.after, HostRecord.accessed]
    refine hfirst.append fun r' ⟨hext, hhead⟩ => ?_
    have hrest := ih (i := i + 1) (s := s.setBytes sp (Memory.write (s.bytes sp) i b)) (by omega) hext.free
    have hstate : (s.setBytes sp (Memory.write (s.bytes sp) i b)).setBytes sp
        (Memory.writeList ((s.setBytes sp (Memory.write (s.bytes sp) i b)).bytes sp) (i + 1) bytes)
        = s.setBytes sp (Memory.writeList (s.bytes sp) i (b :: bytes)) := by cases sp <;> rfl
    rw [hstate] at hrest
    refine hrest.imp fun r'' ⟨hext', htail⟩ => ⟨hext.trans hext', fun hrx k hk hk' => ?_⟩
    by_cases hki : k = i
    · exact hext'.header k (hki ▸ hhead hrx)
    · exact htail hrx k (by omega) (by rw [List.length_cons] at hk'; omega)

theorem leads_loaded {sp : ByteSpace} (hw : hostWritable sp = true) {bytes : List Byte} (h : bytes.length ≤ sp.size)
    (hfree : r.freeFor caller = true) :
    Leads even caller r s (accessMoves (asmWB sp 0 bytes))
      (fun r' => Extends caller r r' ∧ (sp = .rx → ∀ k < bytes.length, k ∈ r'.header)) (s.loaded sp bytes) :=
  (leads_bytes hw bytes (by omega) hfree).imp fun _ ⟨hext, hheader⟩ =>
    ⟨hext, fun hrx k hk => hheader hrx k (Nat.zero_le k) (by omega)⟩

/-- An operation the contract allows. -/
theorem leads_operation {i : Instr} {t : State} (hfree : r.freeFor caller = true) (hphase : r.phase ≠ .built)
    (hop : operationAllowed even r i s = true) (ht : access (asmOp i) s = .next t) :
    Leads even caller r s [.access (asmOp i)] (· = { r.issued i with holder := some caller }) t :=
  Leads.move ((moveAllowed_operation (decode_encode i)).mpr ⟨hfree, hphase, hop⟩) ht (after_operation (decode_encode i) r caller s)

/-- The end of the exchange. -/
theorem leads_end {φ : SendPhase} (h : InPhase caller φ r) (hφ : φ = .idle ∨ φ = .outstanding) :
    Leads even caller r s [.endExchange] (fun _ => True) s := by
  refine Leads.move (moveAllowed_endExchange.mpr ⟨h.free, ?_⟩) rfl trivial
  rw [h.phase]
  rcases hφ with rfl | rfl <;> exact ⟨rfl, nofun⟩

end

end Sys2Proof.Machine
end

section
/-! SUPPORT. The moves of an exchange keep the contract, part by part: the send, the transmission, the header, the payload (spec/43_firmware_contract.md R141 to R163). -/

namespace Sys2Proof.Machine

open Sys2Proof.Statement

variable {even : Bool} {caller : Nat} {r : HostRecord} {s t : State}

/-! ### The send -/

/-- A request's operands and payload. -/
theorem leads_operandEvents {q : Request} (h : q.wf = true) (hfree : r.freeFor caller = true) :
    Leads even caller r s (accessMoves q.operandEvents)
      (fun r' => Extends caller r r' ∧ Reg.index ∈ r'.operands ∧ Reg.offset ∈ r'.operands ∧ Reg.rlen ∈ r'.operands
        ∧ Reg.plen ∈ r'.operands) (q.stored s) := by
  have hlen := (wf_iff q).mp h
  refine (leads_operand (q := .index) rfl (zeroExtend_byte_mask q.index) hfree).append fun r1 ⟨h1, hindex⟩ => ?_
  refine (leads_operand (q := .offset) rfl (zeroExtend_byte_mask q.offset) h1.free).append fun r2 ⟨h2, hoffset⟩ => ?_
  refine (leads_operand (q := .rlen) rfl (zeroExtend_length_mask q.responseLen) h2.free).append fun r3 ⟨h3, hrlen⟩ => ?_
  refine (leads_operand (q := .plen) rfl (plen_mask hlen) h3.free).append fun r4 ⟨h4, hplen⟩ => ?_
  refine (leads_loaded (sp := .pay) rfl (hlen.trans (by decide)) h4.free).imp fun r5 ⟨h5, _⟩ => ?_
  exact ⟨(((h1.trans h2).trans h3).trans h4).trans h5, h5.operands _ (h4.operands _ (h3.operands _ (h2.operands _ hindex))),
    h5.operands _ (h4.operands _ (h3.operands _ hoffset)), h5.operands _ (h4.operands _ hrlen), h5.operands _ hplen⟩

/-- The phase a STATUS read puts the frame of a fresh BUILD in. -/
def phaseOfErr (err : BitVec 4) : SendPhase := if err = 0 then .ready else .idle

/-- Operands, BUILD and the STATUS read behind it (spec/43_firmware_contract.md R141). -/
theorem leads_send {q : Request} (h : q.wf = true) (heven : even = true → q.payload.length % 2 = 0) (hr : InPhase caller .idle r)
    (ht : exec (.build q.ty) (q.commanded s) = .next t) :
    Leads even caller r s q.sendMoves (InPhase caller (phaseOfErr t.err)) t := by
  have hbuild : access (asmOp (.build q.ty)) (q.stored s) = .next t := by
    rw [access_asmOp, setReg_setReply]
    exact ht
  rw [Request.sendMoves, sendEvents_eq, accessMoves_append, accessMoves_append]
  refine Leads.append (Q := InPhase caller .built) (t := t) ?_ fun r2 hbuilt => ?_
  · refine (leads_operandEvents h hr.free).append fun r1 ⟨hext, hindex, hoffset, hrlen, hplen⟩ => ?_
    have h1 := hr.of_extends hext
    have hop : operationAllowed even r1 (.build q.ty) (q.stored s) = true :=
      operationAllowed_build.mpr ⟨h1.created, by rw [h1.phase]; nofun, by rw [h1.phase]; rfl, ⟨hindex, hoffset, hplen⟩, fun _ => hrlen,
        stored_payloadWritten h s, by rwa [stored_payloadLen h]⟩
    refine (leads_operation h1.free (by rw [h1.phase]; nofun) hop hbuild).imp ?_
    rintro _ rfl
    exact ⟨h1.created, by simp [HostRecord.freeFor], rfl⟩
  · refine (leads_statusRead hbuilt.free).imp ?_
    rintro _ rfl
    exact ⟨hbuilt.created, hbuilt.free, by simp [HostRecord.statusRead, hbuilt.phase, phaseOfErr]⟩

/-- The frame read out, transmitted, and the count compared (spec/43_firmware_contract.md R142). -/
theorem leads_transmit (written : Nat) (hr : InPhase caller .ready r) (hlen : (t.hostReg .txlen).toNat ≤ 521) :
    Leads even caller r t (transmitMoves written t)
      (InPhase caller (if written = (t.hostReg .txlen).toNat then .outstanding else .idle)) t := by
  have hreads : ∀ e ∈ asmRD .txlen :: (List.range (t.hostReg .txlen).toNat).map (asmRB .tx),
      isHostRead e = true ∧ e.wf = true ∧ e ≠ .regRead 1 := by
    refine List.forall_mem_cons.mpr ⟨⟨rfl, rfl, by decide⟩, List.forall_mem_map.mpr fun i hi => ⟨rfl, ?_, nofun⟩⟩
    have hi := List.mem_range.mp hi
    exact decide_eq_true (show i < 521 by omega)
  refine (leads_reads hreads).append fun r1 hr1 => ?_
  subst hr1
  have hsend : Leads even caller r1 t [.transmit t.frame written] (InPhase caller (.transmitted written)) t :=
    Leads.move (moveAllowed_transmit.mpr ⟨hr.free, hr.phase, rfl⟩) rfl ⟨hr.created, hr.free, rfl⟩
  refine hsend.append fun r2 hr2 => ?_
  refine Leads.move (moveAllowed_compareCount.mpr ⟨hr2.free, written, hr2.phase⟩) rfl ?_
  simp only [HostRecord.after, hr2.phase]
  exact ⟨hr2.created, hr2.free, rfl⟩

/-! ### The receive -/

/-- The header stored, PARSE and the STATUS read behind it (spec/43_firmware_contract.md R151, R152). -/
theorem leads_header {header : List Byte} (hlen : header.length = 8) (hr : InPhase caller .outstanding r)
    (ht : exec .parse (s.headed header) = .next t) :
    Leads even caller r s (headerMoves header)
      (fun r' => InPhase caller .outstanding r' ∧ (t.err = 0 → r'.headerChecked = true)) t := by
  have hparse : access (asmOp .parse) (s.loaded .rx header) = .next t := by
    rw [access_asmOp, setReg_setReply]
    exact ht
  rw [headerMoves, asmRxhdr, accessMoves_append, accessMoves_append]
  refine Leads.append (Q := fun r' => InPhase caller .outstanding r' ∧ r'.last = some .parse) (t := t) ?_ fun r2 ⟨h2, hlast⟩ => ?_
  · refine (leads_loaded (sp := .rx) rfl (by rw [hlen]; decide) hr.free).append fun r1 ⟨hext, hheader⟩ => ?_
    have h1 := hr.of_extends hext
    have hop : operationAllowed even r1 .parse (s.loaded .rx header) = true :=
      operationAllowed_parse.mpr ⟨h1.created, by rw [h1.phase]; rfl, hlen ▸ hheader rfl⟩
    refine (leads_operation h1.free (by rw [h1.phase]; nofun) hop hparse).imp ?_
    rintro _ rfl
    exact ⟨⟨h1.created, by simp [HostRecord.freeFor], h1.phase⟩, rfl⟩
  · refine (leads_statusRead h2.free).imp ?_
    rintro _ rfl
    refine ⟨⟨h2.created, h2.free, by simp [HostRecord.statusRead, h2.phase]⟩, fun herr => ?_⟩
    simp [HostRecord.statusRead, hlast, herr]

/-- The fields of a checked header read and used. -/
theorem leads_fields (hr : InPhase caller .outstanding r) (hchecked : r.headerChecked = true) :
    Leads even caller r s fieldMoves (InPhase caller .outstanding) s := by
  have hreads : ∀ e ∈ [asmRD .rhdrS, asmRD .rhdrC, asmRD .rhdrL], isHostRead e = true ∧ e.wf = true ∧ e ≠ .regRead 1 := by decide
  refine (leads_reads hreads).append fun r1 hr1 => ?_
  subst hr1
  exact Leads.move (by simp [moveAllowed, hr.free, hchecked]) rfl hr

/-- Trailer, length, PCHK and the STATUS read behind it, the payload being in PAY (spec/43_firmware_contract.md R156). -/
theorem leads_check {n : Nat} (hn : n ≤ 511) {t0 t1 : Byte} (hr : InPhase caller .outstanding r)
    (hpay : ∀ i < n, (Memory.read? (s.bytes .pay) i).isSome = true) (ht : exec .pchk (s.trailed n t0 t1) = .next t) :
    Leads even caller r s (accessMoves (checkEvents n t0 t1 ++ [asmRD .status])) (InPhase caller .outstanding) t := by
  rw [accessMoves_append]
  refine Leads.append (Q := InPhase caller .outstanding) (t := t) ?_ fun r3 h3 => ?_
  · refine (leads_operand (q := .trailer) (v := joinBytes t0 t1) rfl BitVec.and_allOnes hr.free).append fun r1 ⟨hext1, htrailer⟩ => ?_
    refine (leads_operand (q := .plen) rfl (plen_mask hn) hext1.free).append fun r2 ⟨hext2, hplen⟩ => ?_
    have h2 := hr.of_extends (hext1.trans hext2)
    have hwritten : ((s.setReg .trailer (joinBytes t0 t1)).setReg .plen (BitVec.ofNat 16 n)).payloadWritten = true := by
      have hlen : ((s.setReg .trailer (joinBytes t0 t1)).setReg .plen (BitVec.ofNat 16 n)).payloadLen = n := by
        simpa [State.trailed] using trailed_payloadLen s hn t0 t1
      rw [payloadWritten_iff, hlen]
      simpa using hpay
    have hop := operationAllowed_pchk (even := even).mpr
      ⟨h2.created, by rw [h2.phase]; rfl, ⟨hplen, hext2.operands _ htrailer⟩, hwritten⟩
    refine (leads_operation h2.free (by rw [h2.phase]; nofun) hop ?_).imp ?_
    · rw [access_asmOp, setReg_setReply]
      exact ht
    · rintro _ rfl
      exact ⟨h2.created, by simp [HostRecord.freeFor], h2.phase⟩
  · refine (leads_statusRead h3.free).imp ?_
    rintro _ rfl
    exact ⟨h3.created, h3.free, by simp [HostRecord.statusRead, h3.phase]⟩

section
variable {p : FirmwareParams} {n capacity : Nat} {sent : List Byte} {line : List LineEvent} {e : ExchangeEnd}

theorem PayloadEnd.leads (hn : n ≤ 511) (h : PayloadEnd n capacity sent line s e) (hr : InPhase caller .outstanding r) :
    Leads even caller r s e.moves (fun _ => True) e.block := by
  cases h with
  | unread => exact leads_end hr (.inr rfl)
  | noTrailer hpayload =>
    have hlen : (readPayload n capacity line).stored.length ≤ ByteSpace.pay.size :=
      (length_stored_of_success hpayload).trans_le (hn.trans (by decide))
    exact (leads_loaded (sp := .pay) rfl hlen hr.free).append fun r1 ⟨hext, _⟩ => leads_end (hr.of_extends hext) (.inr rfl)
  | checked hpayload _ hcheck =>
    have hlen := length_stored_of_success hpayload
    rw [List.append_assoc, accessMoves_append, List.append_assoc]
    refine (leads_loaded (sp := .pay) rfl (hlen.trans_le (hn.trans (by decide))) hr.free).append fun r1 ⟨hext, _⟩ => ?_
    refine (leads_check hn (hr.of_extends hext) (fun i hi => loaded_written s .pay (by omega)) hcheck).append fun r2 h2 => ?_
    exact leads_end h2 (.inr rfl)

theorem CheckedEnd.leads (h : CheckedEnd p capacity sent line s e) (hr : InPhase caller .outstanding r) :
    Leads even caller r s e.moves (fun _ => True) e.block := by
  cases h with
  | failure | bare => exact leads_end hr (.inr rfl)
  | payload _ _ hend => exact hend.leads (by omega) hr

theorem ReceiveEnd.leads (h : ReceiveEnd p capacity sent line s e) (hr : InPhase caller .outstanding r) :
    Leads even caller r s e.moves (fun _ => True) e.block := by
  cases h with
  | noHeader => exact leads_end hr (.inr rfl)
  | rejected hheader hparse =>
    exact (leads_header (length_of_readExactly_eq hheader) hr hparse).append fun r1 ⟨h1, _⟩ => leads_end h1 (.inr rfl)
  | checked hheader hparse herr hend =>
    rw [afterMoves_moves, List.append_assoc]
    refine (leads_header (length_of_readExactly_eq hheader) hr hparse).append fun r1 ⟨h1, hchecked⟩ => ?_
    exact (leads_fields h1 (hchecked herr)).append fun r2 h2 => hend.leads h2

end

/-! ### The exchange -/

/-- A BUILD that leaves ERR 0 has framed the request. -/
theorem eq_framed_of_err {q : Request} (ht : exec (.build q.ty) (q.commanded s) = .next t) (herr : t.err = 0) : t = q.framed s := by
  obtain ⟨-, -, rfl⟩ | ⟨-, rfl⟩ := exec_cases ht
  · rw [err_finish] at herr; cases herr
  · rw [err_finish, code_eq_zero_iff] at herr
    have hty : q.ty ≠ .unused := by intro hty; rw [hty] at herr; cases herr
    rw [herr, finish_workOf_build hty]
    rfl

theorem exchange_leads {q : Request} (hq : q.wf = true) (heven : even = true → q.payload.length % 2 = 0) (hr : InPhase caller .idle r)
    (p : FirmwareParams) (capacity written : Nat) (line : List LineEvent) (s : State) :
    ∃ e, exchange p q capacity written line s = .next e ∧ Leads even caller r s e.moves (fun _ => True) e.block := by
  obtain ⟨t, ht⟩ := exec_answers (.build q.ty) (q.commanded s)
  have hsend := leads_send hq heven hr ht
  by_cases herr : t.err = 0
  · obtain rfl := eq_framed_of_err ht herr
    rw [herr] at hsend
    have htxlen := framed_hostTxlen hq s
    have hsent : Leads even caller r s (q.sendMoves ++ transmitMoves written (q.framed s))
        (InPhase caller (if written = frameSize q.payload then .outstanding else .idle)) (q.framed s) :=
      hsend.append fun r1 h1 => htxlen ▸ leads_transmit written h1 (htxlen ▸ frameSize_le hq)
    by_cases hw : written = frameSize q.payload
    · rw [if_pos hw] at hsent
      subst hw
      obtain ⟨e, he, hend⟩ := receive_end p capacity (q.framed s).frame line (q.framed s)
      exact ⟨_, (exchange_of_sent hq p capacity line s ht).trans (congrArg (andThen · _) he), hsent.append fun r1 h1 => hend.leads h1⟩
    · rw [if_neg hw] at hsent
      exact ⟨_, exchange_of_shortfall hq p capacity written line s ht hw, hsent.append fun r1 h1 => leads_end h1 (.inl rfl)⟩
  · refine ⟨_, exchange_of_failed_build hq p capacity written line s ht herr, hsend.append fun r1 h1 => leads_end h1 (.inl ?_)⟩
    exact if_neg herr

end Sys2Proof.Machine
end

section
/-! The statement of the exchange and the host's contract, settled. -/

namespace Sys2Proof.Machine

/-- Settles O53: the moves of every end of the exchange lead, allowed one by one, to the block it leaves. -/
theorem exchangeKeepsTheContract : Obligations.ExchangeKeepsTheContract := by
  intro p q capacity written line s r caller even hq heven hcreated hphase hholder
  obtain ⟨e, he, hleads⟩ := exchange_leads hq heven ⟨hcreated, (freeFor_iff r caller).mpr hholder, hphase⟩ p capacity written line s
  obtain ⟨hkeeps, -, hrun⟩ := hleads s.reply
  exact ⟨e, he, hkeeps, hrun⟩

end Sys2Proof.Machine
end

section
/-! SUPPORT. How a command ends, said once: with the word Illegal, without a session, or with the operation's work done; what CMD and STATUS hold then, and when an operation fails (spec/60_exceptions.md R170 to R174). -/

namespace Sys2Proof.Machine

open Sys2Proof.Statement

/-- How a command ends, its checks in the order of spec/60_exceptions.md R174: the code it finishes with and the state it leaves. -/
inductive CommandEnd (w : Word) (s : State) : ResultCode → State → Prop
  | illegal {r : IllegalReason} (hd : decode w = .illegal r) :
      CommandEnd w s .illegalCommand (finish .illegalCommand (s.setReg .cmd w))
  | noSession {i : Instr} (hd : decode w = .op i) (hi : i ≠ .init) (hs : s.hasSession = false) :
      CommandEnd w s .noSession (finish .noSession (s.setReg .cmd w))
  | worked {i : Instr} {c : ResultCode} (hd : decode w = .op i) (hs : i = .init ∨ s.hasSession = true)
      (hc : codeOf i (s.setReg .cmd w) = c) : CommandEnd w s c (finish c (workOf i (s.setReg .cmd w)))

/-- Every command ends in one of the ways. -/
theorem exists_commandEnd (w : Word) (s : State) : ∃ c t, runCommand w s = .next t ∧ CommandEnd w s c t := by
  obtain ⟨t, ht⟩ := runCommand_answers w s
  cases hd : decode w with
  | illegal r => exact ⟨_, _, runCommand_of_illegal hd s, .illegal hd⟩
  | op i =>
    have hses : (s.setReg .cmd w).hasSession = s.hasSession := hasSession_setReg (by decide) w
    rw [runCommand_of_op hd] at ht ⊢
    obtain ⟨hi, hs, rfl⟩ | ⟨hs, rfl⟩ := exec_cases ht
    · exact ⟨_, _, ht, .noSession hd hi (hses ▸ hs)⟩
    · exact ⟨_, _, ht, .worked hd (hses ▸ hs) rfl⟩

/-- A step with a CMD write pending is that command, on a state that differs only in the model's own fields. -/
theorem step_of_pending_cmd {s : State} {rest : List HostEvent} {w : Word} (hp : s.pending = .regWrite 0 w :: rest) :
    Machine.step s = runCommand w (taken s rest) := step_of_pending hp

theorem blockOnly_taken {rs : List Reg} {s t : State} {rest : List HostEvent} : BlockOnly rs (taken s rest) t ↔ BlockOnly rs s t := by
  simp [BlockOnly, taken]

/-! ### When an operation fails -/

theorem eq_build_unused_of_codeOf {i : Instr} {s : State} (h : codeOf i s = .invalidAccessType) : i = .build .unused := by
  cases i with
  | init | crcclr | crcfold b => cases h
  | build ty =>
    cases ty with
    | unused => rfl
    | read | write | readWrite => cases h
  | parse | pchk => simp only [codeOf] at h; split at h <;> cases h

theorem eq_parse_of_codeOf {i : Instr} {s : State} (h : codeOf i s = .headerChecksumMismatch) :
    i = .parse ∧ s.checksum s.responseHeader ≠ joinBytes (s.byteAt .rx 6) (s.byteAt .rx 7) := by
  cases i with
  | init | crcclr | crcfold b => cases h
  | build ty => cases ty <;> cases h
  | parse => exact ⟨rfl, fun he => by simp [codeOf, he] at h⟩
  | pchk => simp only [codeOf] at h; split at h <;> cases h

theorem eq_pchk_of_codeOf {i : Instr} {s : State} (h : codeOf i s = .payloadChecksumMismatch) :
    i = .pchk ∧ s.checksum s.payload ≠ s.reg .trailer := by
  cases i with
  | init | crcclr | crcfold b => cases h
  | build ty => cases ty <;> cases h
  | parse => simp only [codeOf] at h; split at h <;> cases h
  | pchk => exact ⟨rfl, fun he => by simp [codeOf, he] at h⟩

/-! ### What every command leaves -/

section
variable {w : Word} {s t : State} {c : ResultCode} (h : CommandEnd w s c t)
include h

theorem CommandEnd.cmd : t.reg .cmd = w := by
  cases h with
  | illegal | noSession => simp
  | @worked i =>
    have hcmd : Reg.cmd ∉ regsWritten i := by cases i <;> simp [regsWritten]
    simp [workOf_reg_of_not_written hcmd]

theorem CommandEnd.errField : errField (t.reg .status) = c.code := by
  cases h <;> simp

/-- A command that fails leaves SESSION and STATUS' other bits alone: INIT, which sets SESSION, does not fail. -/
theorem CommandEnd.status_of_failed (hc : c ≠ .ok) : t.reg .status = statusWith s c.code := by
  rw [← setErr_eq_statusWith]
  cases h with
  | illegal | noSession => simp
  | @worked i _ _ _ hcode =>
    have hi : i ≠ .init := by
      rintro rfl
      exact hc hcode.symm
    simp [workOf_status, hi]

end

end Sys2Proof.Machine
end

section
/-! SUPPORT. What a failed command has written up to its `finish`, code by code (spec/60_exceptions.md R172, R173), and that its code is the one of the order of checks (R174). -/

namespace Sys2Proof.Machine

open Sys2Proof.Statement

/-- The result codes have different numbers (spec/60_exceptions.md R170). -/
theorem code_inj {c d : ResultCode} : c.code = d.code ↔ c = d := by cases c <;> cases d <;> decide

/-! ### The frames -/

theorem blockOnly_finish {rs : List Reg} {s t : State} (h : BlockOnly rs s t) (hst : Reg.status ∈ rs) (c : ResultCode) :
    BlockOnly rs s (finish c t) := blockOnly_setReg h hst _

theorem blockOnly_setCmd {rs : List Reg} (hcmd : Reg.cmd ∈ rs) (s : State) (w : Word) : BlockOnly rs s (s.setReg .cmd w) :=
  blockOnly_setReg (blockOnly_refl rs s) hcmd w

/-- The extracted header differs in the result registers of PARSE alone. -/
theorem blockOnly_extractHeader {rs : List Reg} {s t : State} (h : BlockOnly rs s t)
    (hrs : ∀ r ∈ ([.rhdrA, .rhdrC, .rhdrS, .rhdrL, .rhdrK, .hcsum] : List Reg), r ∈ rs) : BlockOnly rs s (extractHeader t) := by
  simp only [List.forall_mem_cons] at hrs
  obtain ⟨hA, hC, hS, hL, hK, hhcsum, -⟩ := hrs
  exact blockOnly_setReg (blockOnly_setReg (blockOnly_setReg (blockOnly_setReg (blockOnly_setReg (blockOnly_setReg h
    hA _) hC _) hS _) hL _) hK _) hhcsum _

/-! ### The footprints of the failures -/

section
variable {w : Word} {s t : State}

theorem CommandEnd.frame_of_illegal (h : CommandEnd w s .illegalCommand t) : BlockOnly [.cmd, .status] s t := by
  cases h with
  | illegal => exact blockOnly_finish (blockOnly_setCmd (by decide) s w) (by decide) _
  | worked hd hs hc => exact absurd (hc ▸ codeOf_mem _ _) (by decide)

theorem CommandEnd.frame_of_noSession (h : CommandEnd w s .noSession t) : BlockOnly [.cmd, .status] s t := by
  cases h with
  | noSession => exact blockOnly_finish (blockOnly_setCmd (by decide) s w) (by decide) _
  | worked hd hs hc => exact absurd (hc ▸ codeOf_mem _ _) (by decide)

/-- A BUILD that rejects its access type has advanced SEQ (spec/41_framer.md R113). -/
theorem CommandEnd.footprint_of_accessType (h : CommandEnd w s .invalidAccessType t) :
    BlockOnly [.cmd, .status, .seq] s t ∧ (t.reg .seq).toNat = ((s.reg .seq).toNat + 1) % 16 := by
  cases h with | worked hd hs hc =>
  obtain rfl := eq_build_unused_of_codeOf hc
  have hseq : BlockOnly [.cmd, .status, .seq] s (s.setReg .cmd w).advanceSeq :=
    blockOnly_setReg (blockOnly_setCmd (by decide) s w) (by decide) _
  refine ⟨blockOnly_finish hseq (by decide) _, ?_⟩
  calc ((finish .invalidAccessType (s.setReg .cmd w).advanceSeq).reg .seq).toNat
      = ((s.setReg .cmd w).advanceSeq.reg .seq).toNat := by simp
    _ = ((s.reg .seq).toNat + 1) % 16 := by rw [advanceSeq_toNat]; simp

/-- A PARSE that finds the header's checksum wrong has split the header (spec/42_parser.md R126). -/
theorem CommandEnd.footprint_of_header (h : CommandEnd w s .headerChecksumMismatch t) :
    BlockOnly [.cmd, .status, .rhdrA, .rhdrC, .rhdrS, .rhdrL, .rhdrK, .hcsum] s t
      ∧ HeaderSplit s t ∧ t.reg .hcsum ≠ t.reg .rhdrK := by
  cases h with | worked hd hs hc =>
  obtain ⟨rfl, hne⟩ := eq_parse_of_codeOf hc
  have hreg : ∀ r, r ≠ .status →
      (finish .headerChecksumMismatch (extractHeader (s.setReg .cmd w))).reg r = (extractHeader (s.setReg .cmd w)).reg r :=
    fun r hr => by simp [hr]
  have hframe : BlockOnly [.cmd, .status, .rhdrA, .rhdrC, .rhdrS, .rhdrL, .rhdrK, .hcsum] s (extractHeader (s.setReg .cmd w)) :=
    blockOnly_extractHeader (blockOnly_setCmd (by decide) s w) (by decide)
  have hsplit := headerSplit_of_extractHeader hreg
  refine ⟨blockOnly_finish hframe (by decide) _, hsplit, ?_⟩
  rwa [workOf, hreg .hcsum nofun, hreg .rhdrK nofun, extractHeader_reg, extractHeader_reg]

/-- A PCHK that finds the payload's checksum wrong has stored it in PCSUM (spec/42_parser.md R131). -/
theorem CommandEnd.footprint_of_payload (h : CommandEnd w s .payloadChecksumMismatch t) :
    BlockOnly [.cmd, .status, .pcsum] s t ∧ t.reg .pcsum = payloadChecksum s ∧ t.reg .pcsum ≠ s.reg .trailer := by
  cases h with | worked hd hs hc =>
  obtain ⟨rfl, hne⟩ := eq_pchk_of_codeOf hc
  have hframe : BlockOnly [.cmd, .status, .pcsum] s (workOf .pchk (s.setReg .cmd w)) :=
    blockOnly_setReg (blockOnly_setCmd (by decide) s w) (by decide) _
  have hpcsum : (finish .payloadChecksumMismatch (workOf .pchk (s.setReg .cmd w))).reg .pcsum
      = (s.setReg .cmd w).checksum (s.setReg .cmd w).payload := by simp [workOf]
  refine ⟨blockOnly_finish hframe (by decide) _, hpcsum.trans (checksum_payload _), ?_⟩
  rwa [hpcsum]

end

/-! ### The code in the order of the checks -/

/-- With its session check passed an operation's code is the one spec/60_exceptions.md R174 gives. -/
theorem errOf_of_checked {s : State} {w : Word} {i : Instr} (hd : decode w = .op i) (hs : i = .init ∨ s.hasSession = true) :
    errOf s w = (codeOf i s).code := by
  cases i with
  | init => simp [errOf, hd, codeOf, ResultCode.code]
  | crcclr | crcfold b => simp [errOf, hd, hs.resolve_left nofun, codeOf, ResultCode.code]
  | build ty => cases ty <;> simp [errOf, hd, hs.resolve_left nofun, codeOf, ResultCode.code]
  | parse =>
    simp only [errOf, hd, hs.resolve_left nofun, codeOf, responseHeader_eq, apply_ite ResultCode.code]
    rfl
  | pchk =>
    simp only [errOf, hd, hs.resolve_left nofun, codeOf, checksum_payload, apply_ite ResultCode.code]
    rfl

theorem errOf_of_noSession {s : State} {w : Word} {i : Instr} (hd : decode w = .op i) (hi : i ≠ .init) (hs : s.hasSession = false) :
    errOf s w = 13 := by
  cases i with
  | init => exact absurd rfl hi
  | crcclr | crcfold b | build ty | parse | pchk => simp [errOf, hd, hs]

/-- The way a command ends is the one the order of the checks gives. -/
theorem CommandEnd.code_eq_errOf {w : Word} {s t : State} {c : ResultCode} (h : CommandEnd w s c t) : c.code = errOf s w := by
  cases h with
  | illegal hd => simp [errOf, hd, ResultCode.code]
  | noSession hd hi hs => exact (errOf_of_noSession hd hi hs).symm
  | @worked i _ hd hs hc =>
    have hcmd : Reg.cmd ∉ regsRead i := by cases i <;> simp [regsRead]
    rw [errOf_of_checked hd hs, ← hc, (ReadsAgree.of_setReg hcmd nofun s w).codeOf]

/-- The model's own fields have no part in the checks. -/
theorem errOf_taken (s : State) (rest : List HostEvent) (w : Word) : errOf (taken s rest) w = errOf s w := rfl

end Sys2Proof.Machine
end

section
/-! SUPPORT. What an operation does with the ERR it finds: nothing (spec/60_exceptions.md R175). -/

namespace Sys2Proof.Machine

open Sys2Proof.Statement

/-! ### Work on the same operands, over the same buffers -/

section
variable {i : Instr} {s s' : State} (h : ReadsAgree i s s')
include h

theorem ReadsAgree.workOf_tbl (htbl : s'.tbl = s.tbl) : (workOf i s').tbl = (workOf i s).tbl := by
  by_cases hi : i = .init
  · subst hi
    simp [workOf, h.regs .poly (by decide)]
  · rw [Machine.workOf_tbl hi, Machine.workOf_tbl hi, htbl]

theorem ReadsAgree.workOf_bytes {sp : ByteSpace} (hbytes : s'.bytes sp = s.bytes sp) :
    (workOf i s').bytes sp = (workOf i s).bytes sp := by
  by_cases hno : sp = .tx → ∀ ty, i = .build ty → ty = .unused
  · rw [Machine.workOf_bytes hno, Machine.workOf_bytes hno, hbytes]
  · obtain ⟨rfl, ty, rfl, hty⟩ : sp = .tx ∧ ∃ ty, i = .build ty ∧ ty ≠ .unused := by simpa using hno
    have htx : ∀ u, (workOf (.build ty) u).bytes .tx = (builtState ty u).bytes .tx := fun u => by
      rw [← finish_workOf_build hty, finish_bytes]
    rw [htx, htx, built_txData, built_txData, hbytes, h.newHeader, h.payloadLen (by simp [regsRead]),
      h.payload (by simp [regsRead]) rfl, h.checksum fun _ hk => hk]

end

/-! ### The result code found -/

/-- The state with `code` in ERR. -/
def withErr (s : State) (code : BitVec 4) : State := s.setReg .status (statusWith s code)

/-- SESSION and ERR are different bits of STATUS. -/
theorem setSession_setErr (v : Word) (c : BitVec 4) : setSession (setErr v c) = setErr (setSession v) c := by
  have hsession : 0x0010#16 &&& 0xFFF0#16 = 0x0010#16 := rfl
  rw [setErr, setErr, setSession, setSession, BitVec.and_or_distrib_right, hsession, BitVec.or_assoc, BitVec.or_assoc,
    BitVec.or_comm 0x0010#16]

@[simp] theorem reg_withErr (s : State) (code : BitVec 4) (r : Reg) :
    (withErr s code).reg r = if r = .status then setErr (s.reg .status) code else s.reg r := reg_setReg s .status r _

@[simp] theorem withErr_tbl (s : State) (code : BitVec 4) : (withErr s code).tbl = s.tbl := setReg_tbl s _ _
@[simp] theorem withErr_bytes (s : State) (code : BitVec 4) (sp : ByteSpace) : (withErr s code).bytes sp = s.bytes sp := setReg_bytes s _ _ sp
@[simp] theorem withErr_pending (s : State) (code : BitVec 4) : (withErr s code).pending = s.pending := setReg_pending s _ _
@[simp] theorem withErr_reply (s : State) (code : BitVec 4) : (withErr s code).reply = s.reply := setReg_reply s _ _
@[simp] theorem withErr_resets (s : State) (code : BitVec 4) : (withErr s code).resets = s.resets := setReg_resets s _ _

@[simp] theorem hasSession_withErr (s : State) (code : BitVec 4) : (withErr s code).hasSession = s.hasSession := by
  simp [State.hasSession]

/-- `finish` replaces the ERR that is there. -/
@[simp] theorem finish_withErr (c : ResultCode) (s : State) (code : BitVec 4) : finish c (withErr s code) = finish c s := by
  refine State.ext_regs (fun r => ?_) (by simp) (fun sp => by simp) (by simp) (by simp) (by simp)
  by_cases hr : r = .status
  · subst hr; simp
  · simp [hr]

/-- An operation reads nothing that a result code changes. -/
theorem readsAgree_withErr (i : Instr) (s : State) (code : BitVec 4) : ReadsAgree i s (withErr s code) where
  session := hasSession_withErr s code
  regs r hr := by
    have hst : r ≠ .status := by
      rintro rfl
      cases i <;> simp [regsRead] at hr
    simp [hst]
  tbl k _ := tblAt_setReg s _ _ k
  pay _ k _ := byteAt_setReg s _ _ .pay k
  rx _ k _ := byteAt_setReg s _ _ .rx k

/-- The work of an operation keeps the ERR it finds, and leaves all else as it does over any other ERR. -/
theorem workOf_withErr (i : Instr) (s : State) (code : BitVec 4) : workOf i (withErr s code) = withErr (workOf i s) code := by
  have hagree := readsAgree_withErr i s code
  refine State.ext_regs (fun r => ?_) (by simp [hagree.workOf_tbl]) (fun sp => by simp [hagree.workOf_bytes]) (by simp [workOf_model])
    (by simp [workOf_model]) (by simp [workOf_model])
  by_cases hr : r = .status
  · subst hr
    by_cases hi : i = .init <;> simp [workOf_status, hi, setSession_setErr]
  · rw [reg_withErr, if_neg hr]
    obtain hsame | ⟨hkept, hkept'⟩ := hagree.workOf_reg hr
    · exact hsame
    · simpa [hr, hkept] using hkept'

end Sys2Proof.Machine
end

section
/-! SUPPORT. What the host has still to make is its own: no access changes it, so a host of accesses that name what exists stays one (spec/60_exceptions.md R179). -/

namespace Sys2Proof.Machine

theorem runCommand_pending {w : Word} {s t : State} (h : runCommand w s = .next t) : t.pending = s.pending := by
  cases hd : decode w with
  | illegal r =>
    rw [runCommand_of_illegal hd] at h
    cases h; simp
  | op i =>
    obtain ⟨hpending, -⟩ := workOf_model i (s.setReg .cmd w)
    rw [runCommand_of_op hd] at h
    exact (exec_keeps State.pending h finish_pending hpending).trans (setReg_pending s _ _)

theorem access_pending {e : HostEvent} {s t : State} (h : access e s = .next t) : t.pending = s.pending := by
  cases access_effect h with
  | command hw => exact (runCommand_pending hw).trans (setReply_pending s none)
  | register | byte | reply => simp
  | hardReset => rfl

/-- A step of an orderly host answers and leaves an orderly host. -/
theorem step_of_hostOrderly {s : State} (h : s.hostOrderly = true) : ∃ t, Machine.step s = .next t ∧ t.hostOrderly = true := by
  cases hp : s.pending with
  | nil => exact ⟨s, by simp [Machine.step, hp], h⟩
  | cons e rest =>
    obtain ⟨he, hrest⟩ : e.wf = true ∧ rest.all HostEvent.wf = true := by simpa [State.hostOrderly, hp] using h
    obtain ⟨t, ht⟩ := access_answers he (s.setPending rest)
    exact ⟨t, (step_of_pending hp).trans ht, by rw [State.hostOrderly, access_pending ht]; exact hrest⟩

/-- A run goes on from the state its first step answers. -/
theorem run_succ_of_step {s t : State} (h : Machine.step s = .next t) (k : Nat) :
    Host.Core.run core (k + 1) s = Host.Core.run core k t := by
  have hcore : core.step s = .next t := h
  simp [Host.Core.run, hcore]

/-- What makes a step answer and is kept by it makes every run answer. -/
theorem safeRun_of_kept {P : State → Prop} (hstep : ∀ s, P s → ∃ t, Machine.step s = .next t ∧ P t) {s : State} (h : P s) :
    SafeRun s := by
  intro k
  induction k generalizing s with
  | zero => exact ⟨s, rfl⟩
  | succ k ih =>
    obtain ⟨t, ht, hkept⟩ := hstep s h
    obtain ⟨u, hu⟩ := ih hkept
    exact ⟨u, (run_succ_of_step ht k).trans hu⟩

end Sys2Proof.Machine
end

section
/-! The statements of errors and of the host that is never stopped, settled. -/

namespace Sys2Proof.Machine

open Sys2Proof.Statement

/-- Settles O13: an orderly host stays orderly, and its accesses answer. -/
theorem orderlyHostRunsForever : Obligations.OrderlyHostRunsForever := fun _ =>
  safeRun_of_kept (P := fun s => s.hostOrderly = true) fun _ => step_of_hostOrderly

/-- Settles O36: by the code the command ends with, which tells the operation and the check that failed. -/
theorem failedOperationChangesOnlyItsFootprint : Obligations.FailedOperationChangesOnlyItsFootprint := by
  intro s rest w hp
  obtain ⟨c, t, ht, hend⟩ := exists_commandEnd w (taken s rest)
  have hcode : ∀ d : ResultCode, errField (t.reg .status) = d.code → CommandEnd w (taken s rest) d t := fun d hd =>
    code_inj.mp (hend.errField.symm.trans hd) ▸ hend
  refine ⟨t, (step_of_pending_cmd hp).trans ht, hend.cmd, fun h => ?_, fun h => ?_, fun h => ?_, fun h => ?_, fun h => ?_, fun h => ?_⟩
  · exact blockOnly_taken.mp (hcode .illegalCommand h).frame_of_illegal
  · exact blockOnly_taken.mp (hcode .noSession h).frame_of_noSession
  · obtain ⟨hframe, hseq⟩ := (hcode .invalidAccessType h).footprint_of_accessType
    exact ⟨blockOnly_taken.mp hframe, hseq⟩
  · obtain ⟨hframe, hwritten⟩ := (hcode .headerChecksumMismatch h).footprint_of_header
    exact ⟨blockOnly_taken.mp hframe, hwritten⟩
  · obtain ⟨hframe, hwritten⟩ := (hcode .payloadChecksumMismatch h).footprint_of_payload
    exact ⟨blockOnly_taken.mp hframe, hwritten⟩
  · rw [hend.errField] at h ⊢
    exact hend.status_of_failed fun hc => h ((code_eq_zero_iff c).mpr hc)

/-- Settles O37: each end of a command has the code of the check that ended it. -/
theorem errorPrecedence : Obligations.ErrorPrecedence := by
  intro s rest w hp
  obtain ⟨c, t, ht, hend⟩ := exists_commandEnd w (taken s rest)
  refine ⟨t, (step_of_pending_cmd hp).trans ht, ?_⟩
  rw [hend.errField, hend.code_eq_errOf, errOf_taken]

/-- Settles O38: the session check and the code do not see ERR, the work keeps it, and `finish` replaces it. -/
theorem errorsDoNotAlterLaterOperations : Obligations.ErrorsDoNotAlterLaterOperations := by
  intro i s code
  show exec i (withErr s code) = exec i s
  by_cases hp : i = .init ∨ s.hasSession = true
  · rw [exec_eq_finish_workOf hp, exec_eq_finish_workOf (by simpa using hp), (readsAgree_withErr i s code).codeOf, workOf_withErr,
      finish_withErr]
  · obtain ⟨hi, hs⟩ := not_or.mp hp
    have hs := Bool.eq_false_iff.mpr hs
    rw [exec_of_noSession hi hs, exec_of_noSession hi (by simpa using hs), finish_withErr]

/-- Settles O6: the Illegal word's command, on a state that differs only in the model's own fields. -/
theorem illegalWordOnlyReports : Obligations.IllegalWordOnlyReports := by
  intro s rest w hp hw
  obtain ⟨t, ht, hcmd, hstatus, hframe⟩ := runCommand_illegal_frame hw (taken s rest)
  exact ⟨t, (step_of_pending_cmd hp).trans ht, hcmd, hstatus, blockOnly_taken.mp hframe⟩

/-- Settles O35: the session check comes first in every operation but INIT, and the reset state has no session. -/
theorem noSessionDoesNothing : Obligations.NoSessionDoesNothing := ⟨fun _ _ => exec_of_noSession, rfl⟩

end Sys2Proof.Machine
end

section
/-! SUPPORT. The hard reset field by field, and the step that takes it or finds nothing to take (spec/70_reset_and_hazards.md R195, R212). -/

namespace Sys2Proof.Machine

@[simp] theorem reg_hardReset (s : State) (r : Reg) : (hardReset s).reg r = State.reset.reg r := by cases r <;> rfl
@[simp] theorem hardReset_tbl (s : State) : (hardReset s).tbl = [] := rfl
@[simp] theorem hardReset_bytes (s : State) (sp : ByteSpace) : (hardReset s).bytes sp = [] := by cases sp <;> rfl
@[simp] theorem hardReset_pending (s : State) : (hardReset s).pending = s.pending := rfl

theorem tblAt_of_tbl_nil {s : State} (h : s.tbl = []) (i : Nat) : s.tblAt i = Config.unwrittenTbl s.resets i := by
  rw [State.tblAt, h]; rfl

theorem byteAt_of_bytes_nil {s : State} {sp : ByteSpace} (h : s.bytes sp = []) (i : Nat) :
    s.byteAt sp i = unwrittenByte sp s.resets i := by
  rw [State.byteAt, h]; rfl

theorem step_of_pending_nil {s : State} (h : s.pending = []) : Machine.step s = .next s := by
  rw [Machine.step, h]

theorem step_of_pending_hardReset {s : State} {rest : List HostEvent} (h : s.pending = .hardReset :: rest) :
    Machine.step s = .next (hardReset (s.setPending rest)) := by
  rw [step_of_pending h]; rfl

end Sys2Proof.Machine
end

section
/-! The statements of the hard reset and of the step without a host event, settled. -/

namespace Sys2Proof.Machine

open Sys2Proof.Statement

/-- Settles O7: the case of `step` in which the host has no access left to make. -/
theorem nothingHappensWithoutTheHost : Obligations.NothingHappensWithoutTheHost := fun _ => step_of_pending_nil

/-- Settles O15: the registers are those of the reset state (O14), and every buffer is empty. -/
theorem hardResetRestoresResetValues : Obligations.HardResetRestoresResetValues := by
  intro s rest hp
  obtain ⟨hreg, -⟩ := resetValues
  refine ⟨hardReset (s.setPending rest), step_of_pending_hardReset hp, fun r => ?_, ?_, fun sp => ?_, ?_⟩
  · rw [reg_hardReset, hreg]
  · exact tblAt_of_tbl_nil (hardReset_tbl _)
  · exact byteAt_of_bytes_nil (hardReset_bytes _ sp)
  · rw [hardReset_pending, setPending_pending]

end Sys2Proof.Machine
end
